-- ==== Sys2Proof/Word.lean ====
section
/-! DEFINITION. The two word sizes of the block (R7): a byte of the wire or of a buffer, and a word
of the register port. Their arithmetic wraps modulo 256 and modulo 2^32. -/

namespace Sys2Proof

/-- A byte, 8 bits, unsigned (R7). -/
abbrev Byte := BitVec 8

/-- A 32-bit word: a port access (R41), a tick or a timeout in ms (R22, R27). -/
abbrev Word := BitVec 32

end Sys2Proof
end

