-- ==== Sys2Proof/Config.lean ====
section
/-! DEFINITION. What is fixed for one block: the constants the spec gives (R5, R6), the three
parameters it leaves OPEN, and the free values of its draws. The opaque ones have no body: nothing
can be proved of their value. -/

namespace Sys2Proof

/-- The two settings of `I2C_OVERFLOW` (R5, D13). -/
inductive I2cOverflow where
  | truncate
  | reject
  deriving DecidableEq, Repr, Inhabited

namespace Config

/-- `CMD_BUF_CAP` (R5): the most bytes LEN may count in an encoded frame. -/
def cmdBufCap : Nat := 64

/-- `MAX_PAYLOAD = CMD_BUF_CAP - 1` (R5, R72; 90_conflicts.md C1). -/
def maxPayload : Nat := 63

/-- `FRAMEBUF_CAP` (R5, R32). -/
def frameBufCap : Nat := 72

/-- `RXBUF_CAP` (R5, R33). -/
def rxBufCap : Nat := 262

/-- `PAYBUF_CAP` (R5, R34). -/
def payBufCap : Nat := 254

/-- `POLL_MS` (R5, R104). -/
def pollMs : Word := 10

/-- `I2C_READY` (R5, R30): the status byte that means ready. -/
def i2cReady : Byte := 0x01

/-- `TFI_H2C` (R6, R60). -/
def tfiH2c : Byte := 0xD4

/-- `TFI_C2H` (R6, R60). -/
def tfiC2h : Byte := 0xD5

/-- `PREAMBLE START_CODE` (R6, R57). -/
def preamble : List Byte := [0x00, 0x00, 0xFF]

/-- `POSTAMBLE` (R6, R57). -/
def postamble : Byte := 0x00

/-- The ACK sentinel (R6, R64). -/
def ack : List Byte := [0x00, 0x00, 0xFF, 0x00, 0xFF, 0x00]

/-- The NACK sentinel (R6, R65). -/
def nack : List Byte := [0x00, 0x00, 0xFF, 0xFF, 0x00, 0x00]

/-- `SETTLE_MS` (R5 OPEN, R103, I1). DESIGN CHOICE, log entry 6: a value of the tick's 32 bits. -/
opaque settleMs : Word

/-- `STATUS_POLL_MS` (R5 OPEN, R107, I2). DESIGN CHOICE, log entry 6: a value of the tick's 32 bits. -/
opaque statusPollMs : Word

/-- `I2C_OVERFLOW` (R5 OPEN, R128, I4). -/
opaque i2cOverflow : I2cOverflow

/-- What a controller read answers while BUSY = 1 at an offset other than STATUS and SEQSTATE
(R46, I5): a draw, numbered by State's counter. Log entry 4. -/
opaque busyRead : Nat → Word

/-- What a controller read answers for an unwritten cell (R35, I6): a draw, numbered by State's
counter and the cell's address. Log entry 4. -/
opaque unwrittenByte : Nat → Nat → Byte

end Config
end Sys2Proof
end

