-- ==== Sys2Proof/Syntax.lean ====
section
/-! DEFINITION. The instructions: one constructor for each row of spec/opcode_table.json. Ten are
command words (R54); they take their operands from registers and buffers, never from the word, so
their constructors have no fields. Three are frames on the wire (R57, R64, R65, R70). -/

namespace Sys2Proof

/-- One row of the opcode table. -/
inductive Instr where
  /-- ENCODE, OP 0x01 (R71). -/
  | encode
  /-- EMIT_ACK, OP 0x02 (R75). -/
  | emitAck
  /-- DECODE, OP 0x03 (R77). -/
  | decode
  /-- DECODE_TRUNC, OP 0x04 (R86). -/
  | decodeTrunc
  /-- CLASSIFY, OP 0x05 (R93). -/
  | classify
  /-- CHECK_ACK, OP 0x06 (R94). -/
  | checkAck
  /-- WAIT_READY, OP 0x10 (R99). -/
  | waitReady
  /-- IRQ_ARM, OP 0x11 (R111). -/
  | irqArm
  /-- XACT_SEND, OP 0x20 (R117). -/
  | xactSend
  /-- XACT_READ, OP 0x21 (R124). -/
  | xactRead
  /-- ACK_FRAME: the six bytes of R64 on the wire. -/
  | ackFrame
  /-- NACK_FRAME: the six bytes of R65 on the wire. -/
  | nackFrame
  /-- INFO_FRAME: `00 00 FF`, then these fields (R57). `body` is TFI and PD together, the bytes LEN
  counts, so a frame whose LEN is 0 has none. -/
  | infoFrame (len lcs : Byte) (body : List Byte) (dcs post : Byte)
  deriving DecidableEq, Repr

/-- The two encodings of the block (30_encoding.md): a command word written to CMD, or the bytes of
a wire frame in wire order. -/
inductive Encoding where
  | cmd (w : Word)
  | wire (bytes : List Byte)
  deriving DecidableEq, Repr

/-- The rows that are commands of R54; the other three are wire frames (R70). -/
def Instr.isCommand : Instr → Bool
  | .encode | .emitAck | .decode | .decodeTrunc | .classify | .checkAck => true
  | .waitReady | .irqArm | .xactSend | .xactRead => true
  | .ackFrame | .nackFrame | .infoFrame _ _ _ _ _ => false

end Sys2Proof
end

