-- ==== Sys2Proof/Machine/State.lean ====
section
/-! DEFINITION. The state of the block (10_state.md), the data of the agents outside it, the reasons
a step can stop, and the state after reset (R37). All of it is plain data. -/

namespace Sys2Proof.Machine

/-- STATUS.SENT (R15, R19): the sentinel class last found. -/
inductive Sent where
  | none
  | ack
  | nack
  | other
  deriving DecidableEq, Repr

/-- STATUS.ERRCLASS (R133). Codes 6 and 7 are never produced and have no constructor. -/
inductive ErrClass where
  | none
  | transport
  | timeout
  | frame
  | protocol
  | argument
  deriving DecidableEq, Repr

/-- The errors of R135, one constructor for each pair (class, sub-code). -/
inductive Err where
  | writeFailed
  | readFailed
  | readyWait
  | transportWrite
  | transportRead
  | badPreamble
  | lcsMismatch
  | badLength
  | incomplete
  | dcsMismatch
  | notAck
  | nack
  | ackShort
  | unexpectedAck
  | badDirection
  | illegalOp
  | payloadTooLong
  | lengthRange
  | badStrategy
  | irqNotArmed
  | sequence
  | responseTooLong
  deriving DecidableEq, Repr

/-- CONFIG.TRANSPORT (R21). -/
inductive Transport where
  | uart
  | i2c
  deriving DecidableEq, Repr

/-- CONFIG.STRATEGY (R21): all four values are stored, the reserved one too. -/
inductive Strategy where
  | gpio
  | irq
  | status
  | reserved
  deriving DecidableEq, Repr

/-- SEQSTATE.XSTATE (R26, R116). -/
inductive XState where
  | idle
  | commandSent
  | awaitingReadyAck
  | ackRead
  | awaitingReadyResponse
  | responseRead
  deriving DecidableEq, Repr

/-- SEQSTATE.WSTATE (R26, R110). -/
inductive WState where
  | idle
  | settle
  | poll
  | block
  | status
  deriving DecidableEq, Repr

/-- The fields of STATUS (R15). ERRCLASS and ERRSUB are one value, `err`: `none` is NONE/0. -/
structure Status where
  busy  : Bool
  done  : Bool
  trunc : Bool
  sent  : Sent
  err   : Option Err
  deriving DecidableEq, Repr

/-- The strategy of a wait that has passed the check of R100. -/
inductive WaitKind where
  | gpio
  | irq
  | status
  deriving DecidableEq, Repr

/-- Where a ready-wait stands. `start` and `last` are ticks read by `Now()`. -/
inductive Wait where
  /-- GPIO, before the first sample (R103). -/
  | settle (start : Word)
  /-- GPIO, after the sample made at `last` (R104). -/
  | poll (start last : Word)
  /-- IRQ, blocked on the event slot (R105). -/
  | block (start : Word)
  /-- STATUS, before a read; `last` is the tick of the read before it (R107). -/
  | statusDue (start : Word) (last : Option Word)
  /-- STATUS, with `StatusRead()` outstanding since the tick `asked` was read (R107). -/
  | statusCall (start asked : Word)
  deriving DecidableEq, Repr

/-- The operation a ready-wait belongs to, with what that operation still needs. -/
inductive WaitFor where
  | waitReady
  | send
  | read (tr : Transport)
  deriving DecidableEq, Repr

/-- Where the running operation stands (R162), with the values its pseudocode latched. The transport
calls outstanding are read off it. -/
inductive Activity where
  /-- No operation runs. -/
  | idle
  /-- In a ready-wait with bound `tmo`. -/
  | waiting (why : WaitFor) (tmo : Word) (w : Wait)
  /-- XACT_SEND, `TxWrite(frame, tmo)` outstanding (R120). -/
  | sendTx (frame : List Byte) (tmo : Word) (kind : WaitKind)
  /-- XACT_SEND, the frame is written and the wait has not begun (XSTATE = CommandSent, R116). -/
  | sendSent (tmo : Word) (kind : WaitKind)
  /-- XACT_SEND, `RxRead(6, tmo)` outstanding (R121). -/
  | sendRx (tmo : Word)
  /-- XACT_READ, `RxRead(6, tmo)` outstanding (R126). -/
  | readHead (tmo : Word) (tr : Transport)
  /-- XACT_READ, `RxRead(len + 1, tmo)` outstanding (R127). -/
  | readRest (len : Byte) (tmo : Word) (tr : Transport)
  /-- XACT_READ, decoded and before the direction check (XSTATE = ResponseRead, R129). -/
  | readDir
  deriving DecidableEq, Repr

/-- The buffers' cells that are written, by their port offset: strictly rising. A cell that is not
listed is unwritten (R35). -/
abbrev Memory := List Host.Cell

/-- One bus cycle of the controller (R9, R41). -/
inductive Access where
  | read (off : BitVec 12)
  | write (off : BitVec 12) (v : Word)
  deriving DecidableEq, Repr

/-- How a bus cycle ended: with a write done, with data, or with BUS_ERROR (R42). -/
inductive BusResp where
  | written
  | data (v : Word)
  | busError
  deriving DecidableEq, Repr

/-- The answer of `TxWrite` (R29). -/
inductive TxResult where
  | ok
  | ioerr
  | tmo
  deriving DecidableEq, Repr

/-- The answer of `RxRead` (R29). -/
inductive RxResult where
  | ok (bytes : List Byte)
  | ioerr
  | tmo
  deriving DecidableEq, Repr

/-- The answer of `StatusRead` (R30). -/
inductive StatusResult where
  | ok (b : Byte)
  | ioerr
  deriving DecidableEq, Repr

/-- A move of the environment (R165). -/
inductive EnvMove where
  /-- `d` ms pass. -/
  | tick (d : Word)
  /-- `irq_n` takes the level `v` (true is high). -/
  | irq (v : Bool)
  /-- The reset input takes the level `v`. -/
  | rst (v : Bool)
  /-- The transport answers the outstanding `TxWrite`. -/
  | tx (r : TxResult)
  /-- The transport answers the outstanding `RxRead`. -/
  | rx (r : RxResult)
  /-- The transport answers the outstanding `RxRead` with the first bytes of the wire. -/
  | rxWire
  /-- The transport answers the outstanding `StatusRead`. -/
  | statusByte (r : StatusResult)
  deriving DecidableEq, Repr

/-- Which agent moves (R13). -/
inductive Turn where
  /-- The controller issues its next bus cycle, or its held write proceeds. -/
  | controller
  /-- The block takes its next step, or holds. -/
  | block
  /-- The peer puts its next frame on the wire. -/
  | peer
  | env (m : EnvMove)
  deriving DecidableEq, Repr

/-- The whole state: the block's own elements (R13), then what the model holds of the controller and
the environment. -/
structure State where
  -- registers (R14 to R26)
  status    : Status
  transport : Transport
  strategy  : Strategy
  timeout   : Word
  txLen     : BitVec 8
  maxLen    : BitVec 8
  rxLen     : BitVec 9
  frameLen  : BitVec 8
  frameInfo : Word
  pLen      : BitVec 8
  armed     : Bool
  pending   : Bool
  xstate    : XState
  wstate    : WState
  -- the edge detector's latch (R38)
  prevIrq   : Bool
  -- TXBUF, FRAMEBUF, RXBUF, PAYBUF (R31 to R35)
  mem       : Memory
  -- the running operation (R162) and a held write (R46)
  act       : Activity
  held      : Option (BitVec 12 × Word)
  -- the environment (R27, R28, R149) and the wire (R39, R47)
  tick      : Word
  pin       : Bool
  rst       : Bool
  wireIn    : List Byte
  wireOut   : List Byte
  peer      : List Byte
  -- the controller: its accesses not yet issued, and how the last one ended
  bus       : List Access
  resp      : Option BusResp
  -- which agent moves at each step, and the counter of draws
  turns     : List Turn
  draws     : Nat
  deriving DecidableEq, Repr

/-- The reasons the machine stops with a fault. -/
inductive Fault where
  /-- The model fault of R35 and I3: an operation read, as one of its inputs, a buffer cell nothing
  has written since reset. Raised by ENCODE, DECODE, DECODE_TRUNC, CLASSIFY, CHECK_ACK, XACT_SEND and
  XACT_READ. Safe: the block's run has no meaning there, and the model stops. -/
  | unwrittenRead
  deriving DecidableEq, Repr

/-- The reasons the model gives no meaning. -/
inductive Refusal where
  /-- The instruction named has no meaning in this model. Raised by `exec` only, for an arm not yet
  written; no arm is. Safe: the machine stops. -/
  | notModelled (mnemonic : String)
  deriving DecidableEq, Repr

/-- What a step or a meaning answers. -/
abbrev Out := Host.Outcome State Fault Refusal

/-- The machine right after reset: every element of the block as R37 and R149 give it. The values of
the fields outside the block are the model's (log entry 3). -/
def State.reset : State where
  status    := { busy := false, done := false, trunc := false, sent := .none, err := none }
  transport := .uart
  strategy  := .gpio
  timeout   := 0
  txLen     := 0
  maxLen    := 0
  rxLen     := 0
  frameLen  := 0
  frameInfo := 0
  pLen      := 0
  armed     := false
  pending   := false
  xstate    := .idle
  wstate    := .idle
  prevIrq   := true
  mem       := []
  act       := .idle
  held      := none
  tick      := 0
  pin       := true
  rst       := false
  wireIn    := []
  wireOut   := []
  peer      := []
  bus       := []
  resp      := none
  turns     := []
  draws     := 0

end Sys2Proof.Machine
end

