-- ==== Sys2Proof/Machine/Flags.lean ====
section
/-! DEFINITION. The checksum helpers (R11), the sentinel comparison (R66), the error codes (R133,
R135) and the timeout predicate (R101): everything an operation's STATUS fields are computed from. -/

namespace Sys2Proof.Machine

/-- `lcs(len) = u8(0x100 - len)` (R11, R59). -/
def lcs (len : Byte) : Byte := 0 - len

/-- `dsum(s)`: the sum of the bytes modulo 256 (R11). -/
def dsum : List Byte → Byte
  | [] => 0
  | b :: bs => b + dsum bs

/-- `dcs_of(tfi, pd) = u8(~dsum([tfi] ++ pd) + 1)` (R11, R62). -/
def dcsOf (tfi : Byte) (pd : List Byte) : Byte := ~~~(dsum (tfi :: pd)) + 1

/-- `lcs_ok(len, l)` (R11, R81). -/
def lcsOk (len l : Byte) : Bool := len + l == 0

/-- The data checksum of R84 over TFI, PD and DCS together: `dsum = 0`. -/
def dsumOk (s : List Byte) : Bool := dsum s == 0

/-- `sentinel_class(s)` (R66): only the first six bytes take part. -/
def sentinelClass (s : List Byte) : Sent :=
  if s.take 6 = Config.ack then .ack
  else if s.take 6 = Config.nack then .nack
  else .other

/-- `expired(t) = (T != 0) and (u32(t - start) >= T)` (R101). -/
def expired (tmo start t : Word) : Bool := tmo != 0 && decide (tmo ≤ t - start)

/-- `u32(now - since) >= ms`, the condition of the settle delay and of the poll intervals (R103, R104,
R107). -/
def elapsed (ms since now : Word) : Bool := decide (ms ≤ now - since)

/-- The class of an error (R135). -/
def Err.cls : Err → ErrClass
  | .writeFailed | .readFailed => .transport
  | .readyWait | .transportWrite | .transportRead => .timeout
  | .badPreamble | .lcsMismatch | .badLength | .incomplete | .dcsMismatch => .frame
  | .notAck | .nack | .ackShort | .unexpectedAck => .frame
  | .badDirection => .protocol
  | .illegalOp | .payloadTooLong | .lengthRange | .badStrategy => .argument
  | .irqNotArmed | .sequence | .responseTooLong => .argument

/-- STATUS.ERRSUB of an error (R135). -/
def Err.sub : Err → BitVec 8
  | .writeFailed => 0x01
  | .readFailed => 0x02
  | .readyWait => 0x01
  | .transportWrite => 0x02
  | .transportRead => 0x03
  | .badPreamble => 0x01
  | .lcsMismatch => 0x02
  | .badLength => 0x03
  | .incomplete => 0x04
  | .dcsMismatch => 0x05
  | .notAck => 0x06
  | .nack => 0x07
  | .ackShort => 0x08
  | .unexpectedAck => 0x09
  | .badDirection => 0x01
  | .illegalOp => 0x01
  | .payloadTooLong => 0x02
  | .lengthRange => 0x03
  | .badStrategy => 0x04
  | .irqNotArmed => 0x05
  | .sequence => 0x06
  | .responseTooLong => 0x07

/-- STATUS.ERRCLASS's code (R133). -/
def ErrClass.code : ErrClass → BitVec 3
  | .none => 0
  | .transport => 1
  | .timeout => 2
  | .frame => 3
  | .protocol => 4
  | .argument => 5

/-- STATUS.SENT's code (R15). -/
def Sent.code : Sent → BitVec 2
  | .none => 0
  | .ack => 1
  | .nack => 2
  | .other => 3

/-- STATUS.ERRCLASS (R20): NONE exactly where there is no error. -/
def Status.errClass (st : Status) : ErrClass :=
  match st.err with
  | none => .none
  | some e => e.cls

/-- STATUS.ERRSUB (R20): 0 exactly where there is no error. -/
def Status.errSub (st : Status) : BitVec 8 :=
  match st.err with
  | none => 0
  | some e => e.sub

end Sys2Proof.Machine
end

