-- ==== Sys2Proof/WellFormed.lean ====
section
/-! DEFINITION. Which instructions are well formed. A command has no fields, so each is. An
information frame is one that R57 describes: each check is one row of its table. -/

namespace Sys2Proof

/-- The checks of R57 on an information frame's fields: LEN is at least 1 and counts TFI and PD, LCS
and DCS make their sums 0 (R59, R62), TFI is one of the two direction bytes (R60), and the postamble
is 00. -/
def Instr.wellFormed : Instr → Bool
  | .infoFrame len lcs body dcs post =>
    len != 0 && body.length == len.toNat
      && Machine.lcsOk len lcs
      && (body.head? == some Config.tfiH2c || body.head? == some Config.tfiC2h)
      && Machine.dsumOk (body ++ [dcs])
      && post == Config.postamble
  | .encode | .emitAck | .decode | .decodeTrunc | .classify | .checkAck => true
  | .waitReady | .irqArm | .xactSend | .xactRead | .ackFrame | .nackFrame => true

end Sys2Proof
end

