-- ==== Sys2Proof/Decode.lean ====
section
/-! DEFINITION. From an encoding to the instruction, total on any word and any bytes, rejecting by
name; then the encoder, from the same tables (R54, R57, R64, R65); then the two in the numbering of
spec/opcode_table.json. -/

namespace Sys2Proof

/-- Why a word or a byte string is no instruction. -/
inductive Reject where
  /-- A command word with a bit of [31:8] set (R56). -/
  | reservedBits
  /-- A command word whose OP is unassigned (R56). -/
  | illegalOp
  /-- Bytes that are no sentinel and do not begin `00 00 FF` (R67). -/
  | badPreamble
  /-- Fewer bytes than the frame's header or its LEN needs (R67). -/
  | incomplete
  /-- Bytes left over after one frame. -/
  | trailing
  deriving DecidableEq, Repr

/-- The operation of an OP code (R54, R55). -/
def decodeOp (op : Byte) : Option Instr :=
  if op = 0x01 then some .encode
  else if op = 0x02 then some .emitAck
  else if op = 0x03 then some .decode
  else if op = 0x04 then some .decodeTrunc
  else if op = 0x05 then some .classify
  else if op = 0x06 then some .checkAck
  else if op = 0x10 then some .waitReady
  else if op = 0x11 then some .irqArm
  else if op = 0x20 then some .xactSend
  else if op = 0x21 then some .xactRead
  else none

/-- The dispatch of R55: the reserved bits first, then OP. -/
def decodeCmd (w : Word) : Except Reject Instr :=
  if w.extractLsb' 8 24 = 0 then
    match decodeOp (w.extractLsb' 0 8) with
    | some i => .ok i
    | none => .error .illegalOp
  else .error .reservedBits

/-- One frame off the front of a byte string, and the bytes after it. The sentinels are compared
before anything else (R65, R66); what begins `00 00 FF` is an information frame of the length its LEN
byte gives (R57, R68). Its checksums are not judged here: that is DECODE's work (R77). -/
def decodeWire (s : List Byte) : Except Reject (Instr × List Byte) :=
  if s.take 6 = Config.ack then .ok (.ackFrame, s.drop 6)
  else if s.take 6 = Config.nack then .ok (.nackFrame, s.drop 6)
  else match s with
    | p :: c0 :: c1 :: len :: lcs :: rest =>
      if [p, c0, c1] = Config.preamble then
        match rest.drop len.toNat with
        | dcs :: post :: tail => .ok (.infoFrame len lcs (rest.take len.toNat) dcs post, tail)
        | _ => .error .incomplete
      else .error .badPreamble
    | _ => .error .incomplete

/-- The instruction an encoding is. -/
def decode : Encoding → Except Reject Instr
  | .cmd w => decodeCmd w
  | .wire bytes =>
    match decodeWire bytes with
    | .ok (i, []) => .ok i
    | .ok (_, _ :: _) => .error .trailing
    | .error e => .error e

/-- The bytes of an information frame in wire order (R47, R57). -/
def infoFrameBytes (len lcs : Byte) (body : List Byte) (dcs post : Byte) : List Byte :=
  Config.preamble ++ len :: lcs :: (body ++ [dcs, post])

/-- The encoding of an instruction: a command word with RSVD = 0 (R54, R70), or a frame's bytes. -/
def encode : Instr → Encoding
  | .encode => .cmd 0x01
  | .emitAck => .cmd 0x02
  | .decode => .cmd 0x03
  | .decodeTrunc => .cmd 0x04
  | .classify => .cmd 0x05
  | .checkAck => .cmd 0x06
  | .waitReady => .cmd 0x10
  | .irqArm => .cmd 0x11
  | .xactSend => .cmd 0x20
  | .xactRead => .cmd 0x21
  | .ackFrame => .wire Config.ack
  | .nackFrame => .wire Config.nack
  | .infoFrame len lcs body dcs post => .wire (infoFrameBytes len lcs body dcs post)

/-- The `n` bytes of a number, the most significant first: the opcode table writes a wire row as one
number with its first wire byte in the most significant position. -/
def bytesMsbFirst : Nat → Nat → List Byte
  | 0, _ => []
  | n + 1, w => BitVec.ofNat 8 (w >>> (8 * n)) :: bytesMsbFirst n w

/-- A table word as the hardware has it. A row of 32 bits or fewer is a command word, but for the row
of 24 bits: that one (INFO_FRAME) and the rows wider than 32 bits (the sentinels) are wire patterns.
The 24 bits are a frame's preamble and start code; with zeros after them its LEN is 0, so the frame is
LEN, LCS, DCS and POSTAMBLE more. -/
def tableEncoding (nbits w : Nat) : Encoding :=
  if nbits = 24 then .wire (bytesMsbFirst 3 w ++ [0, 0, 0, 0])
  else if 32 < nbits then .wire (bytesMsbFirst (nbits / 8) w)
  else .cmd (BitVec.ofNat 32 w)

/-- What this decoder reads from a word of spec/opcode_table.json. -/
def decodeTableWord (nbits w : Nat) : Option Instr :=
  match decode (tableEncoding nbits w) with
  | .ok i => some i
  | .error _ => none

end Sys2Proof
end

