-- ==== Sys2Proof/Machine/Operands.lean ====
section
/-! DEFINITION. The register port's map and its words (R40 to R44): which element an offset names,
how a register's fields stand in its word, how buffer bytes are packed, and the operands an operation
takes from the configuration (R100). -/

namespace Sys2Proof.Machine

/-- The buffers' port offsets (R40). -/
def txBase : Nat := 0x100
def frameBase : Nat := 0x200
def rxBase : Nat := 0x300
def payBase : Nat := 0x500

/-- The offsets that are cells of a buffer: 64, 72, 262 and 254 of them (R31 to R34). The padding
bytes are none. -/
def isCell (a : Nat) : Bool :=
  (0x100 ≤ a && a < 0x140) || (0x200 ≤ a && a < 0x248)
    || (0x300 ≤ a && a < 0x406) || (0x500 ≤ a && a < 0x5FE)

/-- The elements of the register port (R40). A buffer word is named by its offset. -/
inductive PortReg where
  | cmd
  | status
  | config
  | timeout
  | txLen
  | maxLen
  | rxLen
  | frameLen
  | frameInfo
  | pLen
  | irqStat
  | seqState
  /-- A word of TXBUF or RXBUF: read and write. -/
  | rwBuf (off : Nat)
  /-- A word of FRAMEBUF or PAYBUF: read only. -/
  | roBuf (off : Nat)
  deriving DecidableEq, Repr

/-- The map of R40; `none` for an offset that is misaligned or unmapped (R42). -/
def portReg (off : BitVec 12) : Option PortReg :=
  let n := off.toNat
  if n % 4 ≠ 0 then none
  else if n = 0x000 then some .cmd
  else if n = 0x004 then some .status
  else if n = 0x008 then some .config
  else if n = 0x00C then some .timeout
  else if n = 0x010 then some .txLen
  else if n = 0x014 then some .maxLen
  else if n = 0x018 then some .rxLen
  else if n = 0x01C then some .frameLen
  else if n = 0x020 then some .frameInfo
  else if n = 0x024 then some .pLen
  else if n = 0x028 then some .irqStat
  else if n = 0x02C then some .seqState
  else if 0x100 ≤ n ∧ n < 0x140 then some (.rwBuf n)
  else if 0x200 ≤ n ∧ n < 0x248 then some (.roBuf n)
  else if 0x300 ≤ n ∧ n < 0x408 then some (.rwBuf n)
  else if 0x500 ≤ n ∧ n < 0x600 then some (.roBuf n)
  else none

/-- One bit as a field. -/
def bit (b : Bool) : BitVec 1 := BitVec.ofBool b

/-- The STATUS word (R15). -/
def statusWord (st : Status) : Word :=
  0#8 ++ st.errSub ++ 0#5 ++ st.errClass.code ++ 0#3 ++ st.sent.code
    ++ bit st.trunc ++ bit st.done ++ bit st.busy

/-- CONFIG.TRANSPORT's code (R21). -/
def Transport.code : Transport → BitVec 1
  | .uart => 0
  | .i2c => 1

/-- CONFIG.STRATEGY's code (R21). -/
def Strategy.code : Strategy → BitVec 2
  | .gpio => 0
  | .irq => 1
  | .status => 2
  | .reserved => 3

/-- CONFIG.TRANSPORT from bit 0 (R21). -/
def transportOf (v : Word) : Transport := if v.getLsbD 0 then .i2c else .uart

/-- CONFIG.STRATEGY from bits [2:1] (R21). -/
def strategyOf (v : Word) : Strategy :=
  if v.getLsbD 2 then (if v.getLsbD 1 then .reserved else .status)
  else (if v.getLsbD 1 then .irq else .gpio)

/-- The CONFIG word (R21). -/
def configWord (tr : Transport) (st : Strategy) : Word := 0#29 ++ st.code ++ tr.code

/-- The IRQSTAT word (R25). -/
def irqStatWord (armed pending : Bool) : Word := 0#30 ++ bit pending ++ bit armed

/-- SEQSTATE.XSTATE's code (R26). -/
def XState.code : XState → BitVec 3
  | .idle => 0
  | .commandSent => 1
  | .awaitingReadyAck => 2
  | .ackRead => 3
  | .awaitingReadyResponse => 4
  | .responseRead => 5

/-- SEQSTATE.WSTATE's code (R26). -/
def WState.code : WState → BitVec 3
  | .idle => 0
  | .settle => 1
  | .poll => 2
  | .block => 3
  | .status => 4

/-- The SEQSTATE word (R26). -/
def seqStateWord (x : XState) (w : WState) : Word := 0#25 ++ w.code ++ 0#1 ++ x.code

/-- FRAMEINFO (R24): LEN, LCS, DIR and DCS from the low byte up. -/
def frameInfoWord (len lcs dir dcs : Byte) : Word := dcs ++ dir ++ lcs ++ len

/-- FRAMEINFO.DIR, bits [23:16] (R24, R129). -/
def frameInfoDir (v : Word) : Byte := v.extractLsb' 16 8

/-- Four buffer bytes as a port word: byte j in bits [8j+7:8j] (R43). -/
def packWord (b0 b1 b2 b3 : Byte) : Word := b3 ++ b2 ++ b1 ++ b0

/-- The four buffer bytes of a port word (R43). -/
def unpackWord (v : Word) : List Byte :=
  [v.extractLsb' 0 8, v.extractLsb' 8 8, v.extractLsb' 16 8, v.extractLsb' 24 8]

/-- `check_wait_config(st, tr)` (R100), answering the strategy where it passes. -/
def checkWaitConfig (st : Strategy) (tr : Transport) (armed : Bool) : Except Err WaitKind :=
  match st, tr with
  | .reserved, _ => .error .badStrategy
  | .status, .uart => .error .badStrategy
  | .status, .i2c => .ok .status
  | .irq, _ => if armed then .ok .irq else .error .irqNotArmed
  | .gpio, _ => .ok .gpio

/-- The bytes of the frame ENCODE builds for a payload (R57, R71). -/
def hostFrame (pd : List Byte) : List Byte :=
  let len : Byte := BitVec.ofNat 8 (pd.length + 1)
  Config.preamble
    ++ len :: lcs len :: Config.tfiH2c :: (pd ++ [dcsOf Config.tfiH2c pd, Config.postamble])

end Sys2Proof.Machine
end

