-- ==== Sys2Proof/Machine/Ops.lean ====
section
/-! DEFINITION. The operations the meanings share: the buffers' cells (R35), accepting a command and
completing an operation, with or without an error (R46, R134, R137), the beginning and the two ends of
a ready-wait (R101 to R110), the event slot's edge capture (R112), and the block's reset (R149, R150).
-/

namespace Sys2Proof.Machine

/-! ### Buffer cells -/

/-- The cell at an offset, if it is written. -/
def Memory.read? : Memory → Nat → Option Byte
  | [], _ => none
  | (k, v) :: m, a => if k = a then some v else Memory.read? m a

/-- Write one cell, keeping the offsets strictly rising. -/
def Memory.write : Memory → Nat → Byte → Memory
  | [], a, b => [(a, b)]
  | (k, v) :: m, a, b =>
    if a < k then (a, b) :: (k, v) :: m
    else if a = k then (a, b) :: m
    else (k, v) :: Memory.write m a b

/-- Write bytes at `a`, `a + 1` and so on. -/
def Memory.writeBytes : Memory → Nat → List Byte → Memory
  | m, _, [] => m
  | m, a, b :: bs => Memory.writeBytes (m.write a b) (a + 1) bs

/-- The `n` bytes from `a` on, where each of them is written. -/
def Memory.readBytes? (m : Memory) : Nat → Nat → Option (List Byte)
  | _, 0 => some []
  | a, n + 1 =>
    match m.read? a, m.readBytes? (a + 1) n with
    | some b, some bs => some (b :: bs)
    | _, _ => none

/-- The offsets are strictly rising. -/
def Memory.rising : Memory → Bool
  | [] => true
  | [_] => true
  | (a, _) :: (b, v) :: m => decide (a < b) && Memory.rising ((b, v) :: m)

/-- The canonical form of the buffers' memory: strictly rising, and cells of R31 to R34 only. -/
def Memory.wf (m : Memory) : Bool := m.rising && m.all (fun c => isCell c.1)

/-- An operation's read of `n` bytes as defined inputs: the fault of R35 where one is unwritten. -/
def State.need (s : State) (a n : Nat) (k : List Byte → Out) : Out :=
  match s.mem.readBytes? a n with
  | some bs => k bs
  | none => .fault .unwrittenRead

/-- An operation's read of one byte (R35). -/
def State.needByte (s : State) (a : Nat) (k : Byte → Out) : Out :=
  match s.mem.read? a with
  | some b => k b
  | none => .fault .unwrittenRead

/-- Write bytes to a buffer. -/
def State.store (s : State) (a : Nat) (bs : List Byte) : State :=
  { s with mem := s.mem.writeBytes a bs }

/-! ### STATUS, acceptance and completion -/

/-- Write STATUS.SENT (R19). -/
def State.setSent (c : Sent) (s : State) : State :=
  { s with status := { s.status with sent := c } }

/-- Write STATUS.TRUNC (R18). -/
def State.setTrunc (b : Bool) (s : State) : State :=
  { s with status := { s.status with trunc := b } }

/-- The operations completion tells apart (R137). -/
inductive OpKind where
  | xactSend
  | xactRead
  /-- Any other, an illegal command too. -/
  | other
  deriving DecidableEq, Repr

/-- `accept` (R46): BUSY is set and DONE cleared. -/
def State.accept (s : State) : State :=
  { s with status := { s.status with busy := true, done := false } }

/-- The part of completion every operation shares (R137). -/
def State.close (r : Option Err) (s : State) : State :=
  { s with
    status := { s.status with err := r, busy := false, done := true }
    wstate := .idle
    act := .idle }

/-- `return` (R134): completion with NONE/0. -/
def State.finish (s : State) : State := s.close none

/-- `raise Error(CLASS, SUB)` (R134): completion with an error, and what R137 and R130 add for the two
XACT operations. This is the block's only exception mechanism: nothing is saved and nothing is returned
to (R139, R141). -/
def State.raise (k : OpKind) (e : Err) (s : State) : State :=
  match k with
  | .other => s.close (some e)
  | .xactSend => { s.close (some e) with xstate := .idle }
  | .xactRead =>
    { (s.close (some e)).setTrunc false with xstate := .idle, pLen := 0, frameInfo := 0 }

/-! ### Frames -/

/-- Place the frame of a payload in FRAMEBUF with FRAMELEN and FRAMEINFO (R71). -/
def State.putFrame (pd : List Byte) (s : State) : State :=
  let len : Byte := BitVec.ofNat 8 (pd.length + 1)
  { s.store frameBase (hostFrame pd) with
    frameLen := BitVec.ofNat 8 (pd.length + 8)
    frameInfo := frameInfoWord len (lcs len) Config.tfiH2c (dcsOf Config.tfiH2c pd) }

/-! ### Ready-waits -/

/-- The operation a wait belongs to, as completion sees it. -/
def WaitFor.op : WaitFor → OpKind
  | .waitReady => .other
  | .send => .xactSend
  | .read _ => .xactRead

/-- Begin a wait: `start <- Now()`, and the first lines of R102, R105 and R107. -/
def State.beginWait (why : WaitFor) (tmo : Word) (kind : WaitKind) (s : State) : State :=
  match kind with
  | .gpio => { s with wstate := .settle, act := .waiting why tmo (.settle s.tick) }
  | .irq => { s with wstate := .block, act := .waiting why tmo (.block s.tick) }
  | .status => { s with wstate := .status, act := .waiting why tmo (.statusDue s.tick none) }

/-- A wait ends in ready: WAIT_READY returns (R99), the XACT operations read six bytes (R121, R126). -/
def State.endWait (why : WaitFor) (tmo : Word) (s : State) : State :=
  match why with
  | .waitReady => s.finish
  | .send => { s with wstate := .idle, act := .sendRx tmo }
  | .read tr => { s with wstate := .idle, act := .readHead tmo tr }

/-- A wait expires: `TIMEOUT/READY_WAIT` (R101). -/
def State.expireWait (why : WaitFor) (s : State) : State := s.raise why.op .readyWait

/-! ### The event slot and reset -/

/-- The edge capture of R112, at a change of `irq_n`'s level; nothing where the level stays. -/
def State.irqChange (v : Bool) (s : State) : State :=
  if v = s.pin then s
  else
    { s with
      pin := v
      pending := s.pending || (s.prevIrq && !v && s.armed)
      prevIrq := v }

/-- The block's reset (R149, R150): every element of the block takes its value of R37, the running
operation is abandoned and a held write discarded. The transport, the chip, the tick and the
controller's own plans are not the block's (R151). DESIGN CHOICE, log entry 14: the bytes of a `TxWrite`
still outstanding then, which R150 leaves in whatever state they reached, are not put on `wireOut`, now or
later; and log entry 15: an `RxRead` still outstanding takes no byte from `wireIn`. -/
def State.blockReset (s : State) : State :=
  { State.reset with
    tick := s.tick
    pin := s.pin
    rst := s.rst
    wireIn := s.wireIn
    wireOut := s.wireOut
    peer := s.peer
    bus := s.bus
    resp := s.resp
    turns := s.turns
    draws := s.draws }

/-! ### Transport calls -/

/-- The call the block has outstanding at the environment (R10). -/
inductive Call where
  | txWrite (bytes : List Byte) (t : Word)
  | rxRead (n : Nat) (t : Word)
  | statusRead
  deriving DecidableEq, Repr

/-- The outstanding call, read off the running operation (R107, R120, R121, R126, R127). -/
def Activity.call : Activity → Option Call
  | .idle => none
  | .waiting _ _ (.settle _) => none
  | .waiting _ _ (.poll _ _) => none
  | .waiting _ _ (.block _) => none
  | .waiting _ _ (.statusDue _ _) => none
  | .waiting _ _ (.statusCall _ _) => some .statusRead
  | .sendTx frame tmo _ => some (.txWrite frame tmo)
  | .sendSent _ _ => none
  | .sendRx tmo => some (.rxRead 6 tmo)
  | .readHead tmo _ => some (.rxRead 6 tmo)
  | .readRest len tmo _ => some (.rxRead (len.toNat + 1) tmo)
  | .readDir => none

end Sys2Proof.Machine
end

