-- ==== Sys2Proof/Machine/FrameCodec.lean ====
section
/-! DEFINITION. The frame codec: ENCODE and EMIT_ACK (40_frame_encode.md), DECODE and DECODE_TRUNC
(41_frame_decode.md), CLASSIFY and CHECK_ACK (42_sentinel.md). Each is one atomic step (R162). -/

namespace Sys2Proof.Machine

/-- ENCODE (R71, R72). -/
def execEncode (s : State) : Out :=
  let s := s.accept
  if Config.maxPayload < s.txLen.toNat then
    .next ({ s with frameLen := 0, frameInfo := 0 }.raise .other .payloadTooLong)
  else s.need txBase s.txLen.toNat fun pd => .next (s.putFrame pd).finish

/-- EMIT_ACK (R75). -/
def execEmitAck (s : State) : Out :=
  let s := s.accept.store frameBase Config.ack
  .next { s with frameLen := 6, frameInfo := 0x0000FF00 }.finish

/-- `sentinel_class(RXBUF[0..n-1])` (R66, R78): reads the six cells where `n ≥ 6`, else none. -/
def State.classifyRx (s : State) (n : Nat) (k : Sent → Out) : Out :=
  if 6 ≤ n then s.need rxBase 6 fun b => k (sentinelClass b) else k .other

/-- DECODE from the completeness check on (R83 to R85). The bytes read are s[5] to s[5+L]: TFI, PD and
DCS. -/
def State.decodeFull (s : State) (n : Nat) (len lcs : Byte) (k : State → Option Err → Out) : Out :=
  if n < len.toNat + 6 then k s (some .incomplete)
  else s.need (rxBase + 5) (len.toNat + 1) fun d =>
    if dsumOk d then
      k { s.store payBase ((d.drop 1).take (len.toNat - 1)) with
          pLen := len - 1
          frameInfo := frameInfoWord len lcs (d.headD 0) (d.getLastD 0) } none
    else k s (some .dcsMismatch)

/-- The truncated path of DECODE_TRUNC (R86): s[5] to s[5+M], and no data checksum. -/
def State.decodeCut (s : State) (n : Nat) (len lcs max : Byte) (k : State → Option Err → Out) : Out :=
  if n < max.toNat + 6 then k s (some .incomplete)
  else s.need (rxBase + 5) (max.toNat + 1) fun d =>
    k { (s.store payBase (d.drop 1)).setTrunc true with
        pLen := max
        frameInfo := frameInfoWord len lcs (d.headD 0) 0 } none

/-- What DECODE and DECODE_TRUNC do first (R77): their outputs are zeroed. -/
def State.clearDecode (s : State) : State :=
  { (s.setSent .none).setTrunc false with pLen := 0, frameInfo := 0 }

/-- The header checks on the bytes read so far (R80 to R82), then `k` with LEN and LCS. -/
def State.decodeHeader (s : State) (bad : Err → Out) (k : Byte → Byte → Out) : Out :=
  s.need rxBase 3 fun p =>
    if p ≠ Config.preamble then bad .badPreamble
    else s.needByte (rxBase + 3) fun len => s.needByte (rxBase + 4) fun lcs =>
      if !lcsOk len lcs then bad .lcsMismatch
      else if len = 0 then bad .badLength
      else k len lcs

/-- The body of DECODE (`cut = none`, R77) and of DECODE_TRUNC (`cut = some M`, R86), in the check order
of R90; `k` gets the state reached and the error, if one is raised. XACT_READ runs it too (R124). -/
def State.decodeBody (s : State) (cut : Option Byte) (k : State → Option Err → Out) : Out :=
  let n := s.rxLen.toNat
  let s := s.clearDecode
  if Config.rxBufCap < n then k s (some .lengthRange)
  else s.classifyRx n fun c =>
    let s := s.setSent c
    if c = .ack ∨ c = .nack then k s none
    else if n < 5 then k s (some .incomplete)
    else s.decodeHeader (fun e => k s (some e)) fun len lcs =>
      match cut with
      | none => s.decodeFull n len lcs k
      | some max =>
        if len.toNat - 1 ≤ max.toNat then s.decodeFull n len lcs k
        else s.decodeCut n len lcs max k

/-- A codec operation ends (R134). -/
def State.endCodec (s : State) (r : Option Err) : Out :=
  match r with
  | none => .next s.finish
  | some e => .next (s.raise .other e)

/-- DECODE (R77). -/
def execDecode (s : State) : Out := s.accept.decodeBody none State.endCodec

/-- DECODE_TRUNC (R86). -/
def execDecodeTrunc (s : State) : Out := s.accept.decodeBody (some s.maxLen) State.endCodec

/-- CLASSIFY (R93). -/
def execClassify (s : State) : Out :=
  let s := s.accept
  let n := s.rxLen.toNat
  if Config.rxBufCap < n then .next ((s.setSent .none).raise .other .lengthRange)
  else s.classifyRx n fun c => .next (s.setSent c).finish

/-- CHECK_ACK (R94). -/
def execCheckAck (s : State) : Out :=
  let s := s.accept
  let n := s.rxLen.toNat
  if Config.rxBufCap < n then .next ((s.setSent .none).raise .other .lengthRange)
  else if n < 6 then .next ((s.setSent .other).raise .other .ackShort)
  else s.classifyRx n fun c =>
    let s := s.setSent c
    match c with
    | .ack => .next s.finish
    | .nack => .next (s.raise .other .nack)
    | .other => .next (s.raise .other .notAck)
    | .none => .next (s.raise .other .notAck)

end Sys2Proof.Machine
end

