-- ==== Sys2Proof/Machine/ReadyWaiter.lean ====
section
/-! DEFINITION. The ready-waiter (43_ready_waiter.md): WAIT_READY and IRQ_ARM, and the observations of
the three strategies, which the block makes one a step (R162). -/

namespace Sys2Proof.Machine

/-- WAIT_READY (R99): the configuration check, then the wait begins. -/
def execWaitReady (s : State) : Out :=
  let s := s.accept
  match checkWaitConfig s.strategy s.transport s.armed with
  | .error e => .next (s.raise .other e)
  | .ok kind => .next (s.beginWait .waitReady s.timeout kind)

/-- IRQ_ARM (R111). -/
def execIrqArm (s : State) : Out :=
  .next { s.accept with pending := false, armed := true }.finish

/-- One GPIO observation (R102): the pin first, then expiry (R101). -/
def State.gpioSample (why : WaitFor) (tmo start : Word) (s : State) : State :=
  if s.pin = false then s.endWait why tmo
  else if expired tmo start s.tick then s.expireWait why
  else { s with wstate := .poll, act := .waiting why tmo (.poll start s.tick) }

/-- One IRQ observation (R105, R106): a pending event is consumed in the step that returns ready. Where
neither holds, the block goes on holding. -/
def State.irqObserve (why : WaitFor) (tmo start : Word) (s : State) : State :=
  if s.pending then { s with pending := false }.endWait why tmo
  else if expired tmo start s.tick then s.expireWait why
  else s

/-- The status byte or the failure of a `StatusRead()` made at tick `t` (R107, R108). -/
def State.statusObserve (why : WaitFor) (tmo start t : Word) (r : StatusResult) (s : State) : State :=
  if r = .ok Config.i2cReady then s.endWait why tmo
  else if expired tmo start t then s.expireWait why
  else { s with act := .waiting why tmo (.statusDue start (some t)) }

/-- The block's step inside a wait. A `WaitUntil` whose condition does not hold changes nothing (R10). -/
def State.waitStep (why : WaitFor) (tmo : Word) (w : Wait) (s : State) : State :=
  match w with
  | .settle start => if elapsed Config.settleMs start s.tick then s.gpioSample why tmo start else s
  | .poll start last => if elapsed Config.pollMs last s.tick then s.gpioSample why tmo start else s
  | .block start => s.irqObserve why tmo start
  | .statusDue start none => { s with act := .waiting why tmo (.statusCall start s.tick) }
  | .statusDue start (some last) =>
    if elapsed Config.statusPollMs last s.tick then
      { s with act := .waiting why tmo (.statusCall start s.tick) }
    else s
  | .statusCall _ _ => s

/-- The transport answers `StatusRead()`; nothing where none is outstanding. -/
def State.statusAnswer (r : StatusResult) (s : State) : State :=
  match s.act with
  | .waiting why tmo (.statusCall start t) => s.statusObserve why tmo start t r
  | .waiting _ _ (.settle _) | .waiting _ _ (.poll _ _) | .waiting _ _ (.block _) => s
  | .waiting _ _ (.statusDue _ _) | .idle | .sendTx _ _ _ | .sendSent _ _ | .sendRx _ => s
  | .readHead _ _ | .readRest _ _ _ | .readDir => s

end Sys2Proof.Machine
end

