-- ==== Sys2Proof/Machine/Transaction.lean ====
section
/-! DEFINITION. The transaction sequencer (44_transaction.md): XACT_SEND and XACT_READ up to their first
environment call or wait, and what the transport's answers then do. -/

namespace Sys2Proof.Machine

/-- XACT_SEND (R117) as far as `TxWrite`: the checks of R119 in their order, then the frame. -/
def execXactSend (s : State) : Out :=
  let s := { s.accept.setSent .none with xstate := .idle }
  if Config.maxPayload < s.txLen.toNat then
    .next ({ s with frameLen := 0, frameInfo := 0 }.raise .xactSend .payloadTooLong)
  else
    match checkWaitConfig s.strategy s.transport s.armed with
    | .error e => .next (s.raise .xactSend e)
    | .ok kind =>
      s.need txBase s.txLen.toNat fun pd =>
        .next { s.putFrame pd with act := .sendTx (hostFrame pd) s.timeout kind }

/-- XACT_READ (R124) as far as the ready-wait. -/
def execXactRead (s : State) : Out :=
  let s := s.accept.clearDecode
  if s.xstate ≠ .ackRead then .next (s.raise .xactRead .sequence)
  else
    match checkWaitConfig s.strategy s.transport s.armed with
    | .error e => .next (s.raise .xactRead e)
    | .ok kind =>
      .next ({ s with xstate := .awaitingReadyResponse }.beginWait (.read s.transport) s.timeout kind)

/-- The transport answers `TxWrite` (R120); nothing where none is outstanding. The bytes of a write that
succeeds are then on the wire. -/
def State.txAnswer (r : TxResult) (s : State) : State :=
  match s.act with
  | .sendTx frame tmo kind =>
    match r with
    | .ok =>
      { s with
        xstate := .commandSent
        wireOut := s.wireOut ++ frame
        act := .sendSent tmo kind }
    | .ioerr => s.raise .xactSend .writeFailed
    | .tmo => s.raise .xactSend .transportWrite
  | .idle | .waiting _ _ _ | .sendSent _ _ | .sendRx _ => s
  | .readHead _ _ | .readRest _ _ _ | .readDir => s

/-- The six bytes XACT_SEND reads (R121, R122). -/
def State.takeAck (bytes : List Byte) (s : State) : State :=
  let c := sentinelClass bytes
  let s := { (s.store rxBase bytes).setSent c with rxLen := 6 }
  match c with
  | .ack => { s with xstate := .ackRead }.finish
  | .nack => s.raise .xactSend .nack
  | .other => s.raise .xactSend .notAck
  | .none => s.raise .xactSend .notAck

/-- The six bytes XACT_READ reads first (R126, R127). -/
def State.takeHeader (tmo : Word) (tr : Transport) (bytes : List Byte) (s : State) : State :=
  let c := sentinelClass bytes
  let s := { (s.store rxBase bytes).setSent c with rxLen := 6 }
  let len := bytes.getD 3 0
  if c = .ack then s.raise .xactRead .unexpectedAck
  else if c = .nack then s.raise .xactRead .nack
  else if bytes.take 3 ≠ Config.preamble then s.raise .xactRead .badPreamble
  else if !lcsOk len (bytes.getD 4 0) then s.raise .xactRead .lcsMismatch
  else if len = 0 then s.raise .xactRead .badLength
  else { s with act := .readRest len tmo tr }

/-- XACT_READ's decode ends (R124): an error is raised, a success goes on to the direction check. -/
def State.endDecode (s : State) (r : Option Err) : Out :=
  match r with
  | some e => .next (s.raise .xactRead e)
  | none => .next { s with xstate := .responseRead, act := .readDir }

/-- The rest of the frame (R127), then the decode the transport asks for (R128). -/
def State.takeRest (len : Byte) (tr : Transport) (bytes : List Byte) (s : State) : Out :=
  let s := { s.store (rxBase + 6) bytes with rxLen := BitVec.ofNat 9 (len.toNat + 7) }
  if tr = .uart ∨ Config.i2cOverflow = .truncate then
    s.decodeBody (some s.maxLen) State.endDecode
  else if s.maxLen.toNat < len.toNat - 1 then .next (s.raise .xactRead .responseTooLong)
  else s.decodeBody none State.endDecode

/-- The direction check (R129). -/
def State.checkDir (s : State) : State :=
  if frameInfoDir s.frameInfo ≠ Config.tfiC2h then s.raise .xactRead .badDirection
  else { s with xstate := .idle }.finish

/-- The outstanding `RxRead`: whose it is and how many bytes it asks for (R121, R126, R127). -/
def Activity.rxDemand : Activity → Option (OpKind × Nat)
  | .sendRx _ => some (.xactSend, 6)
  | .readHead _ _ => some (.xactRead, 6)
  | .readRest len _ _ => some (.xactRead, len.toNat + 1)
  | .idle | .waiting _ _ _ | .sendTx _ _ _ | .sendSent _ _ | .readDir => none

/-- The bytes of an `RxRead` that succeeded. -/
def State.rxBytes (bytes : List Byte) (s : State) : Out :=
  match s.act with
  | .sendRx _ => .next (s.takeAck bytes)
  | .readHead tmo tr => .next (s.takeHeader tmo tr bytes)
  | .readRest len _ tr => s.takeRest len tr bytes
  | .idle | .waiting _ _ _ | .sendTx _ _ _ | .sendSent _ _ | .readDir => .next s

/-- The transport answers `RxRead` (R29): nothing where none is outstanding, and `OK(s)` with another
number of bytes than asked for is no move (R165). DESIGN CHOICE, log entry 15: none of these answers takes a
byte from `wireIn`; the spec does not say what a failed read, or one answered with the environment's own
bytes, leaves of the bytes already in the transport (R29, R156, R164). -/
def State.rxAnswer (r : RxResult) (s : State) : Out :=
  match s.act.rxDemand with
  | none => .next s
  | some (k, n) =>
    match r with
    | .ioerr => .next (s.raise k .readFailed)
    | .tmo => .next (s.raise k .transportRead)
    | .ok bytes => if bytes.length = n then s.rxBytes bytes else .next s

/-- The transport hands the outstanding `RxRead` the first bytes of the wire, once there are enough of
them (R47). -/
def State.deliver (s : State) : Out :=
  match s.act.rxDemand with
  | none => .next s
  | some (_, n) =>
    if n ≤ s.wireIn.length then
      { s with wireIn := s.wireIn.drop n }.rxBytes (s.wireIn.take n)
    else .next s

end Sys2Proof.Machine
end

