-- ==== Sys2Proof/Machine/WireFrames.lean ====
section
/-! DEFINITION. The opcode table's three wire-frame rows (R57, R64, R65, R70). A frame is not a command
the block is given but one the peer sends: it reaches the block as bytes of the wire, first byte first
(R39, R47), and what it does there is what the operation that reads it does with it (R66, R121, R126).
Log entry 5. -/

namespace Sys2Proof.Machine

/-- Bytes arrive from the peer: they join the wire, and the transport hands them to the outstanding
`RxRead` if that has enough bytes now. -/
def State.receive (bytes : List Byte) (s : State) : Out :=
  { s with wireIn := s.wireIn ++ bytes }.deliver

/-- ACK_FRAME arrives (R64). -/
def execAckFrame (s : State) : Out := s.receive Config.ack

/-- NACK_FRAME arrives (R65). -/
def execNackFrame (s : State) : Out := s.receive Config.nack

/-- INFO_FRAME arrives (R57). -/
def execInfoFrame (len lcs : Byte) (body : List Byte) (dcs post : Byte) (s : State) : Out :=
  s.receive (infoFrameBytes len lcs body dcs post)

end Sys2Proof.Machine
end

