-- ==== Sys2Proof/Machine/Dispatch.lean ====
section
/-! DEFINITION. One arm for each row of the opcode table (R55, R70). -/

namespace Sys2Proof.Machine

def exec (i : Instr) (s : State) : Host.Outcome State Fault Refusal :=
  match i with
  | .encode => Sys2Proof.Machine.execEncode s
  | .emitAck => Sys2Proof.Machine.execEmitAck s
  | .decode => Sys2Proof.Machine.execDecode s
  | .decodeTrunc => Sys2Proof.Machine.execDecodeTrunc s
  | .classify => Sys2Proof.Machine.execClassify s
  | .checkAck => Sys2Proof.Machine.execCheckAck s
  | .waitReady => Sys2Proof.Machine.execWaitReady s
  | .irqArm => Sys2Proof.Machine.execIrqArm s
  | .xactSend => Sys2Proof.Machine.execXactSend s
  | .xactRead => Sys2Proof.Machine.execXactRead s
  | .ackFrame => Sys2Proof.Machine.execAckFrame s
  | .nackFrame => Sys2Proof.Machine.execNackFrame s
  | .infoFrame len lcs body dcs post => Sys2Proof.Machine.execInfoFrame len lcs body dcs post s

end Sys2Proof.Machine
end

