-- ==== Sys2Proof/Machine/Agents.lean ====
section
/-! DEFINITION. The moves of the agents (R13): the controller's bus cycles on the register port
(20_memory.md), the block's own steps (R162), the peer's frames, and the environment's answers (R165).
-/

namespace Sys2Proof.Machine

/-! ### The controller -/

/-- One byte of a buffer word as the controller reads it: padding is 0 (R43), an unwritten cell a draw
(R35). -/
def State.busByte (s : State) (a : Nat) : Byte :=
  if isCell a then
    match s.mem.read? a with
    | some b => b
    | none => Config.unwrittenByte s.draws a
  else 0

/-- The word a read of a mapped register gives while BUSY = 0 (R43, R44). -/
def State.regWord (s : State) : PortReg → Word
  | .cmd => 0
  | .status => statusWord s.status
  | .config => configWord s.transport s.strategy
  | .timeout => s.timeout
  | .txLen => s.txLen.setWidth 32
  | .maxLen => s.maxLen.setWidth 32
  | .rxLen => s.rxLen.setWidth 32
  | .frameLen => s.frameLen.setWidth 32
  | .frameInfo => s.frameInfo
  | .pLen => s.pLen.setWidth 32
  | .irqStat => irqStatWord s.armed s.pending
  | .seqState => seqStateWord s.xstate s.wstate
  | .rwBuf a | .roBuf a =>
    packWord (s.busByte a) (s.busByte (a + 1)) (s.busByte (a + 2)) (s.busByte (a + 3))

/-- `PortRead(off)` (R42, R45, R46): its answer. While BUSY = 1 only STATUS and SEQSTATE are given, any
other element a draw. DEDUCED, log entry 4: a misaligned or unmapped offset, which is no element, answers
BUS_ERROR then too (R42, I10), although I5 and D25 say 'any offset' and 'other offsets'. -/
def State.portRead (s : State) (off : BitVec 12) : BusResp :=
  match portReg off with
  | none => .busError
  | some r =>
    if s.status.busy = true ∧ r ≠ .status ∧ r ≠ .seqState then .data (Config.busyRead s.draws)
    else .data (s.regWord r)

/-- A read cycle: the answer goes to the controller, and nothing of the block changes (R45). -/
def State.busRead (off : BitVec 12) (s : State) : State :=
  { s with resp := some (s.portRead off), draws := s.draws + 1 }

/-- A write to a register other than CMD (R43, R44): only the field bits are stored, a read-only
register ignores it, and padding bytes are dropped. -/
def State.regWrite (r : PortReg) (v : Word) (s : State) : State :=
  match r with
  | .config => { s with transport := transportOf v, strategy := strategyOf v }
  | .timeout => { s with timeout := v }
  | .txLen => { s with txLen := v.setWidth 8 }
  | .maxLen => { s with maxLen := v.setWidth 8 }
  | .rxLen => { s with rxLen := v.setWidth 9 }
  | .rwBuf a => s.store a (if a = 0x404 then (unpackWord v).take 2 else unpackWord v)
  | .cmd | .status | .frameLen | .frameInfo | .pLen | .irqStat | .seqState | .roBuf _ => s

/-- A command word written to CMD while BUSY = 0 (R46, R55, R56). -/
def State.command (w : Word) (s : State) : Out :=
  match decode (.cmd w) with
  | .ok i => exec i s
  | .error _ => .next (s.accept.raise .other .illegalOp)

/-- A write cycle that takes effect (R42, R45). -/
def State.busWrite (off : BitVec 12) (v : Word) (s : State) : Out :=
  match portReg off with
  | none => .next { s with resp := some .busError }
  | some .cmd => { s with resp := some .written }.command v
  | some r => .next ({ s with resp := some .written }.regWrite r v)

/-- The controller's turn (R46, R49): a held write proceeds once BUSY = 0; otherwise the next access of
the program is issued, a write being held while BUSY = 1. A cycle that has not ended has no answer. -/
def State.controllerMove (s : State) : Out :=
  match s.held with
  | some (off, v) =>
    if s.status.busy then .next s else { s with held := none }.busWrite off v
  | none =>
    match s.bus with
    | [] => .next s
    | .read off :: rest => .next ({ s with bus := rest }.busRead off)
    | .write off v :: rest =>
      if s.status.busy then .next { s with bus := rest, held := some (off, v), resp := none }
      else { s with bus := rest }.busWrite off v

/-! ### The block -/

/-- The block's next step (R162). While a call is outstanding, or no operation runs, it has none. -/
def State.blockMove (s : State) : Out :=
  match s.act with
  | .waiting why tmo w => .next (s.waitStep why tmo w)
  | .sendSent tmo kind => .next ({ s with xstate := .awaitingReadyAck }.beginWait .send tmo kind)
  | .readDir => .next s.checkDir
  | .idle | .sendTx _ _ _ | .sendRx _ | .readHead _ _ | .readRest _ _ _ => .next s

/-! ### The peer and the environment -/

/-- The peer's turn: its next frame goes on the wire and is run as the row it is. Bytes that are no
frame go on the wire too, the first of them where they do not begin a frame, all of them where the
frame they begin is not whole. -/
def State.peerMove (s : State) : Out :=
  match decodeWire s.peer with
  | .ok (i, rest) => exec i { s with peer := rest }
  | .error .badPreamble => { s with peer := s.peer.drop 1 }.receive (s.peer.take 1)
  | .error _ => { s with peer := [] }.receive s.peer

/-- The environment's moves (R165). -/
def State.envMove (m : EnvMove) (s : State) : Out :=
  match m with
  | .tick d => .next { s with tick := s.tick + d }
  | .irq v => .next (s.irqChange v)
  | .rst v => .next (if v = s.rst then s else { s with rst := v }.blockReset)
  | .tx r => .next (s.txAnswer r)
  | .rx r => s.rxAnswer r
  | .rxWire => s.deliver
  | .statusByte r => .next (s.statusAnswer r)

/-! ### Turns -/

/-- One agent's move with `rst` deasserted. -/
def State.move (t : Turn) (s : State) : Out :=
  match t with
  | .controller => s.controllerMove
  | .block => s.blockMove
  | .peer => s.peerMove
  | .env m => s.envMove m

/-- The controller's turn while `rst` is asserted: a read answers from the reset values, and a write has
no effect, though its cycle ends (R149, R150; log entry 8). -/
def State.controllerInReset (s : State) : State :=
  match s.bus with
  | [] => s
  | .read off :: rest => { s with bus := rest }.busRead off
  | .write off _ :: rest =>
    { s with
      bus := rest
      resp := some (match portReg off with | none => .busError | some _ => .written) }

/-- One agent's move while `rst` is asserted: every element of the block holds its reset value before
and after it (R149). -/
def State.moveInReset (t : Turn) (s : State) : Out :=
  match t with
  | .controller => .next s.blockReset.controllerInReset
  | .block => .next s.blockReset
  | .peer => s.blockReset.peerMove
  | .env m =>
    match s.blockReset.envMove m with
    | .next t => .next t.blockReset
    | .fault f => .fault f
    | .refused r => .refused r

/-- The agent whose turn is first moves. -/
def State.takeTurn (t : Turn) (rest : List Turn) (s : State) : Out :=
  let s := { s with turns := rest }
  if s.rst then s.moveInReset t else s.move t

/-- An encoding where the next step fetches it: a command word as the controller's next access, a wire
frame as the peer's next bytes; and the turn of the agent that brings it. -/
def State.withEncoding (e : Encoding) (s : State) : State :=
  match e with
  | .cmd w => { s with bus := .write 0 w :: s.bus, turns := .controller :: s.turns }
  | .wire bytes => { s with peer := bytes ++ s.peer, turns := .peer :: s.turns }

end Sys2Proof.Machine
end

