-- ==== Sys2Proof/Machine/Step.lean ====
section
/-! DEFINITION. One step of the machine: the agent whose turn it is moves. Which agents move, and in what
order, is data of the state, so a statement about every state is one about every order (log entry 1). -/

namespace Sys2Proof.Machine

/-- One step. With no turn left nobody moves and nothing changes. -/
def step (s : State) : Host.Outcome State Fault Refusal :=
  match s.turns with
  | [] => .next s
  | t :: rest => s.takeTurn t rest

/-- The state with a table word where the next step fetches its instruction (log entry 2). -/
def State.withFetchWord (s : State) (nbits w : Nat) : State :=
  s.withEncoding (tableEncoding nbits w)

end Sys2Proof.Machine
end

