-- ==== Sys2Proof/Safety.lean ====
section
/-! DEFINITION. The terms claims are made in: the invariant of the machine, what an instruction leaves
unchanged, how an operation or a wait has ended, and what a decode of a whole byte string gives. -/

namespace Sys2Proof.Machine

/-! ### The invariant -/

/-- WSTATE inside a wait (R110). -/
def Wait.wstate : Wait → WState
  | .settle _ => .settle
  | .poll _ _ => .poll
  | .block _ => .block
  | .statusDue _ _ => .status
  | .statusCall _ _ => .status

/-- XSTATE inside a wait (R116): WAIT_READY may run in Idle or AckRead and leaves it. -/
def WaitFor.fits : WaitFor → XState → Bool
  | .waitReady, x => x == .idle || x == .ackRead
  | .send, x => x == .awaitingReadyAck
  | .read _, x => x == .awaitingReadyResponse

/-- SEQSTATE, BUSY and DONE agree with where the running operation stands (R16, R17, R26, R110, R116,
R130): with BUSY = 0, XSTATE is Idle or AckRead and WSTATE is W_IDLE. -/
def State.sequenced (s : State) : Bool :=
  match s.act with
  | .idle => !s.status.busy && (s.xstate == .idle || s.xstate == .ackRead) && s.wstate == .idle
  | .waiting why _ w =>
    s.status.busy && !s.status.done && why.fits s.xstate && s.wstate == w.wstate
  | .sendTx _ _ _ => s.status.busy && !s.status.done && s.xstate == .idle && s.wstate == .idle
  | .sendSent _ _ => s.status.busy && !s.status.done && s.xstate == .commandSent && s.wstate == .idle
  | .sendRx _ => s.status.busy && !s.status.done && s.xstate == .awaitingReadyAck && s.wstate == .idle
  | .readHead _ _ =>
    s.status.busy && !s.status.done && s.xstate == .awaitingReadyResponse && s.wstate == .idle
  | .readRest _ _ _ =>
    s.status.busy && !s.status.done && s.xstate == .awaitingReadyResponse && s.wstate == .idle
  | .readDir => s.status.busy && !s.status.done && s.xstate == .responseRead && s.wstate == .idle

/-- While XACT_READ reads the rest of a frame, RXBUF[0..5] holds the header it checked, which is no
sentinel: SENT is OTHER (R126, R127). -/
def State.headerHeld (s : State) : Bool :=
  match s.act with
  | .readRest len _ _ =>
    match s.mem.readBytes? rxBase 6 with
    | some b =>
      b.take 3 == Config.preamble && b.getD 3 0 == len && lcsOk len (b.getD 4 0) && len != 0
        && s.status.sent == .other
    | none => false
  | .idle | .waiting _ _ _ | .sendTx _ _ _ | .sendSent _ _ | .sendRx _ => true
  | .readHead _ _ | .readDir => true

/-- The event slot is full only while it is armed (R111). -/
def State.slotOk (s : State) : Bool := !s.pending || s.armed

/-- The invariant: the buffers' memory in its canonical form, the sequencer's registers in agreement,
the header held, the slot as R111 says. -/
def State.inv (s : State) : Bool := s.mem.wf && s.sequenced && s.headerHeld && s.slotOk

/-! ### What is left unchanged -/

/-- Everything outside the block, and a held write. -/
def SameAgents (s t : State) : Prop :=
  t.tick = s.tick ∧ t.pin = s.pin ∧ t.rst = s.rst ∧ t.wireIn = s.wireIn ∧ t.wireOut = s.wireOut
    ∧ t.peer = s.peer ∧ t.bus = s.bus ∧ t.resp = s.resp ∧ t.turns = s.turns ∧ t.draws = s.draws
    ∧ t.held = s.held

/-- The registers only the controller writes: CONFIG, TIMEOUT, TXLEN, MAXLEN. -/
def SameArgs (s t : State) : Prop :=
  t.transport = s.transport ∧ t.strategy = s.strategy ∧ t.timeout = s.timeout ∧ t.txLen = s.txLen
    ∧ t.maxLen = s.maxLen

/-- IRQSTAT and the edge detector's latch. -/
def SameIrq (s t : State) : Prop :=
  t.armed = s.armed ∧ t.pending = s.pending ∧ t.prevIrq = s.prevIrq

/-- FRAMELEN, FRAMEINFO and PLEN. -/
def SameResults (s t : State) : Prop :=
  t.frameLen = s.frameLen ∧ t.frameInfo = s.frameInfo ∧ t.pLen = s.pLen

/-- Every buffer cell reads as before, an unwritten one as unwritten. -/
def SameCells (s t : State) : Prop := ∀ a, t.mem.read? a = s.mem.read? a

/-- Every buffer cell outside the `n` from `lo` on reads as before. -/
def SameCellsBut (lo n : Nat) (s t : State) : Prop :=
  ∀ a, ¬(lo ≤ a ∧ a < lo + n) → t.mem.read? a = s.mem.read? a

/-! ### How things end -/

/-- An operation has completed with this result (R137): BUSY = 0, DONE = 1, WSTATE = W_IDLE, and nothing
runs. -/
def Completed (t : State) (r : Option Err) : Prop :=
  t.status.busy = false ∧ t.status.done = true ∧ t.status.err = r ∧ t.wstate = .idle ∧ t.act = .idle

/-- A wait has ended in ready: WAIT_READY has returned, or the XACT operation goes on with its six-byte
read (R99, R121, R126). -/
def WaitReady (why : WaitFor) (tmo : Word) (t : State) : Prop :=
  t.wstate = .idle ∧
    match why with
    | .waitReady => Completed t none
    | .send => t.act = .sendRx tmo
    | .read tr => t.act = .readHead tmo tr

/-- A wait has expired: the operation it belongs to has completed with `TIMEOUT/READY_WAIT` (R101). -/
def WaitExpired (t : State) : Prop := Completed t (some .readyWait)

/-- What a wait leaves as it is where it goes on or ends in ready: RXLEN, FRAMELEN, FRAMEINFO, PLEN, SENT,
TRUNC and XSTATE (R99, R116). An XACT operation's STATUS is whole as before, since it still runs. -/
def WaitKeeps (why : WaitFor) (s t : State) : Prop :=
  t.rxLen = s.rxLen ∧ SameResults s t ∧ t.status.sent = s.status.sent
    ∧ t.status.trunc = s.status.trunc ∧ t.xstate = s.xstate
    ∧ (why ≠ .waitReady → t.status = s.status)

/-- What the expiry of a wait leaves, by the operation it ends. RXLEN, FRAMELEN and SENT are as before. Of
WAIT_READY so are XSTATE, FRAMEINFO, PLEN and TRUNC (R99, R116). XACT_SEND and XACT_READ go to Idle; of
XACT_SEND FRAMEINFO stays as built, PLEN and TRUNC as they were, and XACT_READ leaves them 0 (R130). That
XACT_SEND and WAIT_READY zero nothing is R99, R117 and R130 against R24 (log entry 11). -/
def WaitErrorLeaves (why : WaitFor) (s t : State) : Prop :=
  t.rxLen = s.rxLen ∧ t.frameLen = s.frameLen ∧ t.status.sent = s.status.sent ∧
    match why with
    | .waitReady => t.xstate = s.xstate ∧ SameResults s t ∧ t.status.trunc = s.status.trunc
    | .send => t.xstate = .idle ∧ SameResults s t ∧ t.status.trunc = s.status.trunc
    | .read _ => t.xstate = .idle ∧ t.pLen = 0 ∧ t.frameInfo = 0 ∧ t.status.trunc = false

/-- XACT_READ has ended in the error `e` with SENT = `c` (R130): XSTATE is Idle, and PLEN, FRAMEINFO and
TRUNC are 0. -/
def XactReadFailed (e : Err) (c : Sent) (t : State) : Prop :=
  Completed t (some e) ∧ t.xstate = .idle ∧ t.status.sent = c ∧ t.status.trunc = false
    ∧ t.pLen = 0 ∧ t.frameInfo = 0

/-- The turn can bring the outstanding `RxRead` its bytes: the transport's answer OK, the move that takes
bytes from the wire, or an arrival (R29, R39; log entry 5). -/
def BringsBytes (s : State) : Prop :=
  ∃ x ts, s.turns = x :: ts
    ∧ (x = .peer ∨ x = .env .rxWire ∨ ∃ b, x = .env (.rx (.ok b)))

/-- A wait for `why` with bound `tmo` has begun at the tick `start`, under the strategy `kind`: WSTATE is
that strategy's, and no observation has been made yet (R102, R105, R107, R110). -/
def WaitBegun (why : WaitFor) (tmo : Word) (kind : WaitKind) (start : Word) (t : State) : Prop :=
  match kind with
  | .gpio => t.wstate = .settle ∧ t.act = .waiting why tmo (.settle start)
  | .irq => t.wstate = .block ∧ t.act = .waiting why tmo (.block start)
  | .status => t.wstate = .status ∧ t.act = .waiting why tmo (.statusDue start none)

/-- The controller's turn brings a write of `v` to `off` and it proceeds: as its next access, or as the
write held before (R46). -/
def WriteAt (s : State) (off : BitVec 12) (v : Word) : Prop :=
  (∃ ts, s.turns = .controller :: ts) ∧ s.status.busy = false
    ∧ (s.held = some (off, v) ∨ s.held = none ∧ ∃ as, s.bus = .write off v :: as)

/-- The controller's turn brings the word `w` to CMD and it is accepted (R46). -/
def CommandAt (s : State) (w : Word) : Prop := WriteAt s 0x000 w

/-! ### What a decode gives -/

/-- The outputs of DECODE and DECODE_TRUNC (R77, R85, R86). -/
structure Decoded where
  sent      : Sent
  err       : Option Err
  trunc     : Bool
  pLen      : Byte
  frameInfo : Word
  payload   : List Byte
  deriving DecidableEq, Repr

/-- A decode that ends with no frame: a sentinel (`err = none`) or an error. -/
def Decoded.empty (c : Sent) (err : Option Err) : Decoded where
  sent := c
  err := err
  trunc := false
  pLen := 0
  frameInfo := 0
  payload := []

/-- The decode of a whole byte string, in the order of R90 from its point (2) on. `cut` is MAXLEN for
DECODE_TRUNC, and `none` for DECODE. -/
def decoded (cut : Option Byte) (b : List Byte) : Decoded :=
  let c := sentinelClass b
  let len := b.getD 3 0
  let lcs := b.getD 4 0
  if c = .ack ∨ c = .nack then .empty c none
  else if b.length < 5 then .empty c (some .incomplete)
  else if b.take 3 ≠ Config.preamble then .empty c (some .badPreamble)
  else if lcsOk len lcs = false then .empty c (some .lcsMismatch)
  else if len = 0 then .empty c (some .badLength)
  else
    let full :=
      if b.length < len.toNat + 6 then .empty c (some .incomplete)
      else if dsumOk ((b.drop 5).take (len.toNat + 1)) = false then .empty c (some .dcsMismatch)
      else
        { sent := c, err := none, trunc := false, pLen := len - 1
          frameInfo := frameInfoWord len lcs (b.getD 5 0) (b.getD (5 + len.toNat) 0)
          payload := (b.drop 6).take (len.toNat - 1) }
    match cut with
    | none => full
    | some m =>
      if len.toNat - 1 ≤ m.toNat then full
      else if b.length < m.toNat + 6 then .empty c (some .incomplete)
      else
        { sent := c, err := none, trunc := true, pLen := m
          frameInfo := frameInfoWord len lcs (b.getD 5 0) 0
          payload := (b.drop 6).take m.toNat }

/-- How many bytes a frame with this LEN has as a decode needs it: through DCS (R83), or where it is cut,
through its last payload byte (R86). -/
def decodeNeeds (cut : Option Byte) (len : Byte) : Nat :=
  match cut with
  | none => len.toNat + 6
  | some m => if len.toNat - 1 ≤ m.toNat then len.toNat + 6 else m.toNat + 6

/-- How many bytes of the received string `b` a decode reads, from byte 0 on (R78 to R80, R83, R86,
R89): none where it is shorter than five bytes or longer than 262; of five bytes the first three, and LEN
and LCS too behind a good preamble; else the six of the sentinel comparison, and where the header is valid
and the string is long enough, all that the frame needs. That bytes compared together are read together
is the model's reading (log entry 7). -/
def decodeReads (cut : Option Byte) (b : List Byte) : Nat :=
  if b.length < 5 ∨ 262 < b.length then 0
  else if b.length = 5 then (if b.take 3 = Config.preamble then 5 else 3)
  else if sentinelClass b = .ack ∨ sentinelClass b = .nack ∨ b.take 3 ≠ Config.preamble
      ∨ lcsOk (b.getD 3 0) (b.getD 4 0) = false ∨ b.getD 3 0 = 0
      ∨ b.length < decodeNeeds cut (b.getD 3 0) then 6
  else decodeNeeds cut (b.getD 3 0)

/-- RXBUF holds the first `k` bytes of `b`; nothing is asked of the cells behind them. -/
def RxHolds (s : State) (b : List Byte) (k : Nat) : Prop :=
  ∀ j, j < k → s.mem.read? (0x300 + j) = b[j]?

/-- The operation has completed with the decode `d`: STATUS, PLEN and FRAMEINFO as it says, its payload
in PAYBUF from byte 0 on, and every other cell as before (R85). -/
def DecodesTo (s t : State) (d : Decoded) : Prop :=
  Completed t d.err ∧ t.status.sent = d.sent ∧ t.status.trunc = d.trunc ∧ t.pLen = d.pLen
    ∧ t.frameInfo = d.frameInfo
    ∧ t.mem.readBytes? payBase d.payload.length = some d.payload
    ∧ SameCellsBut payBase d.payload.length s t

end Sys2Proof.Machine
end

