-- ==== Sys2Proof/Certificates/Slice0/Obligations.lean ====
section
/-! DEFINITION. The statements for the provers. Each docstring names the rules of spec/ it formalises.
A statement about what an instruction does has as its conclusion that `exec` answers a next state, and
what that state holds and leaves unchanged. Where a statement is about a step, the list of turns, the
controller's accesses not yet issued and the peer's bytes are the model's (log entries 1, 2). -/

open Sys2Proof Sys2Proof.Machine

/-! ### Checksums and encodings -/

/-- R59: LCS is 0x100 - LEN modulo 256, makes the sum with LEN 0, and for LEN of 1 to 255 is exactly
256 - LEN. -/
def Obligations.LengthChecksum : Prop :=
  ∀ len : Byte,
    lcs len = BitVec.ofNat 8 (0x100 - len.toNat) ∧ len + lcs len = 0
      ∧ (len ≠ 0 → (lcs len).toNat = 256 - len.toNat ∧ 1 ≤ (lcs len).toNat ∧ (lcs len).toNat ≤ 255)

/-- R62: with checksum the sum of TFI and PD modulo 256, DCS is its complement plus one; TFI, PD and DCS
sum to 0 and no other byte in DCS's place does; a checksum of 0x00 gives DCS 0x00. The last clause is
R11's remark that the two forms of `dcs_of` agree. -/
def Obligations.DataChecksum : Prop :=
  ∀ (tfi : Byte) (pd : List Byte),
    dcsOf tfi pd = ~~~(dsum (tfi :: pd)) + 1
      ∧ (∀ d, dsum (tfi :: pd ++ [d]) = 0 ↔ d = dcsOf tfi pd)
      ∧ (dsum (tfi :: pd) = 0x00 → dcsOf tfi pd = 0x00)
      ∧ dcsOf tfi pd = BitVec.ofNat 8 (0x100 - (dsum (tfi :: pd)).toNat)

/-- R66: the class of a byte string looks at its first six bytes only, and a well-formed information
frame is of the class OTHER. -/
def Obligations.SentinelClasses : Prop :=
  (∀ s : List Byte, (sentinelClass s = .ack ↔ 6 ≤ s.length ∧ s.take 6 = [0x00, 0x00, 0xFF, 0x00, 0xFF, 0x00]))
    ∧ (∀ s : List Byte, (sentinelClass s = .nack ↔ 6 ≤ s.length ∧ s.take 6 = [0x00, 0x00, 0xFF, 0xFF, 0x00, 0x00]))
    ∧ (∀ s : List Byte, sentinelClass s ≠ .none)
    ∧ ∀ len l body dcs post, (Instr.infoFrame len l body dcs post).wellFormed = true →
        sentinelClass (infoFrameBytes len l body dcs post) = .other

/-- 30_encoding.md: decoding the encoding of a well-formed instruction gives it back, an information
frame of any payload among them. -/
def Obligations.DecodeOfEncode : Prop :=
  ∀ i : Instr, i.wellFormed = true → decode (encode i) = .ok i

/-- R54, R56, R70: a command word that decodes is exactly the word of that operation; so every other word
is rejected, and no word is two operations. -/
def Obligations.CommandWordsAreExact : Prop :=
  ∀ (w : Word) (i : Instr), decode (.cmd w) = .ok i → i.isCommand = true ∧ encode i = .cmd w

/-- Words of the table written out (R54, R64, R65, R57), one for each family. -/
def Obligations.TableWordsDecode : Prop :=
  decode (.cmd 0x00000001) = .ok .encode ∧ decode (.cmd 0x00000010) = .ok .waitReady
    ∧ decode (.cmd 0x00000021) = .ok .xactRead
    ∧ decode (.wire [0x00, 0x00, 0xFF, 0x00, 0xFF, 0x00]) = .ok .ackFrame
    ∧ decode (.wire [0x00, 0x00, 0xFF, 0xFF, 0x00, 0x00]) = .ok .nackFrame
    ∧ decode (.wire [0x00, 0x00, 0xFF, 0x02, 0xFE, 0xD4, 0x02, 0x2A, 0x00])
        = .ok (.infoFrame 0x02 0xFE [0xD4, 0x02] 0x2A 0x00)

/-! ### The step -/

/-- R46, R55: with BUSY = 0, no write held and `rst` deasserted, the controller's turn at a CMD write of
an operation's word runs exactly that operation, on the state with the turn and the access consumed and
the bus cycle answered. -/
def Obligations.StepRunsDecodedCommand : Prop :=
  ∀ (s : State) (ts : List Turn) (as : List Access) (w : Word) (i : Instr),
    s.turns = .controller :: ts → s.rst = false → s.held = none → s.status.busy = false →
    s.bus = .write 0x000 w :: as → decode (.cmd w) = .ok i →
    step s = exec i { s with turns := ts, bus := as, resp := some .written }

/-- R39 (2), R47: at the peer's turn its next whole frame is run as the row it is, on the state with the
turn and the frame's bytes consumed. The turn and the peer's queue are the model's (log entries 1, 2). -/
def Obligations.StepRunsDecodedFrame : Prop :=
  ∀ (s : State) (ts : List Turn) (i : Instr) (rest : List Byte),
    s.turns = .peer :: ts → s.rst = false → decodeWire s.peer = .ok (i, rest) →
    step s = exec i { s with turns := ts, peer := rest }

/-- R56: a word that is no operation's completes at once with ARGUMENT/ILLEGAL_OP and changes nothing
else of the block; WSTATE, which is W_IDLE with BUSY = 0 (R130), keeps that value. -/
def Obligations.IllegalCommandRefused : Prop :=
  ∀ (s : State) (ts : List Turn) (as : List Access) (w : Word),
    s.turns = .controller :: ts → s.rst = false → s.held = none → s.status.busy = false →
    s.bus = .write 0x000 w :: as →
    (w.extractLsb' 8 24 ≠ 0 ∨
      (w.extractLsb' 0 8).toNat ∉ [0x01, 0x02, 0x03, 0x04, 0x05, 0x06, 0x10, 0x11, 0x20, 0x21]) →
    ∃ t, step s = .next t ∧ Completed t (some .illegalOp)
      ∧ Err.illegalOp.cls = .argument ∧ Err.illegalOp.sub = 0x01
      ∧ t.status.sent = s.status.sent ∧ t.status.trunc = s.status.trunc
      ∧ t.mem = s.mem ∧ SameArgs s t ∧ SameIrq s t ∧ SameResults s t ∧ t.rxLen = s.rxLen
      ∧ t.xstate = s.xstate ∧ (s.wstate = .idle → t.wstate = s.wstate)

/-! ### The frame encoder -/

/-- R71: ENCODE of a payload of N ≤ 63 written bytes builds `00 00 FF`, LEN, LCS, D4, the payload, DCS
and 00 in FRAMEBUF, with FRAMELEN and FRAMEINFO; everything else is as before. -/
def Obligations.EncodeBuildsFrame : Prop :=
  ∀ (s : State) (pd : List Byte),
    s.txLen.toNat ≤ 63 → s.mem.readBytes? 0x100 s.txLen.toNat = some pd →
    ∃ t, exec .encode s = .next t ∧ Completed t none
      ∧ t.mem.readBytes? 0x200 (s.txLen.toNat + 8) = some
          ([0x00, 0x00, 0xFF, s.txLen + 1, 0 - (s.txLen + 1), 0xD4] ++ pd
            ++ [~~~(dsum (0xD4 :: pd)) + 1, 0x00])
      ∧ SameCellsBut 0x200 (s.txLen.toNat + 8) s t
      ∧ t.frameLen.toNat = s.txLen.toNat + 8
      ∧ t.frameInfo = (~~~(dsum (0xD4 :: pd)) + 1) ++ 0xD4#8 ++ (0 - (s.txLen + 1)) ++ (s.txLen + 1)
      ∧ t.status.sent = s.status.sent ∧ t.status.trunc = s.status.trunc
      ∧ SameArgs s t ∧ SameIrq s t ∧ SameAgents s t ∧ t.rxLen = s.rxLen ∧ t.pLen = s.pLen
      ∧ t.xstate = s.xstate

/-- R71, R72: ENCODE refuses a payload with N + 1 > 64; a refused one produces no frame and no partial frame,
and FRAMELEN and FRAMEINFO are 0. That PLEN is kept is R71 and R137 against R24 (log entry 11). -/
def Obligations.EncodeRefusesLongPayload : Prop :=
  ∀ s : State, 64 < s.txLen.toNat + 1 →
    ∃ t, exec .encode s = .next t ∧ Completed t (some .payloadTooLong)
      ∧ Err.payloadTooLong.cls = .argument
      ∧ t.frameLen = 0 ∧ t.frameInfo = 0 ∧ t.mem = s.mem
      ∧ t.status.sent = s.status.sent ∧ t.status.trunc = s.status.trunc
      ∧ SameArgs s t ∧ SameIrq s t ∧ SameAgents s t ∧ t.rxLen = s.rxLen ∧ t.pLen = s.pLen
      ∧ t.xstate = s.xstate

/-- R73: the frame ENCODE builds satisfies (a) to (d), and DECODE of it succeeds with LEN = N + 1, DIR =
0xD4, PLEN = N and the payload in PAYBUF. -/
def Obligations.EncodedFrameDecodes : Prop :=
  ∀ (s : State) (pd : List Byte),
    s.txLen.toNat ≤ 63 → s.mem.readBytes? 0x100 s.txLen.toNat = some pd →
    ∃ t f, exec .encode s = .next t ∧ t.mem.readBytes? 0x200 (s.txLen.toNat + 8) = some f
      ∧ f.take 3 = [0x00, 0x00, 0xFF] ∧ f.getD (s.txLen.toNat + 7) 0xFF = 0x00
      ∧ f.getD 3 0 + f.getD 4 0 = 0
      ∧ dsum ((f.drop 5).take (s.txLen.toNat + 2)) = 0
      ∧ (f.getD 3 0).toNat = s.txLen.toNat + 1 ∧ sentinelClass f = .other
      ∧ ∀ u : State, u.rxLen.toNat = s.txLen.toNat + 8 →
          u.mem.readBytes? 0x300 (s.txLen.toNat + 8) = some f →
          ∃ v, exec .decode u = .next v ∧ Completed v none
            ∧ (v.frameInfo.extractLsb' 0 8).toNat = s.txLen.toNat + 1
            ∧ v.frameInfo.extractLsb' 16 8 = 0xD4
            ∧ v.pLen = s.txLen ∧ v.mem.readBytes? 0x500 s.txLen.toNat = some pd

/-- R75: EMIT_ACK places the ACK sentinel in FRAMEBUF, with FRAMELEN 6 and FRAMEINFO 0x0000FF00, and
transmits nothing. -/
def Obligations.EmitAckPlacesSentinel : Prop :=
  ∀ s : State,
    ∃ t, exec .emitAck s = .next t ∧ Completed t none
      ∧ t.mem.readBytes? 0x200 6 = some [0x00, 0x00, 0xFF, 0x00, 0xFF, 0x00]
      ∧ SameCellsBut 0x200 6 s t ∧ t.frameLen = 6 ∧ t.frameInfo = 0x0000FF00
      ∧ t.status.sent = s.status.sent ∧ t.status.trunc = s.status.trunc
      ∧ SameArgs s t ∧ SameIrq s t ∧ SameAgents s t ∧ t.rxLen = s.rxLen ∧ t.pLen = s.pLen
      ∧ t.xstate = s.xstate

/-! ### The frame decoder -/

/-- R77, R79 to R85, R86 to R89: DECODE and DECODE_TRUNC (with MAXLEN) of RXLEN ≤ 262 bytes complete with
the decode of that byte string (`decoded`: the same checks on the whole string at once) and change nothing
else. Only the cells the path reads need be written (`decodeReads`): none below five bytes (R79), none
behind a header error, none behind DCS (R89) or the cut. That bytes compared together are read together is
the model's reading (log entry 7). An RXLEN above 262 is refused with ARGUMENT/LENGTH_RANGE and zeroed
outputs, and no RXBUF byte is needed. -/
def Obligations.DecodeGivesDecoded : Prop :=
  ∀ (s : State) (i : Instr) (cut : Option Byte) (b : List Byte) (d : Decoded),
    i = .decode ∧ cut = none ∨ i = .decodeTrunc ∧ cut = some s.maxLen →
    (s.rxLen.toNat ≤ 262 ∧ b.length = s.rxLen.toNat ∧ RxHolds s b (decodeReads cut b)
        ∧ d = decoded cut b
      ∨ 262 < s.rxLen.toNat ∧ d = .empty .none (some .lengthRange)) →
    ∃ t, exec i s = .next t ∧ DecodesTo s t d
      ∧ SameArgs s t ∧ SameIrq s t ∧ SameAgents s t ∧ t.rxLen = s.rxLen ∧ t.frameLen = s.frameLen
      ∧ t.xstate = s.xstate

/-- R90: the order of the checks, for DECODE (`cut = none`) and DECODE_TRUNC (`cut = some MAXLEN`): the
result is the first that applies of (1) LENGTH_RANGE, (2) a sentinel, (3) INCOMPLETE for n < 5, (4)
BAD_PREAMBLE, (5) LCS_MISMATCH, (6) BAD_LENGTH, (7) the truncation decision, (8) INCOMPLETE, (9)
DCS_MISMATCH, which the truncated path never gives. Only the cells the path reads need be written (log
entry 7). -/
def Obligations.DecodeCheckOrder : Prop :=
  ∀ (s : State) (trunc : Bool) (b : List Byte),
    let i := if trunc then Instr.decodeTrunc else Instr.decode
    let n := s.rxLen.toNat
    let len := (b.getD 3 0).toNat
    let m := s.maxLen.toNat
    let truncated := trunc = true ∧ m < len - 1
    (262 < n → ∃ t, exec i s = .next t ∧ Completed t (some .lengthRange))
      ∧ (n ≤ 262 → b.length = n →
        RxHolds s b (decodeReads (if trunc then some s.maxLen else none) b) →
        ∃ t, exec i s = .next t ∧ Completed t
          (if b.take 6 = Config.ack ∨ b.take 6 = Config.nack then none
          else if n < 5 then some .incomplete
          else if b.take 3 ≠ [0x00, 0x00, 0xFF] then some .badPreamble
          else if b.getD 3 0 + b.getD 4 0 ≠ 0 then some .lcsMismatch
          else if len = 0 then some .badLength
          else if (truncated ∧ n < m + 6) ∨ (¬truncated ∧ n < len + 6) then some .incomplete
          else if ¬truncated ∧ dsum ((b.drop 5).take (len + 1)) ≠ 0 then some .dcsMismatch
          else none))

/-- R78: where the first six bytes are a sentinel, DECODE and DECODE_TRUNC succeed with SENT, PLEN = 0
and FRAMEINFO = 0, whatever the cells behind them hold, written or not. -/
def Obligations.SentinelEndsDecode : Prop :=
  ∀ (s : State) (i : Instr) (c : Sent),
    i = .decode ∨ i = .decodeTrunc → 6 ≤ s.rxLen.toNat → s.rxLen.toNat ≤ 262 →
    (c = .ack ∧ s.mem.readBytes? 0x300 6 = some [0x00, 0x00, 0xFF, 0x00, 0xFF, 0x00]
      ∨ c = .nack ∧ s.mem.readBytes? 0x300 6 = some [0x00, 0x00, 0xFF, 0xFF, 0x00, 0x00]) →
    ∃ t, exec i s = .next t ∧ Completed t none ∧ t.status.sent = c ∧ t.status.trunc = false
      ∧ t.pLen = 0 ∧ t.frameInfo = 0 ∧ t.mem = s.mem

/-- R86, R87, R132: on the truncated path (a valid header with LEN - 1 > MAXLEN and MAXLEN + 6 bytes
present) DECODE_TRUNC succeeds with TRUNC = 1, PLEN = MAXLEN and PAYBUF[0..M-1] = RXBUF[6..5+M]; the
cells behind those, the data checksum's among them, need hold nothing. -/
def Obligations.TruncationSkipsDataChecksum : Prop :=
  ∀ (s : State) (len tfi : Byte) (pd : List Byte),
    s.rxLen.toNat ≤ 262 → s.maxLen.toNat + 6 ≤ s.rxLen.toNat → s.maxLen.toNat < len.toNat - 1 →
    s.mem.readBytes? 0x300 (s.maxLen.toNat + 6)
      = some ([0x00, 0x00, 0xFF, len, 0 - len, tfi] ++ pd) →
    ∃ t, exec .decodeTrunc s = .next t ∧ Completed t none ∧ t.status.trunc = true
      ∧ t.status.sent = .other ∧ t.pLen = s.maxLen
      ∧ t.mem.readBytes? 0x500 s.maxLen.toNat = some pd
      ∧ SameCellsBut 0x500 s.maxLen.toNat s t
      ∧ t.frameInfo = 0x00#8 ++ tfi ++ (0 - len) ++ len

/-- R91: DECODE and DECODE_TRUNC are functions of RXLEN, the RXBUF cells below RXLEN and MAXLEN. Two
states that agree on those, and differ in anything else (CONFIG, the environment, the other buffers),
get the same outcome: both stop on an unwritten cell, or both complete with the same STATUS, PLEN,
FRAMEINFO and valid PAYBUF bytes. -/
def Obligations.DecodeReadsOnlyItsInputs : Prop :=
  ∀ (s u : State) (i : Instr),
    i = .decode ∨ i = .decodeTrunc → u.rxLen = s.rxLen → u.maxLen = s.maxLen →
    (∀ a, 0x300 ≤ a → a < 0x300 + s.rxLen.toNat → u.mem.read? a = s.mem.read? a) →
    match exec i s, exec i u with
    | .next t, .next v =>
      t.status = v.status ∧ t.pLen = v.pLen ∧ t.frameInfo = v.frameInfo
        ∧ t.mem.readBytes? 0x500 t.pLen.toNat = v.mem.readBytes? 0x500 t.pLen.toNat
    | .fault f, .fault g => f = g
    | _, _ => False

/-- R35, I3: an operation that needs a cell nothing has written stops with the model fault. ENCODE and
XACT_SEND (past its checks) need the payload; CLASSIFY and CHECK_ACK the six bytes, where RXLEN has six;
DECODE and DECODE_TRUNC every cell their path reads, the header's and those behind it: they stop at the
first of them that is unwritten (log entry 7). -/
def Obligations.UnwrittenInputFaults : Prop :=
  (∀ s : State, s.txLen.toNat ≤ 63 → s.mem.readBytes? 0x100 s.txLen.toNat = none →
      exec .encode s = .fault .unwrittenRead
        ∧ ((∃ k, checkWaitConfig s.strategy s.transport s.armed = .ok k) →
            exec .xactSend s = .fault .unwrittenRead))
    ∧ (∀ s : State, 6 ≤ s.rxLen.toNat → s.rxLen.toNat ≤ 262 → s.mem.readBytes? 0x300 6 = none →
      exec .classify s = .fault .unwrittenRead ∧ exec .checkAck s = .fault .unwrittenRead
        ∧ exec .decode s = .fault .unwrittenRead ∧ exec .decodeTrunc s = .fault .unwrittenRead)
    ∧ ∀ (s : State) (i : Instr) (cut : Option Byte) (b : List Byte) (k : Nat),
      i = .decode ∧ cut = none ∨ i = .decodeTrunc ∧ cut = some s.maxLen →
      b.length = s.rxLen.toNat → RxHolds s b k → k < decodeReads cut b →
      s.mem.read? (0x300 + k) = none → exec i s = .fault .unwrittenRead

/-! ### The sentinels -/

/-- R93: CLASSIFY (OP 0x05) of RXLEN ≤ 262 sets SENT to the class of RXBUF, OTHER for fewer than six
bytes without reading any, and raises no error; above 262 it raises ARGUMENT/LENGTH_RANGE with SENT =
NONE. Every other output and every cell is as before; that PLEN and FRAMEINFO are kept on LENGTH_RANGE is
R93 against R24 (log entry 11). -/
def Obligations.ClassifyReportsClass : Prop :=
  ∀ (s : State) (b : List Byte),
    (6 ≤ s.rxLen.toNat → s.rxLen.toNat ≤ 262 → s.mem.readBytes? 0x300 6 = some b) →
    decode (.cmd 0x00000005) = .ok .classify
      ∧ ∃ t, exec .classify s = .next t
      ∧ Completed t (if 262 < s.rxLen.toNat then some .lengthRange else none)
      ∧ t.status.sent =
          (if 262 < s.rxLen.toNat then .none
          else if s.rxLen.toNat < 6 then .other
          else if b = [0x00, 0x00, 0xFF, 0x00, 0xFF, 0x00] then .ack
          else if b = [0x00, 0x00, 0xFF, 0xFF, 0x00, 0x00] then .nack
          else .other)
      ∧ t.status.trunc = s.status.trunc ∧ t.mem = s.mem ∧ SameArgs s t ∧ SameIrq s t
      ∧ SameAgents s t ∧ SameResults s t ∧ t.rxLen = s.rxLen ∧ t.xstate = s.xstate

/-- R94, R95, R98: CHECK_ACK (OP 0x06) raises LENGTH_RANGE above 262 (SENT = NONE) and ACK_SHORT below
six bytes; else it succeeds for the six bytes of ACK alone, raises NACK for those of NACK and NOT_ACK for
every other six, with SENT to match; bytes from index 6 on need not even be written. Everything else is
as before; that PLEN and FRAMEINFO are kept on its errors is R94 against R24 (log entry 11). -/
def Obligations.CheckAckResults : Prop :=
  ∀ (s : State) (b : List Byte),
    (6 ≤ s.rxLen.toNat → s.rxLen.toNat ≤ 262 → s.mem.readBytes? 0x300 6 = some b) →
    decode (.cmd 0x00000006) = .ok .checkAck
      ∧ ∃ t, exec .checkAck s = .next t
      ∧ (if 262 < s.rxLen.toNat then Completed t (some .lengthRange) ∧ t.status.sent = .none
        else if s.rxLen.toNat < 6 then Completed t (some .ackShort) ∧ t.status.sent = .other
        else if b = [0x00, 0x00, 0xFF, 0x00, 0xFF, 0x00] then Completed t none ∧ t.status.sent = .ack
        else if b = [0x00, 0x00, 0xFF, 0xFF, 0x00, 0x00] then
          Completed t (some .nack) ∧ t.status.sent = .nack
        else Completed t (some .notAck) ∧ t.status.sent = .other)
      ∧ t.status.trunc = s.status.trunc ∧ t.mem = s.mem ∧ SameArgs s t ∧ SameIrq s t
      ∧ SameAgents s t ∧ SameResults s t ∧ t.rxLen = s.rxLen ∧ t.xstate = s.xstate

/-! ### The ready-waiter -/

/-- R100: the configuration check refuses STRATEGY = 3 and STATUS on UART with ARGUMENT/BAD_STRATEGY, and
IRQ while not armed with ARGUMENT/IRQ_NOT_ARMED; WAIT_READY then completes with that error before any wait
begins, and changes nothing else: that FRAMELEN, FRAMEINFO and PLEN are kept is R99 against R24 (log entry
11). Everything else passes. -/
def Obligations.WaitConfigurationChecked : Prop :=
  ∀ s : State,
    if s.strategy = .reserved ∨ s.strategy = .status ∧ s.transport = .uart
        ∨ s.strategy = .irq ∧ s.armed = false then
      checkWaitConfig s.strategy s.transport s.armed
          = .error (if s.strategy = .irq then .irqNotArmed else .badStrategy)
        ∧ ∃ t, exec .waitReady s = .next t
        ∧ Completed t (some (if s.strategy = .irq then .irqNotArmed else .badStrategy))
        ∧ t.status.sent = s.status.sent ∧ t.status.trunc = s.status.trunc ∧ t.mem = s.mem
        ∧ SameArgs s t ∧ SameIrq s t ∧ SameAgents s t ∧ SameResults s t ∧ t.rxLen = s.rxLen
        ∧ t.xstate = s.xstate
    else (∃ kind, checkWaitConfig s.strategy s.transport s.armed = .ok kind)
      ∧ ∃ t w, exec .waitReady s = .next t ∧ t.act = .waiting .waitReady s.timeout w

/-- R99, R110: WAIT_READY with a configuration that passes begins its wait at the present tick: BUSY = 1,
DONE = 0, WSTATE is the strategy's, and nothing else changes. That the wait's tick is that of the
accepting step is the model's reading (log entry 9). -/
def Obligations.WaitReadyBegins : Prop :=
  ∀ s : State,
    s.strategy = .gpio ∨ s.strategy = .irq ∧ s.armed = true
      ∨ s.strategy = .status ∧ s.transport = .i2c →
    ∃ t, exec .waitReady s = .next t ∧ t.status.busy = true ∧ t.status.done = false
      ∧ (s.strategy = .gpio → t.wstate = .settle ∧ t.act = .waiting .waitReady s.timeout (.settle s.tick))
      ∧ (s.strategy = .irq → t.wstate = .block ∧ t.act = .waiting .waitReady s.timeout (.block s.tick))
      ∧ (s.strategy = .status →
          t.wstate = .status ∧ t.act = .waiting .waitReady s.timeout (.statusDue s.tick none))
      ∧ t.status.sent = s.status.sent ∧ t.status.trunc = s.status.trunc
      ∧ t.status.err = s.status.err ∧ t.mem = s.mem
      ∧ SameArgs s t ∧ SameIrq s t ∧ SameAgents s t ∧ SameResults s t ∧ t.rxLen = s.rxLen
      ∧ t.xstate = s.xstate

/-- R99, R102, R105, R107: a whole WAIT_READY whose condition holds at the first observation, under each
strategy: GPIO with the settle delay passed and the pin low, IRQ with the slot full (which is then empty),
STATUS with the byte 0x01. It completes with success; SENT, TRUNC, lengths, FRAMEINFO, XSTATE and the
buffers are as before. The turns are the model's (log entry 1). -/
def Obligations.WaitReadyRunsToReady : Prop :=
  ∀ (s : State) (d : Word) (ts : List Turn) (as : List Access) (n : Nat),
    s.rst = false → s.held = none → s.status.busy = false → s.bus = .write 0x000 0x10 :: as →
    (s.strategy = .gpio ∧ s.pin = false ∧ Config.settleMs ≤ d ∧ n = 3
        ∧ s.turns = [.controller, .env (.tick d), .block] ++ ts
      ∨ s.strategy = .irq ∧ s.armed = true ∧ s.pending = true ∧ n = 2
        ∧ s.turns = [.controller, .block] ++ ts
      ∨ s.strategy = .status ∧ s.transport = .i2c ∧ n = 3
        ∧ s.turns = [.controller, .block, .env (.statusByte (.ok 0x01))] ++ ts) →
    ∃ t, Sys2Proof.core.run n s = .next t ∧ Completed t none ∧ t.mem = s.mem ∧ SameArgs s t
      ∧ SameResults s t ∧ t.rxLen = s.rxLen ∧ t.xstate = s.xstate ∧ t.armed = s.armed
      ∧ t.pending = (if s.strategy = .irq then false else s.pending)
      ∧ t.status.sent = s.status.sent ∧ t.status.trunc = s.status.trunc

/-- R101 to R104: the block's turn in a GPIO wait. Before the settle delay, or before 10 ms since the last
sample, it changes nothing but the turn itself: no sample, no test of expiry. Then it samples: a low pin is
ready, whether or not the bound has passed; a high pin past a nonzero bound is a timeout; else the next
sample is due. IRQSTAT, the buffers and everything outside the block are not changed, and nothing else where
the wait goes on. What readiness and expiry leave is said by the operation that waits (`WaitKeeps`,
`WaitErrorLeaves`: R99, R130; that XACT_SEND's registers stay on expiry is log entry 11). The turns are the
model's (log entry 1). -/
def Obligations.GpioObservation : Prop :=
  ∀ (s : State) (ts : List Turn) (why : WaitFor) (tmo start since ms : Word),
    s.turns = .block :: ts → s.rst = false →
    (s.act = .waiting why tmo (.settle start) ∧ since = start ∧ ms = Config.settleMs
      ∨ s.act = .waiting why tmo (.poll start since) ∧ ms = 10) →
    (s.tick - since < ms → step s = .next { s with turns := ts })
    ∧ (ms ≤ s.tick - since →
      ∃ t, step s = .next t ∧ SameAgents { s with turns := ts } t ∧ t.mem = s.mem ∧ SameArgs s t
        ∧ SameIrq s t
        ∧ (s.pin = false → WaitReady why tmo t ∧ WaitKeeps why s t)
        ∧ (s.pin = true → tmo ≠ 0 → tmo ≤ s.tick - start → WaitExpired t ∧ WaitErrorLeaves why s t)
        ∧ (s.pin = true → (tmo = 0 ∨ s.tick - start < tmo) →
            t = { s with
              turns := ts, wstate := .poll, act := .waiting why tmo (.poll start s.tick) }))

/-- R105, R106: an IRQ observation: a pending event is consumed in the step that returns ready, past the
bound or not; without one, a nonzero bound that has passed is a timeout; else the block holds. The pin
is not read: the answers name PENDING only. The buffers and everything outside the block are not changed.
What readiness and expiry leave is said by the operation that waits (`WaitKeeps`, `WaitErrorLeaves`: R99,
R130; that XACT_SEND's registers stay on expiry is log entry 11). The turns are the model's (log entry
1). -/
def Obligations.IrqObservation : Prop :=
  ∀ (s : State) (ts : List Turn) (why : WaitFor) (tmo start : Word),
    s.turns = .block :: ts → s.rst = false → s.act = .waiting why tmo (.block start) →
    ∃ t, step s = .next t ∧ SameAgents { s with turns := ts } t ∧ t.mem = s.mem ∧ SameArgs s t
      ∧ t.armed = s.armed ∧ t.prevIrq = s.prevIrq ∧ t.pending = false
      ∧ (s.pending = true → WaitReady why tmo t ∧ WaitKeeps why s t)
      ∧ (s.pending = false → tmo ≠ 0 → tmo ≤ s.tick - start →
          WaitExpired t ∧ WaitErrorLeaves why s t)
      ∧ (s.pending = false → (tmo = 0 ∨ s.tick - start < tmo) → t = { s with turns := ts })

/-- R107, R108: the status strategy. The block's turn asks for the status byte at once the first time, and
not before STATUS_POLL_MS have passed since the read before after that; the call is then outstanding, with
that turn's tick. Of the answer of a `StatusRead` made at tick `asked`: only the byte 0x01 is ready;
another byte or IOERR is not ready and no error, and then a nonzero bound that has passed at `asked` is a
timeout; else the next read is due. IRQSTAT, the buffers and everything outside the block are not changed,
and nothing else where the wait goes on. What readiness and expiry leave is said by the operation that waits
(`WaitKeeps`, `WaitErrorLeaves`: R99, R130; that XACT_SEND's registers stay on expiry is log entry 11). The
turns and the step boundaries are the model's (log entries 1, 9). -/
def Obligations.StatusObservation : Prop :=
  (∀ (s : State) (ts : List Turn) (why : WaitFor) (tmo start : Word) (last : Option Word),
    s.turns = .block :: ts → s.rst = false → s.act = .waiting why tmo (.statusDue start last) →
    ((∃ l, last = some l ∧ s.tick - l < Config.statusPollMs) → step s = .next { s with turns := ts })
    ∧ ((last = none ∨ ∃ l, last = some l ∧ Config.statusPollMs ≤ s.tick - l) →
      ∃ t, t = { s with turns := ts, act := .waiting why tmo (.statusCall start s.tick) }
        ∧ step s = .next t ∧ t.act.call = some .statusRead))
  ∧ ∀ (s : State) (ts : List Turn) (why : WaitFor) (tmo start asked : Word) (r : StatusResult),
    s.turns = .env (.statusByte r) :: ts → s.rst = false →
    s.act = .waiting why tmo (.statusCall start asked) →
    ∃ t, step s = .next t ∧ SameAgents { s with turns := ts } t ∧ t.mem = s.mem ∧ SameArgs s t
      ∧ SameIrq s t
      ∧ (r = .ok 0x01 → WaitReady why tmo t ∧ WaitKeeps why s t)
      ∧ (r ≠ .ok 0x01 → tmo ≠ 0 → tmo ≤ asked - start → WaitExpired t ∧ WaitErrorLeaves why s t)
      ∧ (r ≠ .ok 0x01 → (tmo = 0 ∨ asked - start < tmo) →
          t = { s with turns := ts, act := .waiting why tmo (.statusDue start (some asked)) })

/-- R109: a wait has exactly two outcomes besides going on: ready, and TIMEOUT/READY_WAIT. And ready is
never spurious: in any step that ends the wait in ready, the strategy's condition held: the pin low at a
GPIO observation, the slot full under IRQ, the byte 0x01 answered under STATUS. -/
def Obligations.ReadyNeverSpurious : Prop :=
  ∀ (s t : State) (why : WaitFor) (tmo : Word) (w : Wait),
    s.act = .waiting why tmo w → s.inv = true → s.rst = false → step s = .next t → t.rst = false →
    ((∃ w', t.act = .waiting why tmo w') ∨ WaitReady why tmo t ∨ WaitExpired t)
    ∧ (WaitReady why tmo t →
      match w with
      | .settle _ | .poll _ _ => s.pin = false ∧ ∃ ts, s.turns = .block :: ts
      | .block _ => s.pending = true ∧ ∃ ts, s.turns = .block :: ts
      | .statusDue _ _ => False
      | .statusCall _ _ => ∃ ts, s.turns = .env (.statusByte (.ok 0x01)) :: ts)

/-- R101 (a), R115: a wait with TIMEOUT = 0 never times out. Whatever turn is taken (reset apart), it is
still that wait with BUSY = 1, or it has ended in ready. -/
def Obligations.ZeroTimeoutNeverExpires : Prop :=
  ∀ (s t : State) (why : WaitFor) (w : Wait),
    s.act = .waiting why 0 w → s.status.busy = true → s.rst = false → step s = .next t →
    t.rst = false →
    (∃ w', t.act = .waiting why 0 w' ∧ t.status.busy = true) ∨ WaitReady why 0 t

/-- R111: IRQ_ARM empties and arms the slot and changes nothing else. -/
def Obligations.IrqArmClearsAndArms : Prop :=
  ∀ s : State,
    ∃ t, exec .irqArm s = .next t ∧ Completed t none ∧ t.pending = false ∧ t.armed = true
      ∧ t.prevIrq = s.prevIrq ∧ t.status.sent = s.status.sent ∧ t.status.trunc = s.status.trunc
      ∧ t.mem = s.mem ∧ SameArgs s t ∧ SameAgents s t ∧ SameResults s t ∧ t.rxLen = s.rxLen
      ∧ t.xstate = s.xstate

/-- R112, R113: at a change of `irq_n` to v, PENDING is set exactly where the latch was 1, v is 0 and the
slot is armed, and stays as it is otherwise, a full slot staying full; the latch takes v; nothing else
of the block changes, whatever it is doing. The turns are the model's (log entry 1). -/
def Obligations.EdgeCapture : Prop :=
  ∀ (s : State) (ts : List Turn) (v : Bool),
    s.turns = .env (.irq v) :: ts → s.rst = false → v ≠ s.pin →
    step s = .next
      { s with
        turns := ts
        pin := v
        pending := if s.prevIrq = true ∧ v = false ∧ s.armed = true then true else s.pending
        prevIrq := v }

/-- R25, R114: over every step of the machine: ARMED is cleared only by reset and set only by IRQ_ARM;
PENDING is set only by a falling edge while armed, and cleared only by IRQ_ARM, by an IRQ wait that takes
it, or by reset. -/
def Obligations.OnlyTheseChangeIrqstat : Prop :=
  ∀ s t : State, step s = .next t → s.rst = false → t.rst = false →
    (s.armed = true → t.armed = true)
    ∧ (s.armed = false → t.armed = true → CommandAt s 0x11)
    ∧ (s.pending = false → t.pending = true →
        s.armed = true ∧ s.prevIrq = true ∧ ∃ ts, s.turns = .env (.irq false) :: ts)
    ∧ (s.pending = true → t.pending = false →
        CommandAt s 0x11
        ∨ (∃ ts why tmo start, s.turns = .block :: ts ∧ s.act = .waiting why tmo (.block start)
            ∧ WaitReady why tmo t))

/-! ### The transaction sequencer -/

/-- R117, R119, R120: XACT_SEND with N ≤ 63 written payload bytes and a configuration that passes builds
ENCODE's frame and hands the whole of it to one `TxWrite` with bound TIMEOUT; SENT is NONE and XSTATE
Idle. The strategy the later wait will run is CONFIG's at this step, kept with the call; where
the step ends and that the strategy is kept are the model's reading (log entries 9, 13). -/
def Obligations.XactSendTransmits : Prop :=
  ∀ (s : State) (pd : List Byte) (kind : WaitKind),
    s.txLen.toNat ≤ 63 → s.mem.readBytes? 0x100 s.txLen.toNat = some pd →
    checkWaitConfig s.strategy s.transport s.armed = .ok kind →
    ∃ t f, exec .xactSend s = .next t
      ∧ f = [0x00, 0x00, 0xFF, s.txLen + 1, 0 - (s.txLen + 1), 0xD4] ++ pd
            ++ [~~~(dsum (0xD4 :: pd)) + 1, 0x00]
      ∧ t.act.call = some (.txWrite f s.timeout) ∧ t.act = .sendTx f s.timeout kind
      ∧ (kind = .gpio ↔ s.strategy = .gpio) ∧ (kind = .irq ↔ s.strategy = .irq)
      ∧ (kind = .status ↔ s.strategy = .status)
      ∧ t.mem.readBytes? 0x200 (s.txLen.toNat + 8) = some f
      ∧ SameCellsBut 0x200 (s.txLen.toNat + 8) s t
      ∧ t.frameLen.toNat = s.txLen.toNat + 8
      ∧ t.frameInfo = (~~~(dsum (0xD4 :: pd)) + 1) ++ 0xD4#8 ++ (0 - (s.txLen + 1)) ++ (s.txLen + 1)
      ∧ t.status.busy = true ∧ t.status.done = false ∧ t.status.sent = .none ∧ t.xstate = .idle
      ∧ t.status.trunc = s.status.trunc ∧ t.status.err = s.status.err
      ∧ SameArgs s t ∧ SameIrq s t ∧ SameAgents s t ∧ t.rxLen = s.rxLen ∧ t.pLen = s.pLen
      ∧ t.wstate = s.wstate

/-- R119: XACT_SEND raises its argument errors before touching the transport, the payload's length first
and then the wait configuration; XSTATE is Idle after each (R130). That the second leaves FRAMELEN and
FRAMEINFO is read from R117's pseudocode (log entry 11). -/
def Obligations.XactSendChecksInOrder : Prop :=
  ∀ s : State,
    (63 < s.txLen.toNat →
      ∃ t, exec .xactSend s = .next t ∧ Completed t (some .payloadTooLong) ∧ t.xstate = .idle
        ∧ t.status.sent = .none ∧ t.status.trunc = s.status.trunc ∧ t.frameLen = 0 ∧ t.frameInfo = 0
        ∧ t.pLen = s.pLen ∧ t.rxLen = s.rxLen ∧ t.mem = s.mem
        ∧ SameAgents s t ∧ SameArgs s t ∧ SameIrq s t)
    ∧ (s.txLen.toNat ≤ 63 → ∀ e, checkWaitConfig s.strategy s.transport s.armed = .error e →
      ∃ t, exec .xactSend s = .next t ∧ Completed t (some e) ∧ t.xstate = .idle
        ∧ t.status.sent = .none ∧ t.status.trunc = s.status.trunc ∧ SameResults s t
        ∧ t.rxLen = s.rxLen ∧ t.mem = s.mem
        ∧ SameAgents s t ∧ SameArgs s t ∧ SameIrq s t)

/-- R120, R121: the answer of `TxWrite`: OK puts the whole frame on the wire and gives CommandSent, IOERR
raises WRITE_FAILED, TMO raises TRANSPORT_WRITE; an error leaves XSTATE Idle, PLEN kept and FRAMELEN and
FRAMEINFO as built (R130, against R24's sentence: log entry 11). That a failed write puts nothing on the wire is the
model's choice (log entry 14). The block's next turn then begins the configured wait, of each strategy,
with a fresh start tick and the full bound, and XSTATE is AwaitingReadyAck; that CommandSent lasts until
that turn is log entry 9. -/
def Obligations.TxWriteAnswers : Prop :=
  (∀ (s : State) (ts : List Turn) (r : TxResult) (frame : List Byte) (tmo : Word) (kind : WaitKind),
    s.turns = .env (.tx r) :: ts → s.rst = false → s.act = .sendTx frame tmo kind →
    ∃ t, step s = .next t ∧ t.mem = s.mem ∧ SameResults s t ∧ t.rxLen = s.rxLen ∧ SameArgs s t
      ∧ SameIrq s t ∧ t.status.sent = s.status.sent ∧ t.status.trunc = s.status.trunc
      ∧ (r = .ok → t.xstate = .commandSent ∧ t.wireOut = s.wireOut ++ frame ∧ t.status = s.status
          ∧ t.act = .sendSent tmo kind ∧ t.wstate = s.wstate)
      ∧ (r = .ioerr → Completed t (some .writeFailed) ∧ t.xstate = .idle ∧ t.wireOut = s.wireOut)
      ∧ (r = .tmo → Completed t (some .transportWrite) ∧ t.xstate = .idle ∧ t.wireOut = s.wireOut))
  ∧ ∀ (s : State) (ts : List Turn) (tmo : Word) (kind : WaitKind),
    s.turns = .block :: ts → s.rst = false → s.act = .sendSent tmo kind →
    ∃ t, step s = .next t ∧ t.turns = ts ∧ t.xstate = .awaitingReadyAck
      ∧ WaitBegun .send tmo kind s.tick t ∧ t.status = s.status ∧ t.mem = s.mem ∧ t.rxLen = s.rxLen
      ∧ SameArgs s t ∧ SameIrq s t ∧ SameResults s t ∧ t.wireIn = s.wireIn ∧ t.wireOut = s.wireOut

/-- R121, R122: the six bytes XACT_SEND reads land in RXBUF[0..5] with RXLEN = 6; the ACK alone succeeds
with XSTATE = AckRead; a NACK raises FRAME/NACK and anything else FRAME/NOT_ACK, with XSTATE Idle. Nothing
is sent again. That FRAMELEN and FRAMEINFO stay as built and PLEN is kept on the two errors is R117 and
R130 against R24 (log entry 11). -/
def Obligations.AckRequirement : Prop :=
  ∀ (s : State) (ts : List Turn) (b : List Byte) (tmo : Word),
    s.turns = .env (.rx (.ok b)) :: ts → s.rst = false → s.act = .sendRx tmo → b.length = 6 →
    ∃ t, step s = .next t ∧ t.mem.readBytes? 0x300 6 = some b ∧ SameCellsBut 0x300 6 s t
      ∧ t.rxLen = 6 ∧ t.status.trunc = s.status.trunc ∧ SameResults s t ∧ SameArgs s t ∧ SameIrq s t
      ∧ t.wireOut = s.wireOut
      ∧ (if b = [0x00, 0x00, 0xFF, 0x00, 0xFF, 0x00] then
          Completed t none ∧ t.status.sent = .ack ∧ t.xstate = .ackRead
        else if b = [0x00, 0x00, 0xFF, 0xFF, 0x00, 0x00] then
          Completed t (some .nack) ∧ t.status.sent = .nack ∧ t.xstate = .idle
        else Completed t (some .notAck) ∧ t.status.sent = .other ∧ t.xstate = .idle)

/-- R121, R124: a failed `RxRead` of either XACT operation raises READ_FAILED or TRANSPORT_READ, writes
no RXBUF byte and leaves RXLEN and FRAMELEN; XSTATE is Idle, and XACT_READ's PLEN, FRAMEINFO and TRUNC are 0, while
XACT_SEND's FRAMELEN and FRAMEINFO stay as built (R130; log entry 11). -/
def Obligations.FailedReadRaises : Prop :=
  ∀ (s : State) (ts : List Turn) (r : RxResult) (k : OpKind) (n : Nat),
    s.turns = .env (.rx r) :: ts → s.rst = false → s.act.rxDemand = some (k, n) →
    r = .ioerr ∨ r = .tmo →
    ∃ t, step s = .next t
      ∧ Completed t (some (if r = .ioerr then .readFailed else .transportRead))
      ∧ t.xstate = .idle ∧ t.mem = s.mem ∧ t.rxLen = s.rxLen ∧ t.status.sent = s.status.sent
      ∧ t.frameLen = s.frameLen ∧ SameArgs s t ∧ SameIrq s t
      ∧ (k = .xactRead → t.pLen = 0 ∧ t.frameInfo = 0 ∧ t.status.trunc = false)
      ∧ (k = .xactSend → SameResults s t ∧ t.status.trunc = s.status.trunc)

/-- R124, R125: XACT_READ outside AckRead completes at once with ARGUMENT/SEQUENCE and XSTATE Idle; in
AckRead a wait configuration that R100 refuses is raised next, with XSTATE Idle (R130). It neither waits
nor reads, and zeroes SENT, TRUNC, PLEN and FRAMEINFO. -/
def Obligations.XactReadChecksInOrder : Prop :=
  ∀ (s : State) (e : Err),
    (s.xstate ≠ .ackRead ∧ e = .sequence
      ∨ s.xstate = .ackRead ∧ checkWaitConfig s.strategy s.transport s.armed = .error e) →
    ∃ t, exec .xactRead s = .next t ∧ Completed t (some e) ∧ e.cls = .argument
      ∧ t.xstate = .idle ∧ t.act.call = none ∧ t.status.sent = .none ∧ t.status.trunc = false
      ∧ t.pLen = 0 ∧ t.frameInfo = 0 ∧ t.mem = s.mem ∧ t.rxLen = s.rxLen ∧ t.frameLen = s.frameLen
      ∧ SameArgs s t ∧ SameIrq s t ∧ SameAgents s t

/-- R124, R110: XACT_READ in AckRead with a configuration that passes (R100) zeroes its outputs and begins
its wait with XSTATE = AwaitingReadyResponse, the bound TIMEOUT and the strategy of CONFIG. That the wait's
tick is that of the accepting step is the model's reading (log entry 9). -/
def Obligations.XactReadBegins : Prop :=
  ∀ s : State, s.xstate = .ackRead →
    s.strategy = .gpio ∨ s.strategy = .irq ∧ s.armed = true
      ∨ s.strategy = .status ∧ s.transport = .i2c →
    ∃ t, exec .xactRead s = .next t
      ∧ (s.strategy = .gpio → t.wstate = .settle
          ∧ t.act = .waiting (.read s.transport) s.timeout (.settle s.tick))
      ∧ (s.strategy = .irq → t.wstate = .block
          ∧ t.act = .waiting (.read s.transport) s.timeout (.block s.tick))
      ∧ (s.strategy = .status → t.wstate = .status
          ∧ t.act = .waiting (.read s.transport) s.timeout (.statusDue s.tick none))
      ∧ t.xstate = .awaitingReadyResponse
      ∧ t.status.busy = true ∧ t.status.done = false ∧ t.status.sent = .none
      ∧ t.status.trunc = false ∧ t.status.err = s.status.err
      ∧ t.pLen = 0 ∧ t.frameInfo = 0 ∧ t.mem = s.mem ∧ t.rxLen = s.rxLen
      ∧ t.frameLen = s.frameLen ∧ SameArgs s t ∧ SameIrq s t ∧ SameAgents s t

/-- R126, R127, R130: the six bytes XACT_READ reads first: a sentinel is an error of its own, then the
preamble, LCS and LEN are checked, each error leaving PLEN, FRAMEINFO and TRUNC 0; only a valid header leads
to `RxRead(L + 1, T)` for the rest, with LEN, the bound and the transport latched by the command kept for the
decode (R124, R128). FRAMELEN is unchanged. -/
def Obligations.ResponseHeaderChecked : Prop :=
  ∀ (s : State) (ts : List Turn) (b : List Byte) (tmo : Word) (tr : Transport),
    s.turns = .env (.rx (.ok b)) :: ts → s.rst = false → s.act = .readHead tmo tr → b.length = 6 →
    ∃ t, step s = .next t ∧ t.mem.readBytes? 0x300 6 = some b ∧ SameCellsBut 0x300 6 s t ∧ t.rxLen = 6
      ∧ SameArgs s t ∧ SameIrq s t ∧ t.frameLen = s.frameLen ∧ t.wireOut = s.wireOut
      ∧ (if b = [0x00, 0x00, 0xFF, 0x00, 0xFF, 0x00] then XactReadFailed .unexpectedAck .ack t
        else if b = [0x00, 0x00, 0xFF, 0xFF, 0x00, 0x00] then XactReadFailed .nack .nack t
        else if b.take 3 ≠ [0x00, 0x00, 0xFF] then XactReadFailed .badPreamble .other t
        else if b.getD 3 0 + b.getD 4 0 ≠ 0 then XactReadFailed .lcsMismatch .other t
        else if b.getD 3 0 = 0 then XactReadFailed .badLength .other t
        else
          t.act = .readRest (b.getD 3 0) tmo tr
            ∧ t.act.call = some (.rxRead ((b.getD 3 0).toNat + 1) tmo)
            ∧ t.status = { s.status with sent := .other } ∧ SameResults s t
            ∧ t.xstate = s.xstate ∧ t.wstate = s.wstate)

/-- R127, R128, R130: the rest of a response whose header XACT_READ has checked, with SENT = OTHER since
then (`headerHeld` of the invariant). The whole frame is then in RXBUF
with RXLEN = L + 7. On UART, and on I2C under `I2C_OVERFLOW = TRUNCATE`, it is decoded with MAXLEN as
DECODE_TRUNC does; under REJECT a payload longer than MAXLEN is ARGUMENT/RESPONSE_TOO_LONG, and any other
is decoded as DECODE does. A success goes on to ResponseRead; the only error a decode can raise here is
DCS_MISMATCH. Either error leaves SENT = OTHER, PLEN, FRAMEINFO and TRUNC 0 (R130) and every cell outside
the received rest, PAYBUF's too. The parameter is OPEN (R5), so the statement reads it. That the step of the answer stops in
ResponseRead, before the direction check, is the model's step boundary (log entry 9). -/
def Obligations.ResponseDecoded : Prop :=
  ∀ (s : State) (ts : List Turn) (tmo : Word) (tr : Transport) (len : Byte) (h rest : List Byte),
    s.turns = .env (.rx (.ok rest)) :: ts → s.rst = false → s.act = .readRest len tmo tr →
    s.status.sent = .other → s.mem.readBytes? 0x300 6 = some h → h.take 3 = [0x00, 0x00, 0xFF] → h.getD 3 0 = len →
    len + h.getD 4 0 = 0 → len ≠ 0 → rest.length = len.toNat + 1 →
    let cut := if tr = .uart ∨ Config.i2cOverflow = .truncate then some s.maxLen else none
    let d := decoded cut (h ++ rest)
    ∃ t, step s = .next t ∧ t.rxLen.toNat = len.toNat + 7
      ∧ t.mem.readBytes? 0x300 (len.toNat + 7) = some (h ++ rest)
      ∧ SameArgs s t ∧ SameIrq s t ∧ t.frameLen = s.frameLen ∧ t.wireOut = s.wireOut
      ∧ (d.err = none ∨ d.err = some .dcsMismatch) ∧ d.sent = .other
      ∧ (if cut = none ∧ s.maxLen.toNat < len.toNat - 1 then
          XactReadFailed .responseTooLong .other t ∧ SameCellsBut 0x306 rest.length s t
        else if d.err = none then
          t.xstate = .responseRead ∧ t.wstate = s.wstate ∧ t.act = .readDir
            ∧ t.status = { s.status with sent := .other, trunc := d.trunc }
            ∧ t.pLen = d.pLen ∧ t.frameInfo = d.frameInfo
            ∧ t.mem.readBytes? 0x500 d.payload.length = some d.payload
            ∧ ∀ a, ¬(0x306 ≤ a ∧ a < 0x306 + rest.length) →
              ¬(0x500 ≤ a ∧ a < 0x500 + d.payload.length) → t.mem.read? a = s.mem.read? a
        else XactReadFailed .dcsMismatch .other t ∧ SameCellsBut 0x306 rest.length s t)

/-- R132: a whole response whose payload is longer than MAXLEN, on UART or on I2C with TRUNCATE, ends in
success with TRUNC = 1 once its direction byte is checked, and PAYBUF[0..M-1] is exactly RXBUF[6..5+M],
whatever the rest of it and its data checksum are. -/
def Obligations.TruncatedResponseTrusted : Prop :=
  ∀ (s : State) (ts : List Turn) (tmo : Word) (tr : Transport) (len : Byte) (rest : List Byte),
    s.turns = .env (.rx (.ok rest)) :: .block :: ts → s.rst = false → s.act = .readRest len tmo tr →
    tr = .uart ∨ Config.i2cOverflow = .truncate →
    s.mem.readBytes? 0x300 6 = some [0x00, 0x00, 0xFF, len, 0 - len, 0xD5] →
    rest.length = len.toNat + 1 → s.maxLen.toNat < len.toNat - 1 →
    ∃ t, Sys2Proof.core.run 2 s = .next t ∧ Completed t none ∧ t.xstate = .idle
      ∧ t.status.trunc = true ∧ t.status.sent = .other ∧ t.pLen = s.maxLen
      ∧ t.mem.readBytes? 0x500 s.maxLen.toNat = some (rest.take s.maxLen.toNat)
      ∧ t.mem.readBytes? 0x306 s.maxLen.toNat = some (rest.take s.maxLen.toNat)
      ∧ t.frameInfo = 0x00#8 ++ 0xD5#8 ++ (0 - len) ++ len

/-- R129, R130: after the decode, FRAMEINFO.DIR = 0xD5 completes XACT_READ with success and XSTATE Idle;
any other direction byte raises PROTOCOL/BAD_DIRECTION with PLEN, FRAMEINFO and TRUNC 0. The buffers, RXLEN,
FRAMELEN and SENT are as before. -/
def Obligations.DirectionChecked : Prop :=
  ∀ (s : State) (ts : List Turn), s.turns = .block :: ts → s.rst = false → s.act = .readDir →
    ∃ t, step s = .next t ∧ t.xstate = .idle ∧ t.mem = s.mem ∧ t.rxLen = s.rxLen
      ∧ t.frameLen = s.frameLen ∧ t.status.sent = s.status.sent ∧ SameArgs s t ∧ SameIrq s t
      ∧ (s.frameInfo.extractLsb' 16 8 = 0xD5 →
          Completed t none ∧ t.pLen = s.pLen ∧ t.frameInfo = s.frameInfo
            ∧ t.status.trunc = s.status.trunc)
      ∧ (s.frameInfo.extractLsb' 16 8 ≠ 0xD5 →
          Completed t (some .badDirection) ∧ Err.badDirection.cls = .protocol ∧ t.pLen = 0
            ∧ t.frameInfo = 0 ∧ t.status.trunc = false)

/-- R116, R117: a whole XACT_SEND over GPIO. From any state with BUSY = 0 in which it may run, with the
settle delay passed at the first sample: the transport takes the frame, the pin is low, the peer answers
ACK; then the operation has completed with SENT = ACK and XSTATE = AckRead, and the frame is on the wire.
The turns are the model's (log entries 1, 9). -/
def Obligations.XactSendRunsToAckRead : Prop :=
  ∀ (s : State) (pd : List Byte) (d : Word) (ts : List Turn) (as : List Access),
    s.rst = false → s.held = none → s.status.busy = false → s.bus = .write 0x000 0x20 :: as →
    s.turns = [.controller, .env (.tx .ok), .block, .env (.tick d), .block, .env (.rx (.ok Config.ack))]
      ++ ts →
    s.strategy = .gpio → s.pin = false → Config.settleMs ≤ d →
    s.txLen.toNat ≤ 63 → s.mem.readBytes? 0x100 s.txLen.toNat = some pd →
    ∃ t, Sys2Proof.core.run 6 s = .next t ∧ Completed t none ∧ t.status.sent = .ack
      ∧ t.xstate = .ackRead ∧ t.rxLen = 6 ∧ t.mem.readBytes? 0x300 6 = some Config.ack
      ∧ t.wireOut = s.wireOut ++ ([0x00, 0x00, 0xFF, s.txLen + 1, 0 - (s.txLen + 1), 0xD4] ++ pd
            ++ [~~~(dsum (0xD4 :: pd)) + 1, 0x00])

/-- R116, R124: a whole XACT_READ over GPIO. From any state with BUSY = 0 and XSTATE = AckRead, with the
settle delay passed at the first sample and the pin low: a well-formed response from the chip whose
payload fits MAXLEN arrives in two reads; then the operation has completed with that payload in PAYBUF
and XSTATE = Idle. The turns are the model's (log entries 1, 9). -/
def Obligations.XactReadRunsToIdle : Prop :=
  ∀ (s : State) (len l dcs post : Byte) (pd : List Byte) (d : Word) (ts : List Turn) (as : List Access),
    (Instr.infoFrame len l (Config.tfiC2h :: pd) dcs post).wellFormed = true →
    pd.length ≤ s.maxLen.toNat →
    s.rst = false → s.held = none → s.status.busy = false → s.bus = .write 0x000 0x21 :: as →
    s.turns = [.controller, .env (.tick d), .block, .env (.rx (.ok [0x00, 0x00, 0xFF, len, l, 0xD5])),
        .env (.rx (.ok (pd ++ [dcs, post]))), .block] ++ ts →
    s.xstate = .ackRead → s.strategy = .gpio → s.pin = false → Config.settleMs ≤ d →
    ∃ t, Sys2Proof.core.run 6 s = .next t ∧ Completed t none ∧ t.status.sent = .other
      ∧ t.status.trunc = false ∧ t.xstate = .idle ∧ t.pLen.toNat = pd.length
      ∧ t.mem.readBytes? 0x500 pd.length = some pd
      ∧ t.frameInfo = dcs ++ 0xD5#8 ++ l ++ len ∧ t.rxLen.toNat = len.toNat + 7

/-! ### Frames on the wire -/

/-- R64, R65, R66, R121, R122, R126: an ACK frame arriving while XACT_SEND reads its six bytes is the
acknowledgement; while XACT_READ reads its first six it is FRAME/UNEXPECTED_ACK. A NACK frame is FRAME/NACK
in both, and PLEN, FRAMELEN and FRAMEINFO stay where XACT_SEND ends so (log entry 11). Where no read is outstanding either
stays on the wire and nothing of the block changes. Whatever read is outstanding and whatever the wire holds
already: with too few bytes still the frame waits, and with enough the arrival is the transport's answer OK
of the first bytes of the wire. The wire's queue is the model's (log entry 5). -/
def Obligations.SentinelFramesArrive : Prop :=
  ∀ (s : State) (f : List Byte) (i : Instr),
    (i = .ackFrame ∧ f = [0x00, 0x00, 0xFF, 0x00, 0xFF, 0x00]
      ∨ i = .nackFrame ∧ f = [0x00, 0x00, 0xFF, 0xFF, 0x00, 0x00]) →
    (s.act.rxDemand = none → exec i s = .next { s with wireIn := s.wireIn ++ f })
    ∧ (s.wireIn = [] → ((∃ tmo, s.act = .sendRx tmo) ∨ ∃ tmo tr, s.act = .readHead tmo tr) →
      ∃ t, exec i s = .next t
        ∧ t.mem.readBytes? 0x300 6 = some f ∧ SameCellsBut 0x300 6 s t ∧ t.rxLen = 6 ∧ t.wireIn = []
        ∧ SameArgs s t ∧ SameIrq s t ∧ t.frameLen = s.frameLen
        ∧ ((∃ tmo, s.act = .sendRx tmo) → SameResults s t ∧ t.status.trunc = s.status.trunc)
        ∧ (i = .ackFrame → t.status.sent = .ack
            ∧ ((∃ tmo, s.act = .sendRx tmo) → Completed t none ∧ t.xstate = .ackRead)
            ∧ ((∃ tmo tr, s.act = .readHead tmo tr) →
                Completed t (some .unexpectedAck) ∧ t.xstate = .idle))
        ∧ (i = .nackFrame → t.status.sent = .nack ∧ Completed t (some .nack) ∧ t.xstate = .idle))
    ∧ (∀ k n, s.act.rxDemand = some (k, n) → s.rst = false →
      let w := s.wireIn ++ f
      (w.length < n → exec i s = .next { s with wireIn := w })
      ∧ (n ≤ w.length → exec i s
          = step { s with turns := .env (.rx (.ok (w.take n))) :: s.turns, wireIn := w.drop n }))

/-- R57, R66, R121, R127: a well-formed information frame arriving while XACT_READ reads its first six
bytes passes every header check, and the read of its remaining LEN + 1 bytes, which stay on the wire, is
begun; the environment's move that takes them from the wire then answers that read with them, and leaves
the wire empty. While XACT_SEND reads its six bytes it is FRAME/NOT_ACK; where no read is outstanding it
stays on the wire. Whatever read is outstanding, the rest of a response too, and whatever the wire holds
already: with too few bytes still the frame waits, and with enough the arrival, and likewise the move that
takes bytes from the wire, is the transport's answer OK of the first bytes of the wire. The wire's queue is
the model's (log entry 5). -/
def Obligations.InfoFrameArrives : Prop :=
  (∀ (s : State) (len l dcs post : Byte) (body : List Byte),
    (Instr.infoFrame len l body dcs post).wellFormed = true →
    let f := [0x00, 0x00, 0xFF, len, l] ++ body ++ [dcs, post]
    (s.act.rxDemand = none →
      exec (.infoFrame len l body dcs post) s = .next { s with wireIn := s.wireIn ++ f })
    ∧ (s.wireIn = [] → ∀ tmo tr, s.act = .readHead tmo tr →
      ∃ t, exec (.infoFrame len l body dcs post) s = .next t
        ∧ t.act.call = some (.rxRead (len.toNat + 1) tmo) ∧ t.wireIn = f.drop 6
        ∧ (f.drop 6).length = len.toNat + 1 ∧ t.status.sent = .other ∧ t.rxLen = 6
        ∧ t.mem.readBytes? 0x300 6 = some (f.take 6) ∧ t.xstate = s.xstate
        ∧ SameCellsBut 0x300 6 s t ∧ SameArgs s t ∧ SameIrq s t ∧ SameResults s t
        ∧ (s.rst = false → ∀ ts, step { t with turns := .env .rxWire :: ts }
            = step { t with turns := .env (.rx (.ok (f.drop 6))) :: ts, wireIn := [] }))
    ∧ (s.wireIn = [] → ∀ tmo, s.act = .sendRx tmo →
      ∃ t, exec (.infoFrame len l body dcs post) s = .next t ∧ Completed t (some .notAck)
        ∧ t.status.sent = .other ∧ t.xstate = .idle ∧ SameCellsBut 0x300 6 s t)
    ∧ (∀ k n, s.act.rxDemand = some (k, n) → s.rst = false →
      let w := s.wireIn ++ f
      (w.length < n → exec (.infoFrame len l body dcs post) s = .next { s with wireIn := w })
      ∧ (n ≤ w.length → exec (.infoFrame len l body dcs post) s
          = step { s with turns := .env (.rx (.ok (w.take n))) :: s.turns, wireIn := w.drop n })))
  ∧ ∀ (s : State) (ts : List Turn), s.turns = .env .rxWire :: ts → s.rst = false →
    (s.act.rxDemand = none → step s = .next { s with turns := ts })
    ∧ ∀ k n, s.act.rxDemand = some (k, n) →
      (s.wireIn.length < n → step s = .next { s with turns := ts })
      ∧ (n ≤ s.wireIn.length → step s = step { s with
          turns := .env (.rx (.ok (s.wireIn.take n))) :: ts
          wireIn := s.wireIn.drop n })

/-! ### The register port -/

/-- R42: an access that is misaligned, or at an offset outside R40's map, is answered BUS_ERROR and changes
nothing of the block; it sets no STATUS field. A write while BUSY = 1 is held first (R46), and refused so
when it proceeds, which is the model's reading (log entry 10). That a read is refused so while BUSY = 1 too
is R42 taken before R46's draw, the model's reading, and the draw counter is the model's (log entry 4). -/
def Obligations.BusErrorChangesNothing : Prop :=
  ∀ (s : State) (ts : List Turn) (as : List Access) (off : BitVec 12),
    s.turns = .controller :: ts → s.rst = false →
    (off.toNat % 4 ≠ 0
      ∨ ¬(off.toNat ≤ 0x02F ∨ 0x100 ≤ off.toNat ∧ off.toNat ≤ 0x13F
          ∨ 0x200 ≤ off.toNat ∧ off.toNat ≤ 0x247 ∨ 0x300 ≤ off.toNat ∧ off.toNat ≤ 0x407
          ∨ 0x500 ≤ off.toNat ∧ off.toNat ≤ 0x5FF)) →
    (s.held = none → s.bus = .read off :: as →
      step s = .next { s with turns := ts, bus := as, resp := some .busError, draws := s.draws + 1 })
    ∧ ∀ v, s.status.busy = false →
      (s.held = none → s.bus = .write off v :: as →
        step s = .next { s with turns := ts, bus := as, resp := some .busError })
      ∧ (s.held = some (off, v) →
        step s = .next { s with turns := ts, held := none, resp := some .busError })

/-- R14, R15, R21 to R26, R43 to R45: what a read gives, field by field, and that it changes nothing of the
block: STATUS and SEQSTATE at any time, the rest while BUSY = 0, 0 in every reserved bit, a buffer word's
written bytes each in its place and 0 for padding. -/
def Obligations.ReadsGiveRegisters : Prop :=
  ∀ (s : State) (ts : List Turn) (as : List Access) (off : BitVec 12),
    s.turns = .controller :: ts → s.rst = false → s.held = none → s.bus = .read off :: as →
    ∃ r, step s = .next { s with turns := ts, bus := as, resp := some r, draws := s.draws + 1 }
      ∧ (off = 0x004 → ∃ w, r = .data w
          ∧ w.getLsbD 0 = s.status.busy ∧ w.getLsbD 1 = s.status.done ∧ w.getLsbD 2 = s.status.trunc
          ∧ w.extractLsb' 3 2 = s.status.sent.code ∧ w.extractLsb' 5 3 = 0
          ∧ w.extractLsb' 8 3 = s.status.errClass.code ∧ w.extractLsb' 11 5 = 0
          ∧ w.extractLsb' 16 8 = s.status.errSub ∧ w.extractLsb' 24 8 = 0)
      ∧ (off = 0x02C → ∃ w, r = .data w ∧ w.extractLsb' 0 3 = s.xstate.code ∧ w.getLsbD 3 = false
          ∧ w.extractLsb' 4 3 = s.wstate.code ∧ w.extractLsb' 7 25 = 0)
      ∧ (s.status.busy = false →
        (off = 0x000 → r = .data 0)
        ∧ (off = 0x008 → ∃ w, r = .data w ∧ w.extractLsb' 0 1 = s.transport.code
            ∧ w.extractLsb' 1 2 = s.strategy.code ∧ w.extractLsb' 3 29 = 0)
        ∧ (off = 0x00C → r = .data s.timeout)
        ∧ (off = 0x010 → r = .data (s.txLen.setWidth 32))
        ∧ (off = 0x014 → r = .data (s.maxLen.setWidth 32))
        ∧ (off = 0x018 → r = .data (s.rxLen.setWidth 32))
        ∧ (off = 0x01C → r = .data (s.frameLen.setWidth 32))
        ∧ (off = 0x020 → r = .data s.frameInfo)
        ∧ (off = 0x024 → r = .data (s.pLen.setWidth 32))
        ∧ (off = 0x028 → ∃ w, r = .data w ∧ w.getLsbD 0 = s.armed ∧ w.getLsbD 1 = s.pending
            ∧ w.extractLsb' 2 30 = 0)
        ∧ (off.toNat % 4 = 0 →
            (0x100 ≤ off.toNat ∧ off.toNat < 0x140 ∨ 0x200 ≤ off.toNat ∧ off.toNat < 0x248
              ∨ 0x300 ≤ off.toNat ∧ off.toNat < 0x408 ∨ 0x500 ≤ off.toNat ∧ off.toNat < 0x600) →
            ∃ w, r = .data w ∧ ∀ j, j < 4 →
              (off.toNat + j = 0x406 ∨ off.toNat + j = 0x407 ∨ off.toNat + j = 0x5FE
                  ∨ off.toNat + j = 0x5FF → w.extractLsb' (8 * j) 8 = 0)
                ∧ (off.toNat + j ≠ 0x406 → off.toNat + j ≠ 0x407 → off.toNat + j ≠ 0x5FE →
                    off.toNat + j ≠ 0x5FF → ∀ b, s.mem.read? (off.toNat + j) = some b →
                    w.extractLsb' (8 * j) 8 = b)))

/-- R46: while BUSY = 1 a write to any offset is held: it takes no effect and its cycle does not end.
When BUSY = 0 again, the held write proceeds before any other access. -/
def Obligations.WritesHeldWhileBusy : Prop :=
  ∀ (s : State) (ts : List Turn) (off : BitVec 12) (v : Word), s.turns = .controller :: ts →
    s.rst = false →
    (∀ as, s.status.busy = true → s.held = none → s.bus = .write off v :: as →
      step s = .next { s with turns := ts, bus := as, held := some (off, v), resp := none })
    ∧ (s.status.busy = true → s.held = some (off, v) → step s = .next { s with turns := ts })
    ∧ (s.status.busy = false → s.held = some (off, v) →
      step s = step { s with held := none, bus := .write off v :: s.bus })

/-- R43, R44, R45: the register port reads back what it wrote: a buffer word its four bytes (padding
dropped and read as 0), CONFIG its low three bits, TIMEOUT whole, TXLEN and MAXLEN eight bits, RXLEN nine.
The write and the read change nothing else: no other register, no other cell, and a register write no cell
at all. -/
def Obligations.PortReadsBackWrites : Prop :=
  ∀ (s : State) (ts : List Turn) (as : List Access) (off : BitVec 12) (v mask : Word),
    s.turns = .controller :: .controller :: ts → s.rst = false → s.held = none →
    s.status.busy = false → s.bus = .write off v :: .read off :: as →
    (off = 0x008 ∧ mask = 0x00000007 ∨ off = 0x00C ∧ mask = 0xFFFFFFFF
      ∨ off = 0x010 ∧ mask = 0x000000FF ∨ off = 0x014 ∧ mask = 0x000000FF
      ∨ off = 0x018 ∧ mask = 0x000001FF
      ∨ off.toNat % 4 = 0 ∧ (0x100 ≤ off.toNat ∧ off.toNat < 0x140
          ∨ 0x300 ≤ off.toNat ∧ off.toNat < 0x404) ∧ mask = 0xFFFFFFFF
      ∨ off = 0x404 ∧ mask = 0x0000FFFF) →
    ∃ t, Sys2Proof.core.run 2 s = .next t ∧ t.resp = some (.data (v &&& mask))
      ∧ t.status = s.status ∧ SameIrq s t ∧ SameResults s t
      ∧ t.xstate = s.xstate ∧ t.wstate = s.wstate ∧ t.act = s.act ∧ t.held = none
      ∧ (off ≠ 0x008 → t.transport = s.transport ∧ t.strategy = s.strategy)
      ∧ (off ≠ 0x00C → t.timeout = s.timeout) ∧ (off ≠ 0x010 → t.txLen = s.txLen)
      ∧ (off ≠ 0x014 → t.maxLen = s.maxLen) ∧ (off ≠ 0x018 → t.rxLen = s.rxLen)
      ∧ (off.toNat < 0x100 → t.mem = s.mem)
      ∧ SameCellsBut off.toNat (if off = 0x404 then 2 else 4) s t
      ∧ t.tick = s.tick ∧ t.pin = s.pin ∧ t.rst = s.rst ∧ t.wireIn = s.wireIn
      ∧ t.wireOut = s.wireOut ∧ t.peer = s.peer ∧ t.turns = ts ∧ t.bus = as

/-- R40, R15, R25, R26: a write to a read-only element is ignored and is no error. -/
def Obligations.ReadOnlyIgnoresWrites : Prop :=
  ∀ (s : State) (ts : List Turn) (as : List Access) (off : BitVec 12) (v : Word),
    s.turns = .controller :: ts → s.rst = false → s.held = none → s.status.busy = false →
    s.bus = .write off v :: as →
    (off = 0x004 ∨ off = 0x01C ∨ off = 0x020 ∨ off = 0x024 ∨ off = 0x028 ∨ off = 0x02C
      ∨ off.toNat % 4 = 0 ∧ (0x200 ≤ off.toNat ∧ off.toNat < 0x248
        ∨ 0x500 ≤ off.toNat ∧ off.toNat < 0x600)) →
    step s = .next { s with turns := ts, bus := as, resp := some .written }

/-! ### Reset and whole-machine rules -/

/-- R149, R150: asserting `rst` gives every element of the block its reset value at once, whatever runs:
the operation is abandoned without a completion, a held write is discarded; and while it is asserted, and
in the step that deasserts it, every turn is taken and leaves each of them at that value. `rst` is the
level its last move gave it. In the step that asserts `rst`, what the transport and the peer hold, the tick
and `irq_n`'s level stay (R151); that no byte of a `TxWrite`
still outstanding is on the wire, and that an outstanding `RxRead` has taken none from it, is the model's
choice (log entries 14, 15), and that the deasserting step still
resets is read from R149 (log entry 8). -/
def Obligations.ResetTakesEveryElement : Prop :=
  ∀ (s : State) (ts : List Turn) (x : Turn), s.turns = x :: ts →
    (s.rst = false ∧ x = .env (.rst true) ∨ s.rst = true) →
    ∃ t, step s = .next t
      ∧ t.status = { busy := false, done := false, trunc := false, sent := .none, err := none }
      ∧ t.transport = .uart ∧ t.strategy = .gpio ∧ t.timeout = 0 ∧ t.txLen = 0 ∧ t.maxLen = 0
      ∧ t.rxLen = 0 ∧ t.frameLen = 0 ∧ t.frameInfo = 0 ∧ t.pLen = 0 ∧ t.armed = false
      ∧ t.pending = false ∧ t.xstate = .idle ∧ t.wstate = .idle ∧ t.prevIrq = true
      ∧ (∀ a, t.mem.read? a = none) ∧ t.act = .idle ∧ t.held = none
      ∧ (s.rst = false → t.wireIn = s.wireIn ∧ t.wireOut = s.wireOut ∧ t.peer = s.peer
          ∧ t.tick = s.tick ∧ t.pin = s.pin)
      ∧ (x = .env (.rst true) → t.rst = true) ∧ (x = .env (.rst false) → t.rst = false)
      ∧ ((∀ v, x ≠ .env (.rst v)) → t.rst = s.rst)

/-- R37, R149: the reset state's elements. -/
def Obligations.ResetState : Prop :=
  statusWord State.reset.status = 0x00000000
    ∧ configWord State.reset.transport State.reset.strategy = 0x00000000
    ∧ State.reset.timeout = 0 ∧ State.reset.txLen = 0 ∧ State.reset.maxLen = 0 ∧ State.reset.rxLen = 0
    ∧ State.reset.frameLen = 0 ∧ State.reset.frameInfo = 0 ∧ State.reset.pLen = 0
    ∧ irqStatWord State.reset.armed State.reset.pending = 0x00000000
    ∧ seqStateWord State.reset.xstate State.reset.wstate = 0x00000000
    ∧ State.reset.prevIrq = true ∧ ∀ a, State.reset.mem.read? a = none

/-- The invariant holds at reset. -/
def Obligations.ResetMeetsInvariant : Prop := State.reset.inv = true

/-- Every step keeps the invariant: the buffers' canonical form, the agreement of BUSY, DONE, XSTATE and
WSTATE with the running operation (so that with BUSY = 0 XSTATE is Idle or AckRead and WSTATE is W_IDLE,
R130), the header XACT_READ has checked and its SENT = OTHER, and an empty slot while not armed (R111). -/
def Obligations.StepKeepsInvariant : Prop :=
  ∀ s t : State, s.inv = true → step s = .next t → t.inv = true

/-- R35, R46, R124, R136: under the invariant only the start of an operation can stop the machine: a fault
comes only where the controller's turn brings CMD, with BUSY = 0, the word of one of the six commands that read
buffer cells the controller fills; so no port read and no other write stops it (that the model fault stops the
machine is log entry 7). XACT_READ's own decode never needs an unwritten cell and
never raises INCOMPLETE. -/
def Obligations.OnlyCommandsFault : Prop :=
  ∀ s : State, s.inv = true →
    (∀ f, step s = .fault f →
      f = .unwrittenRead ∧ s.rst = false ∧ ∃ w i, CommandAt s w ∧ decode (.cmd w) = .ok i
        ∧ i ∈ [.encode, .decode, .decodeTrunc, .classify, .checkAck, .xactSend])
    ∧ (∀ r, step s ≠ .refused r)
    ∧ ∀ t, step s = .next t → s.status.busy = true → t.status.busy = false →
        t.status.err ≠ some .incomplete

/-- R16, R46, R52: only a write of the controller's that proceeds, with BUSY = 0 and to another offset than
CMD, or reset, changes CONFIG, TIMEOUT, TXLEN, MAXLEN or a TXBUF cell. No read, no held write, no command and
no other agent's turn does; so an operation's inputs cannot change under it. -/
def Obligations.InputsStableWhileBusy : Prop :=
  ∀ s t : State, step s = .next t → s.rst = false → t.rst = false →
    (∀ off v, WriteAt s off v → off = 0x000) →
    SameArgs s t ∧ ∀ a, 0x100 ≤ a → a < 0x140 → t.mem.read? a = s.mem.read? a

/-- R116: XSTATE changes only as the table of R116 says, over every step of the machine from a state that
meets the invariant: each row with its event. Bytes that were asked for come at a turn that can bring them,
and the wait's begin and the direction check are the block's turns (log entries 1, 9). The errors' row is an
error raised by XACT_SEND or XACT_READ: from AckRead only those two commands change XSTATE. The last row is
reset. -/
def Obligations.XstateTransitions : Prop :=
  ∀ s t : State, s.inv = true → step s = .next t → t.xstate ≠ s.xstate →
    (s.xstate = .ackRead ∧ t.xstate = .idle ∧ CommandAt s 0x20)
      ∨ (s.xstate = .idle ∧ t.xstate = .commandSent ∧ ∃ ts, s.turns = .env (.tx .ok) :: ts)
      ∨ (s.xstate = .commandSent ∧ t.xstate = .awaitingReadyAck ∧ t.wstate ≠ .idle
          ∧ ∃ ts, s.turns = .block :: ts)
      ∨ (s.xstate = .awaitingReadyAck ∧ t.xstate = .ackRead ∧ Completed t none
          ∧ (∃ tmo, s.act = .sendRx tmo) ∧ BringsBytes s
          ∧ t.mem.readBytes? 0x300 6 = some [0x00, 0x00, 0xFF, 0x00, 0xFF, 0x00])
      ∨ (s.xstate = .ackRead ∧ t.xstate = .awaitingReadyResponse ∧ t.wstate ≠ .idle
          ∧ CommandAt s 0x21)
      ∨ (s.xstate = .awaitingReadyResponse ∧ t.xstate = .responseRead ∧ t.act = .readDir
          ∧ (∃ len tmo tr, s.act = .readRest len tmo tr) ∧ BringsBytes s)
      ∨ (s.xstate = .responseRead ∧ t.xstate = .idle ∧ Completed t none
          ∧ s.frameInfo.extractLsb' 16 8 = 0xD5 ∧ ∃ ts, s.turns = .block :: ts)
      ∨ (t.xstate = .idle ∧ (∃ e, Completed t (some e))
          ∧ (s.xstate = .ackRead → CommandAt s 0x21))
      ∨ (t.xstate = .idle ∧ (s.rst = true ∨ t.rst = true))

/-- R133, R135: the class and sub-code of each of the 22 errors, and the classes' codes; they tell the
errors apart, ERRSUB is never 0 with an error, and both are NONE and 0 exactly without one. R15, R21, R26:
the codes of SENT, TRANSPORT, STRATEGY, XSTATE and WSTATE. -/
def Obligations.ErrorCodesDistinct : Prop :=
  (∀ e f : Err, e.cls = f.cls → e.sub = f.sub → e = f)
    ∧ (∀ e : Err, e.cls ≠ .none ∧ e.sub ≠ 0)
    ∧ (∀ st : Status, (st.errClass = .none ↔ st.err = none) ∧ (st.errSub = 0 ↔ st.err = none))
    ∧ (∀ (st : Status) (e : Err), st.err = some e → st.errClass = e.cls ∧ st.errSub = e.sub)
    ∧ [ErrClass.none, .transport, .timeout, .frame, .protocol, .argument].map ErrClass.code
        = [0, 1, 2, 3, 4, 5]
    ∧ [Err.writeFailed, .readFailed].map (fun e => (e.cls, e.sub))
        = [(.transport, 0x01), (.transport, 0x02)]
    ∧ [Err.readyWait, .transportWrite, .transportRead].map (fun e => (e.cls, e.sub))
        = [(.timeout, 0x01), (.timeout, 0x02), (.timeout, 0x03)]
    ∧ [Err.badPreamble, .lcsMismatch, .badLength, .incomplete, .dcsMismatch].map
          (fun e => (e.cls, e.sub))
        = [(.frame, 0x01), (.frame, 0x02), (.frame, 0x03), (.frame, 0x04), (.frame, 0x05)]
    ∧ [Err.notAck, .nack, .ackShort, .unexpectedAck].map (fun e => (e.cls, e.sub))
        = [(.frame, 0x06), (.frame, 0x07), (.frame, 0x08), (.frame, 0x09)]
    ∧ (Err.badDirection.cls, Err.badDirection.sub) = (.protocol, 0x01)
    ∧ [Err.illegalOp, .payloadTooLong, .lengthRange, .badStrategy].map (fun e => (e.cls, e.sub))
        = [(.argument, 0x01), (.argument, 0x02), (.argument, 0x03), (.argument, 0x04)]
    ∧ [Err.irqNotArmed, .sequence, .responseTooLong].map (fun e => (e.cls, e.sub))
        = [(.argument, 0x05), (.argument, 0x06), (.argument, 0x07)]
    ∧ [Sent.none, .ack, .nack, .other].map Sent.code = [0, 1, 2, 3]
    ∧ [Transport.uart, .i2c].map Transport.code = [0, 1]
    ∧ [Strategy.gpio, .irq, .status, .reserved].map Strategy.code = [0, 1, 2, 3]
    ∧ [XState.idle, .commandSent, .ackRead].map XState.code = [0, 1, 3]
    ∧ [XState.awaitingReadyAck, .awaitingReadyResponse, .responseRead].map XState.code = [2, 4, 5]
    ∧ [WState.idle, .settle, .poll, .block, .status].map WState.code = [0, 1, 2, 3, 4]
end

