-- ==== Sys2Proof/Laws/Memory.lean ====
section
/-! SUPPORT. The laws of the buffers' cells: a read after a write, a run of bytes read back, and the
canonical form that every write keeps. -/

namespace Sys2Proof.Machine

/-! ### One cell -/

theorem Memory.read?_write (m : Memory) (a x : Nat) (b : Byte) :
    (m.write a b).read? x = if x = a then some b else m.read? x := by
  induction m with
  | nil => simp [Memory.write, Memory.read?, eq_comm]
  | cons c m ih =>
    obtain ⟨k, v⟩ := c
    by_cases h1 : a < k
    · simp only [Memory.write, h1, if_true, Memory.read?]
      by_cases h : a = x <;> simp [h, eq_comm]
    · by_cases h2 : a = k
      · subst h2
        simp only [Memory.write, lt_irrefl, if_false, if_true, Memory.read?]
        by_cases h : a = x <;> simp [h, eq_comm]
      · simp only [Memory.write, h1, h2, if_false, Memory.read?, ih]
        by_cases h : k = x
        · subst h; simp [Ne.symm h2]
        · simp [h]

@[simp] theorem Memory.read?_write_same (m : Memory) (a : Nat) (b : Byte) :
    (m.write a b).read? a = some b := by simp [Memory.read?_write]

theorem Memory.read?_write_other (m : Memory) {a x : Nat} (b : Byte) (h : x ≠ a) :
    (m.write a b).read? x = m.read? x := by simp [Memory.read?_write, h]

/-! ### A run of cells -/

theorem Memory.read?_writeBytes (bs : List Byte) (m : Memory) (a x : Nat) :
    (m.writeBytes a bs).read? x =
      if a ≤ x ∧ x < a + bs.length then bs[x - a]? else m.read? x := by
  induction bs generalizing m a with
  | nil => simp [Memory.writeBytes]
  | cons b bs ih =>
    simp only [Memory.writeBytes, ih, Memory.read?_write, List.length_cons]
    by_cases h1 : a = x
    · subst h1
      have : ¬(a + 1 ≤ a ∧ a < a + 1 + bs.length) := by omega
      simp
    · by_cases h2 : a + 1 ≤ x ∧ x < a + 1 + bs.length
      · have h3 : a ≤ x ∧ x < a + (bs.length + 1) := by omega
        rw [if_pos h2, if_pos h3]
        obtain ⟨d, rfl⟩ : ∃ d, x = a + 1 + d := ⟨x - (a + 1), by omega⟩
        have h4 : a + 1 + d - a = d + 1 := by omega
        simp [h4]
      · have h3 : ¬(a ≤ x ∧ x < a + (bs.length + 1)) := by omega
        rw [if_neg h2, if_neg h3, if_neg (fun h => h1 h.symm)]

theorem Memory.read?_writeBytes_outside (m : Memory) {a x : Nat} {bs : List Byte}
    (h : ¬(a ≤ x ∧ x < a + bs.length)) : (m.writeBytes a bs).read? x = m.read? x := by
  rw [Memory.read?_writeBytes, if_neg h]

/-- A run of reads succeeds with exactly these bytes where each cell holds its byte. -/
theorem Memory.readBytes?_eq_some (m : Memory) (n : Nat) (a : Nat) (bs : List Byte) :
    m.readBytes? a n = some bs ↔
      bs.length = n ∧ ∀ i, i < n → m.read? (a + i) = bs[i]? := by
  induction n generalizing a bs with
  | zero =>
    simp only [Memory.readBytes?, Option.some.injEq, Nat.not_lt_zero, false_imp_iff, implies_true,
      and_true]
    exact ⟨fun h => by simp [← h], fun h => (List.length_eq_zero_iff.mp h).symm⟩
  | succ n ih =>
    simp only [Memory.readBytes?]
    constructor
    · intro h
      split at h
      · rename_i b bs' hb hbs
        cases h
        obtain ⟨hl, hr⟩ := (ih _ _).mp hbs
        refine ⟨by simp [hl], fun i hi => ?_⟩
        cases i with
        | zero => simpa using hb
        | succ i =>
          have := hr i (by omega)
          rw [show a + 1 + i = a + (i + 1) by omega] at this
          simpa using this
      · cases h
    · rintro ⟨hl, hr⟩
      cases bs with
      | nil => simp at hl
      | cons b bs =>
        have h0 : m.read? a = some b := by simpa using hr 0 (by omega)
        have hs : m.readBytes? (a + 1) n = some bs := by
          refine (ih _ _).mpr ⟨by simpa using hl, fun i hi => ?_⟩
          have := hr (i + 1) (by omega)
          rw [show a + (i + 1) = a + 1 + i by omega] at this
          simpa using this
        simp [h0, hs]

theorem Memory.length_of_readBytes? {m : Memory} {a n : Nat} {bs : List Byte}
    (h : m.readBytes? a n = some bs) : bs.length = n :=
  ((Memory.readBytes?_eq_some m n a bs).mp h).1

/-- What was stored is read back. -/
theorem Memory.readBytes?_writeBytes (m : Memory) (a : Nat) (bs : List Byte) :
    (m.writeBytes a bs).readBytes? a bs.length = some bs := by
  refine (Memory.readBytes?_eq_some _ _ _ _).mpr ⟨rfl, fun i hi => ?_⟩
  rw [Memory.read?_writeBytes, if_pos (by omega)]
  congr 1; omega

/-- A run is read as before where every one of its cells is. -/
theorem Memory.readBytes?_congr {m m' : Memory} {a n : Nat}
    (h : ∀ i, i < n → m.read? (a + i) = m'.read? (a + i)) :
    m.readBytes? a n = m'.readBytes? a n := by
  induction n generalizing a with
  | zero => rfl
  | succ n ih =>
    have h0 : m.read? a = m'.read? a := by simpa using h 0 (by omega)
    have hs := @ih (a + 1) (fun i hi => by
      have := h (i + 1) (by omega)
      rwa [show a + (i + 1) = a + 1 + i by omega] at this)
    simp only [Memory.readBytes?, h0, hs]

/-- A run inside a run that is read. -/
theorem Memory.readBytes?_sub {m : Memory} {a n : Nat} {bs : List Byte}
    (h : m.readBytes? a n = some bs) (j k : Nat) (hk : j + k ≤ n) :
    m.readBytes? (a + j) k = some ((bs.drop j).take k) := by
  obtain ⟨hl, hr⟩ := (Memory.readBytes?_eq_some _ _ _ _).mp h
  refine (Memory.readBytes?_eq_some _ _ _ _).mpr ⟨by simp; omega, fun i hi => ?_⟩
  rw [Nat.add_assoc, hr (j + i) (by omega), List.getElem?_take_of_lt hi, List.getElem?_drop]

/-! ### The canonical form -/

theorem Memory.rising_cons {c : Host.Cell} {m : Memory} :
    Memory.rising (c :: m) = true ↔
      (∀ d ∈ m.head?, c.1 < d.1) ∧ Memory.rising m = true := by
  cases m with
  | nil => simp [Memory.rising]
  | cons d m => obtain ⟨a, _⟩ := c; obtain ⟨b, _⟩ := d; simp [Memory.rising]

theorem Memory.head?_write (m : Memory) (a : Nat) (b : Byte) :
    ∀ d ∈ (m.write a b).head?, d.1 = a ∨ ∃ e ∈ m.head?, d.1 = e.1 := by
  cases m with
  | nil => simp [Memory.write]
  | cons c m =>
    obtain ⟨k, v⟩ := c
    simp only [Memory.write]
    split
    · simp
    · split <;> simp

theorem Memory.rising_write {m : Memory} (h : m.rising = true) (a : Nat) (b : Byte) :
    (m.write a b).rising = true := by
  induction m with
  | nil => rfl
  | cons c m ih =>
    obtain ⟨k, v⟩ := c
    obtain ⟨hh, ht⟩ := Memory.rising_cons.mp h
    simp only [Memory.write]
    split
    · rename_i hlt
      exact Memory.rising_cons.mpr ⟨by simpa using hlt, h⟩
    · rename_i hge
      split
      · rename_i heq
        subst heq
        exact Memory.rising_cons.mpr ⟨hh, ht⟩
      · rename_i hne
        refine Memory.rising_cons.mpr ⟨fun d hd => ?_, ih ht⟩
        obtain h1 | ⟨e, he, h2⟩ := Memory.head?_write m a b d hd
        · show k < d.1
          omega
        · have := hh e he
          show k < d.1
          simp only at this
          omega

theorem Memory.all_write {p : Nat → Bool} {m : Memory} (h : m.all (fun c => p c.1) = true)
    {a : Nat} (ha : p a = true) (b : Byte) : (m.write a b).all (fun c => p c.1) = true := by
  induction m with
  | nil => simp [Memory.write, ha]
  | cons c m ih =>
    obtain ⟨k, v⟩ := c
    simp only [List.all_cons, Bool.and_eq_true] at h
    simp only [Memory.write]
    split
    · simp only [List.all_cons, ha, h.1, h.2, Bool.and_self]
    · split
      · simp only [List.all_cons, ha, h.2, Bool.and_self]
      · simp only [List.all_cons, h.1, ih h.2, Bool.and_self]

/-- A write to a cell keeps the canonical form. -/
theorem Memory.wf_write {m : Memory} (h : m.wf = true) {a : Nat} (ha : isCell a = true) (b : Byte) :
    (m.write a b).wf = true := by
  simp only [Memory.wf, Bool.and_eq_true] at h ⊢
  exact ⟨Memory.rising_write h.1 a b, Memory.all_write h.2 ha b⟩

/-- A store whose every byte is a cell keeps the canonical form. -/
theorem Memory.wf_writeBytes {m : Memory} (h : m.wf = true) {a : Nat} {bs : List Byte}
    (ha : ∀ i, i < bs.length → isCell (a + i) = true) : (m.writeBytes a bs).wf = true := by
  induction bs generalizing m a with
  | nil => exact h
  | cons b bs ih =>
    refine ih (Memory.wf_write h (by simpa using ha 0 (by simp)) b) fun i hi => ?_
    have := ha (i + 1) (by simpa using hi)
    rwa [show a + (i + 1) = a + 1 + i by omega] at this

/-- Only cells are read. -/
theorem Memory.isCell_of_read? {m : Memory} (h : m.wf = true) {a : Nat} {b : Byte}
    (hr : m.read? a = some b) : isCell a = true := by
  simp only [Memory.wf, Bool.and_eq_true] at h
  have hall := h.2
  clear h
  induction m with
  | nil => simp [Memory.read?] at hr
  | cons c m ih =>
    obtain ⟨k, v⟩ := c
    simp only [List.all_cons, Bool.and_eq_true] at hall
    simp only [Memory.read?] at hr
    split at hr
    · rename_i hk; exact hk ▸ hall.1
    · exact ih hr hall.2

/-- The cells, as ranges. -/
theorem isCell_iff (a : Nat) :
    isCell a = true ↔ (0x100 ≤ a ∧ a < 0x140) ∨ (0x200 ≤ a ∧ a < 0x248)
      ∨ (0x300 ≤ a ∧ a < 0x406) ∨ (0x500 ≤ a ∧ a < 0x5FE) := by
  simp [isCell, or_assoc]

/-- A run with an unwritten cell in it is not read. -/
theorem Memory.readBytes?_eq_none {m : Memory} {a n i : Nat} (hi : i < n)
    (h : m.read? (a + i) = none) : m.readBytes? a n = none := by
  cases hb : m.readBytes? a n with
  | none => rfl
  | some bs =>
    obtain ⟨hl, hr⟩ := (Memory.readBytes?_eq_some _ _ _ _).mp hb
    have := (hr i hi).symm.trans h
    simp at this
    omega

/-- Two runs of bytes, one behind the other, are one run. -/
theorem Memory.readBytes?_append {m : Memory} {a n k : Nat} {x y : List Byte}
    (hx : m.readBytes? a n = some x) (hy : m.readBytes? (a + n) k = some y) :
    m.readBytes? a (n + k) = some (x ++ y) := by
  obtain ⟨l1, r1⟩ := (Memory.readBytes?_eq_some _ _ _ _).mp hx
  obtain ⟨l2, r2⟩ := (Memory.readBytes?_eq_some _ _ _ _).mp hy
  refine (Memory.readBytes?_eq_some _ _ _ _).mpr ⟨by simp [l1, l2], fun i hi => ?_⟩
  by_cases h : i < n
  · rw [r1 i h, List.getElem?_append_left (by omega)]
  · have := r2 (i - n) (by omega)
    rw [show a + n + (i - n) = a + i by omega] at this
    rw [this, List.getElem?_append_right (by omega), l1]

end Sys2Proof.Machine
end

