-- ==== Sys2Proof/Laws/State.lean ====
section
/-! SUPPORT. The fields of State after each update of Machine/Ops.lean, one lemma a field, so that no
proof unfolds an update. An update's lemma for a field it writes says what it writes; the others say that
the field stays. -/

namespace Sys2Proof.Machine

/-! ### STATUS.SENT -/

@[simp] theorem State.setSent_status (c : Sent) (s : State) :
    (s.setSent c).status = { s.status with sent := c } := rfl

@[simp] theorem State.setSent_transport (c : Sent) (s : State) :
    (s.setSent c).transport = s.transport := rfl

@[simp] theorem State.setSent_strategy (c : Sent) (s : State) :
    (s.setSent c).strategy = s.strategy := rfl

@[simp] theorem State.setSent_timeout (c : Sent) (s : State) :
    (s.setSent c).timeout = s.timeout := rfl

@[simp] theorem State.setSent_txLen (c : Sent) (s : State) :
    (s.setSent c).txLen = s.txLen := rfl

@[simp] theorem State.setSent_maxLen (c : Sent) (s : State) :
    (s.setSent c).maxLen = s.maxLen := rfl

@[simp] theorem State.setSent_rxLen (c : Sent) (s : State) :
    (s.setSent c).rxLen = s.rxLen := rfl

@[simp] theorem State.setSent_frameLen (c : Sent) (s : State) :
    (s.setSent c).frameLen = s.frameLen := rfl

@[simp] theorem State.setSent_frameInfo (c : Sent) (s : State) :
    (s.setSent c).frameInfo = s.frameInfo := rfl

@[simp] theorem State.setSent_pLen (c : Sent) (s : State) :
    (s.setSent c).pLen = s.pLen := rfl

@[simp] theorem State.setSent_armed (c : Sent) (s : State) :
    (s.setSent c).armed = s.armed := rfl

@[simp] theorem State.setSent_pending (c : Sent) (s : State) :
    (s.setSent c).pending = s.pending := rfl

@[simp] theorem State.setSent_xstate (c : Sent) (s : State) :
    (s.setSent c).xstate = s.xstate := rfl

@[simp] theorem State.setSent_wstate (c : Sent) (s : State) :
    (s.setSent c).wstate = s.wstate := rfl

@[simp] theorem State.setSent_prevIrq (c : Sent) (s : State) :
    (s.setSent c).prevIrq = s.prevIrq := rfl

@[simp] theorem State.setSent_mem (c : Sent) (s : State) :
    (s.setSent c).mem = s.mem := rfl

@[simp] theorem State.setSent_act (c : Sent) (s : State) :
    (s.setSent c).act = s.act := rfl

@[simp] theorem State.setSent_held (c : Sent) (s : State) :
    (s.setSent c).held = s.held := rfl

@[simp] theorem State.setSent_tick (c : Sent) (s : State) :
    (s.setSent c).tick = s.tick := rfl

@[simp] theorem State.setSent_pin (c : Sent) (s : State) :
    (s.setSent c).pin = s.pin := rfl

@[simp] theorem State.setSent_rst (c : Sent) (s : State) :
    (s.setSent c).rst = s.rst := rfl

@[simp] theorem State.setSent_wireIn (c : Sent) (s : State) :
    (s.setSent c).wireIn = s.wireIn := rfl

@[simp] theorem State.setSent_wireOut (c : Sent) (s : State) :
    (s.setSent c).wireOut = s.wireOut := rfl

@[simp] theorem State.setSent_peer (c : Sent) (s : State) :
    (s.setSent c).peer = s.peer := rfl

@[simp] theorem State.setSent_bus (c : Sent) (s : State) :
    (s.setSent c).bus = s.bus := rfl

@[simp] theorem State.setSent_resp (c : Sent) (s : State) :
    (s.setSent c).resp = s.resp := rfl

@[simp] theorem State.setSent_turns (c : Sent) (s : State) :
    (s.setSent c).turns = s.turns := rfl

@[simp] theorem State.setSent_draws (c : Sent) (s : State) :
    (s.setSent c).draws = s.draws := rfl

/-! ### STATUS.TRUNC -/

@[simp] theorem State.setTrunc_status (b : Bool) (s : State) :
    (s.setTrunc b).status = { s.status with trunc := b } := rfl

@[simp] theorem State.setTrunc_transport (b : Bool) (s : State) :
    (s.setTrunc b).transport = s.transport := rfl

@[simp] theorem State.setTrunc_strategy (b : Bool) (s : State) :
    (s.setTrunc b).strategy = s.strategy := rfl

@[simp] theorem State.setTrunc_timeout (b : Bool) (s : State) :
    (s.setTrunc b).timeout = s.timeout := rfl

@[simp] theorem State.setTrunc_txLen (b : Bool) (s : State) :
    (s.setTrunc b).txLen = s.txLen := rfl

@[simp] theorem State.setTrunc_maxLen (b : Bool) (s : State) :
    (s.setTrunc b).maxLen = s.maxLen := rfl

@[simp] theorem State.setTrunc_rxLen (b : Bool) (s : State) :
    (s.setTrunc b).rxLen = s.rxLen := rfl

@[simp] theorem State.setTrunc_frameLen (b : Bool) (s : State) :
    (s.setTrunc b).frameLen = s.frameLen := rfl

@[simp] theorem State.setTrunc_frameInfo (b : Bool) (s : State) :
    (s.setTrunc b).frameInfo = s.frameInfo := rfl

@[simp] theorem State.setTrunc_pLen (b : Bool) (s : State) :
    (s.setTrunc b).pLen = s.pLen := rfl

@[simp] theorem State.setTrunc_armed (b : Bool) (s : State) :
    (s.setTrunc b).armed = s.armed := rfl

@[simp] theorem State.setTrunc_pending (b : Bool) (s : State) :
    (s.setTrunc b).pending = s.pending := rfl

@[simp] theorem State.setTrunc_xstate (b : Bool) (s : State) :
    (s.setTrunc b).xstate = s.xstate := rfl

@[simp] theorem State.setTrunc_wstate (b : Bool) (s : State) :
    (s.setTrunc b).wstate = s.wstate := rfl

@[simp] theorem State.setTrunc_prevIrq (b : Bool) (s : State) :
    (s.setTrunc b).prevIrq = s.prevIrq := rfl

@[simp] theorem State.setTrunc_mem (b : Bool) (s : State) :
    (s.setTrunc b).mem = s.mem := rfl

@[simp] theorem State.setTrunc_act (b : Bool) (s : State) :
    (s.setTrunc b).act = s.act := rfl

@[simp] theorem State.setTrunc_held (b : Bool) (s : State) :
    (s.setTrunc b).held = s.held := rfl

@[simp] theorem State.setTrunc_tick (b : Bool) (s : State) :
    (s.setTrunc b).tick = s.tick := rfl

@[simp] theorem State.setTrunc_pin (b : Bool) (s : State) :
    (s.setTrunc b).pin = s.pin := rfl

@[simp] theorem State.setTrunc_rst (b : Bool) (s : State) :
    (s.setTrunc b).rst = s.rst := rfl

@[simp] theorem State.setTrunc_wireIn (b : Bool) (s : State) :
    (s.setTrunc b).wireIn = s.wireIn := rfl

@[simp] theorem State.setTrunc_wireOut (b : Bool) (s : State) :
    (s.setTrunc b).wireOut = s.wireOut := rfl

@[simp] theorem State.setTrunc_peer (b : Bool) (s : State) :
    (s.setTrunc b).peer = s.peer := rfl

@[simp] theorem State.setTrunc_bus (b : Bool) (s : State) :
    (s.setTrunc b).bus = s.bus := rfl

@[simp] theorem State.setTrunc_resp (b : Bool) (s : State) :
    (s.setTrunc b).resp = s.resp := rfl

@[simp] theorem State.setTrunc_turns (b : Bool) (s : State) :
    (s.setTrunc b).turns = s.turns := rfl

@[simp] theorem State.setTrunc_draws (b : Bool) (s : State) :
    (s.setTrunc b).draws = s.draws := rfl

/-! ### Acceptance (R46) -/

@[simp] theorem State.accept_status (s : State) :
    (s.accept).status = { s.status with busy := true, done := false } := rfl

@[simp] theorem State.accept_transport (s : State) :
    (s.accept).transport = s.transport := rfl

@[simp] theorem State.accept_strategy (s : State) :
    (s.accept).strategy = s.strategy := rfl

@[simp] theorem State.accept_timeout (s : State) :
    (s.accept).timeout = s.timeout := rfl

@[simp] theorem State.accept_txLen (s : State) :
    (s.accept).txLen = s.txLen := rfl

@[simp] theorem State.accept_maxLen (s : State) :
    (s.accept).maxLen = s.maxLen := rfl

@[simp] theorem State.accept_rxLen (s : State) :
    (s.accept).rxLen = s.rxLen := rfl

@[simp] theorem State.accept_frameLen (s : State) :
    (s.accept).frameLen = s.frameLen := rfl

@[simp] theorem State.accept_frameInfo (s : State) :
    (s.accept).frameInfo = s.frameInfo := rfl

@[simp] theorem State.accept_pLen (s : State) :
    (s.accept).pLen = s.pLen := rfl

@[simp] theorem State.accept_armed (s : State) :
    (s.accept).armed = s.armed := rfl

@[simp] theorem State.accept_pending (s : State) :
    (s.accept).pending = s.pending := rfl

@[simp] theorem State.accept_xstate (s : State) :
    (s.accept).xstate = s.xstate := rfl

@[simp] theorem State.accept_wstate (s : State) :
    (s.accept).wstate = s.wstate := rfl

@[simp] theorem State.accept_prevIrq (s : State) :
    (s.accept).prevIrq = s.prevIrq := rfl

@[simp] theorem State.accept_mem (s : State) :
    (s.accept).mem = s.mem := rfl

@[simp] theorem State.accept_act (s : State) :
    (s.accept).act = s.act := rfl

@[simp] theorem State.accept_held (s : State) :
    (s.accept).held = s.held := rfl

@[simp] theorem State.accept_tick (s : State) :
    (s.accept).tick = s.tick := rfl

@[simp] theorem State.accept_pin (s : State) :
    (s.accept).pin = s.pin := rfl

@[simp] theorem State.accept_rst (s : State) :
    (s.accept).rst = s.rst := rfl

@[simp] theorem State.accept_wireIn (s : State) :
    (s.accept).wireIn = s.wireIn := rfl

@[simp] theorem State.accept_wireOut (s : State) :
    (s.accept).wireOut = s.wireOut := rfl

@[simp] theorem State.accept_peer (s : State) :
    (s.accept).peer = s.peer := rfl

@[simp] theorem State.accept_bus (s : State) :
    (s.accept).bus = s.bus := rfl

@[simp] theorem State.accept_resp (s : State) :
    (s.accept).resp = s.resp := rfl

@[simp] theorem State.accept_turns (s : State) :
    (s.accept).turns = s.turns := rfl

@[simp] theorem State.accept_draws (s : State) :
    (s.accept).draws = s.draws := rfl

/-! ### Completion (R137) -/

@[simp] theorem State.close_status (r : Option Err) (s : State) :
    (s.close r).status = { s.status with err := r, busy := false, done := true } := rfl

@[simp] theorem State.close_transport (r : Option Err) (s : State) :
    (s.close r).transport = s.transport := rfl

@[simp] theorem State.close_strategy (r : Option Err) (s : State) :
    (s.close r).strategy = s.strategy := rfl

@[simp] theorem State.close_timeout (r : Option Err) (s : State) :
    (s.close r).timeout = s.timeout := rfl

@[simp] theorem State.close_txLen (r : Option Err) (s : State) :
    (s.close r).txLen = s.txLen := rfl

@[simp] theorem State.close_maxLen (r : Option Err) (s : State) :
    (s.close r).maxLen = s.maxLen := rfl

@[simp] theorem State.close_rxLen (r : Option Err) (s : State) :
    (s.close r).rxLen = s.rxLen := rfl

@[simp] theorem State.close_frameLen (r : Option Err) (s : State) :
    (s.close r).frameLen = s.frameLen := rfl

@[simp] theorem State.close_frameInfo (r : Option Err) (s : State) :
    (s.close r).frameInfo = s.frameInfo := rfl

@[simp] theorem State.close_pLen (r : Option Err) (s : State) :
    (s.close r).pLen = s.pLen := rfl

@[simp] theorem State.close_armed (r : Option Err) (s : State) :
    (s.close r).armed = s.armed := rfl

@[simp] theorem State.close_pending (r : Option Err) (s : State) :
    (s.close r).pending = s.pending := rfl

@[simp] theorem State.close_xstate (r : Option Err) (s : State) :
    (s.close r).xstate = s.xstate := rfl

@[simp] theorem State.close_wstate (r : Option Err) (s : State) :
    (s.close r).wstate = .idle := rfl

@[simp] theorem State.close_prevIrq (r : Option Err) (s : State) :
    (s.close r).prevIrq = s.prevIrq := rfl

@[simp] theorem State.close_mem (r : Option Err) (s : State) :
    (s.close r).mem = s.mem := rfl

@[simp] theorem State.close_act (r : Option Err) (s : State) :
    (s.close r).act = .idle := rfl

@[simp] theorem State.close_held (r : Option Err) (s : State) :
    (s.close r).held = s.held := rfl

@[simp] theorem State.close_tick (r : Option Err) (s : State) :
    (s.close r).tick = s.tick := rfl

@[simp] theorem State.close_pin (r : Option Err) (s : State) :
    (s.close r).pin = s.pin := rfl

@[simp] theorem State.close_rst (r : Option Err) (s : State) :
    (s.close r).rst = s.rst := rfl

@[simp] theorem State.close_wireIn (r : Option Err) (s : State) :
    (s.close r).wireIn = s.wireIn := rfl

@[simp] theorem State.close_wireOut (r : Option Err) (s : State) :
    (s.close r).wireOut = s.wireOut := rfl

@[simp] theorem State.close_peer (r : Option Err) (s : State) :
    (s.close r).peer = s.peer := rfl

@[simp] theorem State.close_bus (r : Option Err) (s : State) :
    (s.close r).bus = s.bus := rfl

@[simp] theorem State.close_resp (r : Option Err) (s : State) :
    (s.close r).resp = s.resp := rfl

@[simp] theorem State.close_turns (r : Option Err) (s : State) :
    (s.close r).turns = s.turns := rfl

@[simp] theorem State.close_draws (r : Option Err) (s : State) :
    (s.close r).draws = s.draws := rfl

/-! ### Success (R134) -/

@[simp] theorem State.finish_status (s : State) :
    (s.finish).status = { s.status with err := none, busy := false, done := true } := rfl

@[simp] theorem State.finish_transport (s : State) :
    (s.finish).transport = s.transport := rfl

@[simp] theorem State.finish_strategy (s : State) :
    (s.finish).strategy = s.strategy := rfl

@[simp] theorem State.finish_timeout (s : State) :
    (s.finish).timeout = s.timeout := rfl

@[simp] theorem State.finish_txLen (s : State) :
    (s.finish).txLen = s.txLen := rfl

@[simp] theorem State.finish_maxLen (s : State) :
    (s.finish).maxLen = s.maxLen := rfl

@[simp] theorem State.finish_rxLen (s : State) :
    (s.finish).rxLen = s.rxLen := rfl

@[simp] theorem State.finish_frameLen (s : State) :
    (s.finish).frameLen = s.frameLen := rfl

@[simp] theorem State.finish_frameInfo (s : State) :
    (s.finish).frameInfo = s.frameInfo := rfl

@[simp] theorem State.finish_pLen (s : State) :
    (s.finish).pLen = s.pLen := rfl

@[simp] theorem State.finish_armed (s : State) :
    (s.finish).armed = s.armed := rfl

@[simp] theorem State.finish_pending (s : State) :
    (s.finish).pending = s.pending := rfl

@[simp] theorem State.finish_xstate (s : State) :
    (s.finish).xstate = s.xstate := rfl

@[simp] theorem State.finish_wstate (s : State) :
    (s.finish).wstate = .idle := rfl

@[simp] theorem State.finish_prevIrq (s : State) :
    (s.finish).prevIrq = s.prevIrq := rfl

@[simp] theorem State.finish_mem (s : State) :
    (s.finish).mem = s.mem := rfl

@[simp] theorem State.finish_act (s : State) :
    (s.finish).act = .idle := rfl

@[simp] theorem State.finish_held (s : State) :
    (s.finish).held = s.held := rfl

@[simp] theorem State.finish_tick (s : State) :
    (s.finish).tick = s.tick := rfl

@[simp] theorem State.finish_pin (s : State) :
    (s.finish).pin = s.pin := rfl

@[simp] theorem State.finish_rst (s : State) :
    (s.finish).rst = s.rst := rfl

@[simp] theorem State.finish_wireIn (s : State) :
    (s.finish).wireIn = s.wireIn := rfl

@[simp] theorem State.finish_wireOut (s : State) :
    (s.finish).wireOut = s.wireOut := rfl

@[simp] theorem State.finish_peer (s : State) :
    (s.finish).peer = s.peer := rfl

@[simp] theorem State.finish_bus (s : State) :
    (s.finish).bus = s.bus := rfl

@[simp] theorem State.finish_resp (s : State) :
    (s.finish).resp = s.resp := rfl

@[simp] theorem State.finish_turns (s : State) :
    (s.finish).turns = s.turns := rfl

@[simp] theorem State.finish_draws (s : State) :
    (s.finish).draws = s.draws := rfl

/-! ### Stores to a buffer -/

@[simp] theorem State.store_status (s : State) (a : Nat) (bs : List Byte) :
    (s.store a bs).status = s.status := rfl

@[simp] theorem State.store_transport (s : State) (a : Nat) (bs : List Byte) :
    (s.store a bs).transport = s.transport := rfl

@[simp] theorem State.store_strategy (s : State) (a : Nat) (bs : List Byte) :
    (s.store a bs).strategy = s.strategy := rfl

@[simp] theorem State.store_timeout (s : State) (a : Nat) (bs : List Byte) :
    (s.store a bs).timeout = s.timeout := rfl

@[simp] theorem State.store_txLen (s : State) (a : Nat) (bs : List Byte) :
    (s.store a bs).txLen = s.txLen := rfl

@[simp] theorem State.store_maxLen (s : State) (a : Nat) (bs : List Byte) :
    (s.store a bs).maxLen = s.maxLen := rfl

@[simp] theorem State.store_rxLen (s : State) (a : Nat) (bs : List Byte) :
    (s.store a bs).rxLen = s.rxLen := rfl

@[simp] theorem State.store_frameLen (s : State) (a : Nat) (bs : List Byte) :
    (s.store a bs).frameLen = s.frameLen := rfl

@[simp] theorem State.store_frameInfo (s : State) (a : Nat) (bs : List Byte) :
    (s.store a bs).frameInfo = s.frameInfo := rfl

@[simp] theorem State.store_pLen (s : State) (a : Nat) (bs : List Byte) :
    (s.store a bs).pLen = s.pLen := rfl

@[simp] theorem State.store_armed (s : State) (a : Nat) (bs : List Byte) :
    (s.store a bs).armed = s.armed := rfl

@[simp] theorem State.store_pending (s : State) (a : Nat) (bs : List Byte) :
    (s.store a bs).pending = s.pending := rfl

@[simp] theorem State.store_xstate (s : State) (a : Nat) (bs : List Byte) :
    (s.store a bs).xstate = s.xstate := rfl

@[simp] theorem State.store_wstate (s : State) (a : Nat) (bs : List Byte) :
    (s.store a bs).wstate = s.wstate := rfl

@[simp] theorem State.store_prevIrq (s : State) (a : Nat) (bs : List Byte) :
    (s.store a bs).prevIrq = s.prevIrq := rfl

@[simp] theorem State.store_mem (s : State) (a : Nat) (bs : List Byte) :
    (s.store a bs).mem = s.mem.writeBytes a bs := rfl

@[simp] theorem State.store_act (s : State) (a : Nat) (bs : List Byte) :
    (s.store a bs).act = s.act := rfl

@[simp] theorem State.store_held (s : State) (a : Nat) (bs : List Byte) :
    (s.store a bs).held = s.held := rfl

@[simp] theorem State.store_tick (s : State) (a : Nat) (bs : List Byte) :
    (s.store a bs).tick = s.tick := rfl

@[simp] theorem State.store_pin (s : State) (a : Nat) (bs : List Byte) :
    (s.store a bs).pin = s.pin := rfl

@[simp] theorem State.store_rst (s : State) (a : Nat) (bs : List Byte) :
    (s.store a bs).rst = s.rst := rfl

@[simp] theorem State.store_wireIn (s : State) (a : Nat) (bs : List Byte) :
    (s.store a bs).wireIn = s.wireIn := rfl

@[simp] theorem State.store_wireOut (s : State) (a : Nat) (bs : List Byte) :
    (s.store a bs).wireOut = s.wireOut := rfl

@[simp] theorem State.store_peer (s : State) (a : Nat) (bs : List Byte) :
    (s.store a bs).peer = s.peer := rfl

@[simp] theorem State.store_bus (s : State) (a : Nat) (bs : List Byte) :
    (s.store a bs).bus = s.bus := rfl

@[simp] theorem State.store_resp (s : State) (a : Nat) (bs : List Byte) :
    (s.store a bs).resp = s.resp := rfl

@[simp] theorem State.store_turns (s : State) (a : Nat) (bs : List Byte) :
    (s.store a bs).turns = s.turns := rfl

@[simp] theorem State.store_draws (s : State) (a : Nat) (bs : List Byte) :
    (s.store a bs).draws = s.draws := rfl

/-! ### ENCODE's frame (R71) -/

@[simp] theorem State.putFrame_status (pd : List Byte) (s : State) :
    (s.putFrame pd).status = s.status := rfl

@[simp] theorem State.putFrame_transport (pd : List Byte) (s : State) :
    (s.putFrame pd).transport = s.transport := rfl

@[simp] theorem State.putFrame_strategy (pd : List Byte) (s : State) :
    (s.putFrame pd).strategy = s.strategy := rfl

@[simp] theorem State.putFrame_timeout (pd : List Byte) (s : State) :
    (s.putFrame pd).timeout = s.timeout := rfl

@[simp] theorem State.putFrame_txLen (pd : List Byte) (s : State) :
    (s.putFrame pd).txLen = s.txLen := rfl

@[simp] theorem State.putFrame_maxLen (pd : List Byte) (s : State) :
    (s.putFrame pd).maxLen = s.maxLen := rfl

@[simp] theorem State.putFrame_rxLen (pd : List Byte) (s : State) :
    (s.putFrame pd).rxLen = s.rxLen := rfl

@[simp] theorem State.putFrame_frameLen (pd : List Byte) (s : State) :
    (s.putFrame pd).frameLen = BitVec.ofNat 8 (pd.length + 8) := rfl

@[simp] theorem State.putFrame_frameInfo (pd : List Byte) (s : State) :
    (s.putFrame pd).frameInfo = frameInfoWord (BitVec.ofNat 8 (pd.length + 1)) (lcs (BitVec.ofNat 8 (pd.length + 1)))
      Config.tfiH2c (dcsOf Config.tfiH2c pd) := rfl

@[simp] theorem State.putFrame_pLen (pd : List Byte) (s : State) :
    (s.putFrame pd).pLen = s.pLen := rfl

@[simp] theorem State.putFrame_armed (pd : List Byte) (s : State) :
    (s.putFrame pd).armed = s.armed := rfl

@[simp] theorem State.putFrame_pending (pd : List Byte) (s : State) :
    (s.putFrame pd).pending = s.pending := rfl

@[simp] theorem State.putFrame_xstate (pd : List Byte) (s : State) :
    (s.putFrame pd).xstate = s.xstate := rfl

@[simp] theorem State.putFrame_wstate (pd : List Byte) (s : State) :
    (s.putFrame pd).wstate = s.wstate := rfl

@[simp] theorem State.putFrame_prevIrq (pd : List Byte) (s : State) :
    (s.putFrame pd).prevIrq = s.prevIrq := rfl

@[simp] theorem State.putFrame_mem (pd : List Byte) (s : State) :
    (s.putFrame pd).mem = s.mem.writeBytes frameBase (hostFrame pd) := rfl

@[simp] theorem State.putFrame_act (pd : List Byte) (s : State) :
    (s.putFrame pd).act = s.act := rfl

@[simp] theorem State.putFrame_held (pd : List Byte) (s : State) :
    (s.putFrame pd).held = s.held := rfl

@[simp] theorem State.putFrame_tick (pd : List Byte) (s : State) :
    (s.putFrame pd).tick = s.tick := rfl

@[simp] theorem State.putFrame_pin (pd : List Byte) (s : State) :
    (s.putFrame pd).pin = s.pin := rfl

@[simp] theorem State.putFrame_rst (pd : List Byte) (s : State) :
    (s.putFrame pd).rst = s.rst := rfl

@[simp] theorem State.putFrame_wireIn (pd : List Byte) (s : State) :
    (s.putFrame pd).wireIn = s.wireIn := rfl

@[simp] theorem State.putFrame_wireOut (pd : List Byte) (s : State) :
    (s.putFrame pd).wireOut = s.wireOut := rfl

@[simp] theorem State.putFrame_peer (pd : List Byte) (s : State) :
    (s.putFrame pd).peer = s.peer := rfl

@[simp] theorem State.putFrame_bus (pd : List Byte) (s : State) :
    (s.putFrame pd).bus = s.bus := rfl

@[simp] theorem State.putFrame_resp (pd : List Byte) (s : State) :
    (s.putFrame pd).resp = s.resp := rfl

@[simp] theorem State.putFrame_turns (pd : List Byte) (s : State) :
    (s.putFrame pd).turns = s.turns := rfl

@[simp] theorem State.putFrame_draws (pd : List Byte) (s : State) :
    (s.putFrame pd).draws = s.draws := rfl

/-! ### An error outside the XACT operations (R134) -/

@[simp] theorem State.raise_other_status (e : Err) (s : State) :
    (s.raise .other e).status = { s.status with err := some e, busy := false, done := true } := rfl

@[simp] theorem State.raise_other_transport (e : Err) (s : State) :
    (s.raise .other e).transport = s.transport := rfl

@[simp] theorem State.raise_other_strategy (e : Err) (s : State) :
    (s.raise .other e).strategy = s.strategy := rfl

@[simp] theorem State.raise_other_timeout (e : Err) (s : State) :
    (s.raise .other e).timeout = s.timeout := rfl

@[simp] theorem State.raise_other_txLen (e : Err) (s : State) :
    (s.raise .other e).txLen = s.txLen := rfl

@[simp] theorem State.raise_other_maxLen (e : Err) (s : State) :
    (s.raise .other e).maxLen = s.maxLen := rfl

@[simp] theorem State.raise_other_rxLen (e : Err) (s : State) :
    (s.raise .other e).rxLen = s.rxLen := rfl

@[simp] theorem State.raise_other_frameLen (e : Err) (s : State) :
    (s.raise .other e).frameLen = s.frameLen := rfl

@[simp] theorem State.raise_other_frameInfo (e : Err) (s : State) :
    (s.raise .other e).frameInfo = s.frameInfo := rfl

@[simp] theorem State.raise_other_pLen (e : Err) (s : State) :
    (s.raise .other e).pLen = s.pLen := rfl

@[simp] theorem State.raise_other_armed (e : Err) (s : State) :
    (s.raise .other e).armed = s.armed := rfl

@[simp] theorem State.raise_other_pending (e : Err) (s : State) :
    (s.raise .other e).pending = s.pending := rfl

@[simp] theorem State.raise_other_xstate (e : Err) (s : State) :
    (s.raise .other e).xstate = s.xstate := rfl

@[simp] theorem State.raise_other_wstate (e : Err) (s : State) :
    (s.raise .other e).wstate = .idle := rfl

@[simp] theorem State.raise_other_prevIrq (e : Err) (s : State) :
    (s.raise .other e).prevIrq = s.prevIrq := rfl

@[simp] theorem State.raise_other_mem (e : Err) (s : State) :
    (s.raise .other e).mem = s.mem := rfl

@[simp] theorem State.raise_other_act (e : Err) (s : State) :
    (s.raise .other e).act = .idle := rfl

@[simp] theorem State.raise_other_held (e : Err) (s : State) :
    (s.raise .other e).held = s.held := rfl

@[simp] theorem State.raise_other_tick (e : Err) (s : State) :
    (s.raise .other e).tick = s.tick := rfl

@[simp] theorem State.raise_other_pin (e : Err) (s : State) :
    (s.raise .other e).pin = s.pin := rfl

@[simp] theorem State.raise_other_rst (e : Err) (s : State) :
    (s.raise .other e).rst = s.rst := rfl

@[simp] theorem State.raise_other_wireIn (e : Err) (s : State) :
    (s.raise .other e).wireIn = s.wireIn := rfl

@[simp] theorem State.raise_other_wireOut (e : Err) (s : State) :
    (s.raise .other e).wireOut = s.wireOut := rfl

@[simp] theorem State.raise_other_peer (e : Err) (s : State) :
    (s.raise .other e).peer = s.peer := rfl

@[simp] theorem State.raise_other_bus (e : Err) (s : State) :
    (s.raise .other e).bus = s.bus := rfl

@[simp] theorem State.raise_other_resp (e : Err) (s : State) :
    (s.raise .other e).resp = s.resp := rfl

@[simp] theorem State.raise_other_turns (e : Err) (s : State) :
    (s.raise .other e).turns = s.turns := rfl

@[simp] theorem State.raise_other_draws (e : Err) (s : State) :
    (s.raise .other e).draws = s.draws := rfl

/-! ### An error of XACT_SEND (R130) -/

@[simp] theorem State.raise_send_status (e : Err) (s : State) :
    (s.raise .xactSend e).status = { s.status with err := some e, busy := false, done := true } := rfl

@[simp] theorem State.raise_send_transport (e : Err) (s : State) :
    (s.raise .xactSend e).transport = s.transport := rfl

@[simp] theorem State.raise_send_strategy (e : Err) (s : State) :
    (s.raise .xactSend e).strategy = s.strategy := rfl

@[simp] theorem State.raise_send_timeout (e : Err) (s : State) :
    (s.raise .xactSend e).timeout = s.timeout := rfl

@[simp] theorem State.raise_send_txLen (e : Err) (s : State) :
    (s.raise .xactSend e).txLen = s.txLen := rfl

@[simp] theorem State.raise_send_maxLen (e : Err) (s : State) :
    (s.raise .xactSend e).maxLen = s.maxLen := rfl

@[simp] theorem State.raise_send_rxLen (e : Err) (s : State) :
    (s.raise .xactSend e).rxLen = s.rxLen := rfl

@[simp] theorem State.raise_send_frameLen (e : Err) (s : State) :
    (s.raise .xactSend e).frameLen = s.frameLen := rfl

@[simp] theorem State.raise_send_frameInfo (e : Err) (s : State) :
    (s.raise .xactSend e).frameInfo = s.frameInfo := rfl

@[simp] theorem State.raise_send_pLen (e : Err) (s : State) :
    (s.raise .xactSend e).pLen = s.pLen := rfl

@[simp] theorem State.raise_send_armed (e : Err) (s : State) :
    (s.raise .xactSend e).armed = s.armed := rfl

@[simp] theorem State.raise_send_pending (e : Err) (s : State) :
    (s.raise .xactSend e).pending = s.pending := rfl

@[simp] theorem State.raise_send_xstate (e : Err) (s : State) :
    (s.raise .xactSend e).xstate = .idle := rfl

@[simp] theorem State.raise_send_wstate (e : Err) (s : State) :
    (s.raise .xactSend e).wstate = .idle := rfl

@[simp] theorem State.raise_send_prevIrq (e : Err) (s : State) :
    (s.raise .xactSend e).prevIrq = s.prevIrq := rfl

@[simp] theorem State.raise_send_mem (e : Err) (s : State) :
    (s.raise .xactSend e).mem = s.mem := rfl

@[simp] theorem State.raise_send_act (e : Err) (s : State) :
    (s.raise .xactSend e).act = .idle := rfl

@[simp] theorem State.raise_send_held (e : Err) (s : State) :
    (s.raise .xactSend e).held = s.held := rfl

@[simp] theorem State.raise_send_tick (e : Err) (s : State) :
    (s.raise .xactSend e).tick = s.tick := rfl

@[simp] theorem State.raise_send_pin (e : Err) (s : State) :
    (s.raise .xactSend e).pin = s.pin := rfl

@[simp] theorem State.raise_send_rst (e : Err) (s : State) :
    (s.raise .xactSend e).rst = s.rst := rfl

@[simp] theorem State.raise_send_wireIn (e : Err) (s : State) :
    (s.raise .xactSend e).wireIn = s.wireIn := rfl

@[simp] theorem State.raise_send_wireOut (e : Err) (s : State) :
    (s.raise .xactSend e).wireOut = s.wireOut := rfl

@[simp] theorem State.raise_send_peer (e : Err) (s : State) :
    (s.raise .xactSend e).peer = s.peer := rfl

@[simp] theorem State.raise_send_bus (e : Err) (s : State) :
    (s.raise .xactSend e).bus = s.bus := rfl

@[simp] theorem State.raise_send_resp (e : Err) (s : State) :
    (s.raise .xactSend e).resp = s.resp := rfl

@[simp] theorem State.raise_send_turns (e : Err) (s : State) :
    (s.raise .xactSend e).turns = s.turns := rfl

@[simp] theorem State.raise_send_draws (e : Err) (s : State) :
    (s.raise .xactSend e).draws = s.draws := rfl

/-! ### An error of XACT_READ (R130) -/

@[simp] theorem State.raise_read_status (e : Err) (s : State) :
    (s.raise .xactRead e).status = { s.status with err := some e, busy := false, done := true, trunc := false } := rfl

@[simp] theorem State.raise_read_transport (e : Err) (s : State) :
    (s.raise .xactRead e).transport = s.transport := rfl

@[simp] theorem State.raise_read_strategy (e : Err) (s : State) :
    (s.raise .xactRead e).strategy = s.strategy := rfl

@[simp] theorem State.raise_read_timeout (e : Err) (s : State) :
    (s.raise .xactRead e).timeout = s.timeout := rfl

@[simp] theorem State.raise_read_txLen (e : Err) (s : State) :
    (s.raise .xactRead e).txLen = s.txLen := rfl

@[simp] theorem State.raise_read_maxLen (e : Err) (s : State) :
    (s.raise .xactRead e).maxLen = s.maxLen := rfl

@[simp] theorem State.raise_read_rxLen (e : Err) (s : State) :
    (s.raise .xactRead e).rxLen = s.rxLen := rfl

@[simp] theorem State.raise_read_frameLen (e : Err) (s : State) :
    (s.raise .xactRead e).frameLen = s.frameLen := rfl

@[simp] theorem State.raise_read_frameInfo (e : Err) (s : State) :
    (s.raise .xactRead e).frameInfo = 0 := rfl

@[simp] theorem State.raise_read_pLen (e : Err) (s : State) :
    (s.raise .xactRead e).pLen = 0 := rfl

@[simp] theorem State.raise_read_armed (e : Err) (s : State) :
    (s.raise .xactRead e).armed = s.armed := rfl

@[simp] theorem State.raise_read_pending (e : Err) (s : State) :
    (s.raise .xactRead e).pending = s.pending := rfl

@[simp] theorem State.raise_read_xstate (e : Err) (s : State) :
    (s.raise .xactRead e).xstate = .idle := rfl

@[simp] theorem State.raise_read_wstate (e : Err) (s : State) :
    (s.raise .xactRead e).wstate = .idle := rfl

@[simp] theorem State.raise_read_prevIrq (e : Err) (s : State) :
    (s.raise .xactRead e).prevIrq = s.prevIrq := rfl

@[simp] theorem State.raise_read_mem (e : Err) (s : State) :
    (s.raise .xactRead e).mem = s.mem := rfl

@[simp] theorem State.raise_read_act (e : Err) (s : State) :
    (s.raise .xactRead e).act = .idle := rfl

@[simp] theorem State.raise_read_held (e : Err) (s : State) :
    (s.raise .xactRead e).held = s.held := rfl

@[simp] theorem State.raise_read_tick (e : Err) (s : State) :
    (s.raise .xactRead e).tick = s.tick := rfl

@[simp] theorem State.raise_read_pin (e : Err) (s : State) :
    (s.raise .xactRead e).pin = s.pin := rfl

@[simp] theorem State.raise_read_rst (e : Err) (s : State) :
    (s.raise .xactRead e).rst = s.rst := rfl

@[simp] theorem State.raise_read_wireIn (e : Err) (s : State) :
    (s.raise .xactRead e).wireIn = s.wireIn := rfl

@[simp] theorem State.raise_read_wireOut (e : Err) (s : State) :
    (s.raise .xactRead e).wireOut = s.wireOut := rfl

@[simp] theorem State.raise_read_peer (e : Err) (s : State) :
    (s.raise .xactRead e).peer = s.peer := rfl

@[simp] theorem State.raise_read_bus (e : Err) (s : State) :
    (s.raise .xactRead e).bus = s.bus := rfl

@[simp] theorem State.raise_read_resp (e : Err) (s : State) :
    (s.raise .xactRead e).resp = s.resp := rfl

@[simp] theorem State.raise_read_turns (e : Err) (s : State) :
    (s.raise .xactRead e).turns = s.turns := rfl

@[simp] theorem State.raise_read_draws (e : Err) (s : State) :
    (s.raise .xactRead e).draws = s.draws := rfl

/-! ### The block's reset (R149) -/

@[simp] theorem State.blockReset_status (s : State) :
    (s.blockReset).status = State.reset.status := rfl

@[simp] theorem State.blockReset_transport (s : State) :
    (s.blockReset).transport = State.reset.transport := rfl

@[simp] theorem State.blockReset_strategy (s : State) :
    (s.blockReset).strategy = State.reset.strategy := rfl

@[simp] theorem State.blockReset_timeout (s : State) :
    (s.blockReset).timeout = State.reset.timeout := rfl

@[simp] theorem State.blockReset_txLen (s : State) :
    (s.blockReset).txLen = State.reset.txLen := rfl

@[simp] theorem State.blockReset_maxLen (s : State) :
    (s.blockReset).maxLen = State.reset.maxLen := rfl

@[simp] theorem State.blockReset_rxLen (s : State) :
    (s.blockReset).rxLen = State.reset.rxLen := rfl

@[simp] theorem State.blockReset_frameLen (s : State) :
    (s.blockReset).frameLen = State.reset.frameLen := rfl

@[simp] theorem State.blockReset_frameInfo (s : State) :
    (s.blockReset).frameInfo = State.reset.frameInfo := rfl

@[simp] theorem State.blockReset_pLen (s : State) :
    (s.blockReset).pLen = State.reset.pLen := rfl

@[simp] theorem State.blockReset_armed (s : State) :
    (s.blockReset).armed = State.reset.armed := rfl

@[simp] theorem State.blockReset_pending (s : State) :
    (s.blockReset).pending = State.reset.pending := rfl

@[simp] theorem State.blockReset_xstate (s : State) :
    (s.blockReset).xstate = State.reset.xstate := rfl

@[simp] theorem State.blockReset_wstate (s : State) :
    (s.blockReset).wstate = State.reset.wstate := rfl

@[simp] theorem State.blockReset_prevIrq (s : State) :
    (s.blockReset).prevIrq = State.reset.prevIrq := rfl

@[simp] theorem State.blockReset_mem (s : State) :
    (s.blockReset).mem = State.reset.mem := rfl

@[simp] theorem State.blockReset_act (s : State) :
    (s.blockReset).act = State.reset.act := rfl

@[simp] theorem State.blockReset_held (s : State) :
    (s.blockReset).held = State.reset.held := rfl

@[simp] theorem State.blockReset_tick (s : State) :
    (s.blockReset).tick = s.tick := rfl

@[simp] theorem State.blockReset_pin (s : State) :
    (s.blockReset).pin = s.pin := rfl

@[simp] theorem State.blockReset_rst (s : State) :
    (s.blockReset).rst = s.rst := rfl

@[simp] theorem State.blockReset_wireIn (s : State) :
    (s.blockReset).wireIn = s.wireIn := rfl

@[simp] theorem State.blockReset_wireOut (s : State) :
    (s.blockReset).wireOut = s.wireOut := rfl

@[simp] theorem State.blockReset_peer (s : State) :
    (s.blockReset).peer = s.peer := rfl

@[simp] theorem State.blockReset_bus (s : State) :
    (s.blockReset).bus = s.bus := rfl

@[simp] theorem State.blockReset_resp (s : State) :
    (s.blockReset).resp = s.resp := rfl

@[simp] theorem State.blockReset_turns (s : State) :
    (s.blockReset).turns = s.turns := rfl

@[simp] theorem State.blockReset_draws (s : State) :
    (s.blockReset).draws = s.draws := rfl

end Sys2Proof.Machine
end

