-- ==== Sys2Proof/Laws/Ops.lean ====
section
/-! SUPPORT. One lemma for each shared operation of Machine/Ops.lean, FrameCodec.lean, ReadyWaiter.lean and
Transaction.lean, which says once everything it can do; proofs cite these and do not unfold the
operations. -/

namespace Sys2Proof.Machine

/-! ### Reads of cells as inputs -/

theorem State.need_of_some {s : State} {a n : Nat} {bs : List Byte}
    (h : s.mem.readBytes? a n = some bs) (k : List Byte → Out) : s.need a n k = k bs := by
  simp only [State.need, h]

theorem State.need_of_none {s : State} {a n : Nat}
    (h : s.mem.readBytes? a n = none) (k : List Byte → Out) :
    s.need a n k = .fault .unwrittenRead := by
  simp only [State.need, h]

/-- Everything `need` can do: it goes on with the bytes read, or it is the fault of R35. -/
theorem State.need_cases (s : State) (a n : Nat) (k : List Byte → Out) :
    (∃ bs, s.mem.readBytes? a n = some bs ∧ bs.length = n ∧ s.need a n k = k bs)
      ∨ (s.mem.readBytes? a n = none ∧ s.need a n k = .fault .unwrittenRead) := by
  cases h : s.mem.readBytes? a n with
  | none => exact .inr ⟨rfl, State.need_of_none h k⟩
  | some bs => exact .inl ⟨bs, rfl, Memory.length_of_readBytes? h, State.need_of_some h k⟩

theorem State.needByte_of_some {s : State} {a : Nat} {b : Byte}
    (h : s.mem.read? a = some b) (k : Byte → Out) : s.needByte a k = k b := by
  simp only [State.needByte, h]

/-- Everything `needByte` can do. -/
theorem State.needByte_cases (s : State) (a : Nat) (k : Byte → Out) :
    (∃ b, s.mem.read? a = some b ∧ s.needByte a k = k b)
      ∨ (s.mem.read? a = none ∧ s.needByte a k = .fault .unwrittenRead) := by
  cases h : s.mem.read? a with
  | none => exact .inr ⟨rfl, by simp only [State.needByte, h]⟩
  | some b => exact .inl ⟨b, rfl, State.needByte_of_some h k⟩

/-- One byte of a run that is read. -/
theorem Memory.read?_of_readBytes? {m : Memory} {a n : Nat} {bs : List Byte}
    (h : m.readBytes? a n = some bs) {i : Nat} (hi : i < n) :
    m.read? (a + i) = some (bs.getD i 0) := by
  obtain ⟨hl, hr⟩ := (Memory.readBytes?_eq_some _ _ _ _).mp h
  rw [hr i hi, List.getD_eq_getElem?_getD, List.getElem?_eq_getElem (by omega)]
  rfl

/-! ### Checksums and words -/

theorem dsum_append (a b : List Byte) : dsum (a ++ b) = dsum a + dsum b := by
  induction a with
  | nil => simp [dsum]
  | cons x xs ih => simp only [List.cons_append, dsum, ih, BitVec.add_assoc]

theorem lcsOk_eq_false {len l : Byte} : lcsOk len l = false ↔ len + l ≠ 0 := by
  simp [lcsOk]

theorem dsumOk_eq_false {s : List Byte} : dsumOk s = false ↔ dsum s ≠ 0 := by
  simp [dsumOk]

theorem frameInfoWord_len (len lcs dir dcs : Byte) :
    (frameInfoWord len lcs dir dcs).extractLsb' 0 8 = len := by
  unfold frameInfoWord
  ext i hi
  simp only [BitVec.getElem_extractLsb', BitVec.getLsbD_append, Nat.zero_add]
  simp [hi]

theorem frameInfoWord_dir (len lcs dir dcs : Byte) :
    (frameInfoWord len lcs dir dcs).extractLsb' 16 8 = dir := by
  unfold frameInfoWord
  ext i hi
  simp only [BitVec.getElem_extractLsb', BitVec.getLsbD_append]
  simp [hi, show ¬(16 + i < 8) by omega, show ¬(16 + i - 8 < 8) by omega,
    show 16 + i - 8 - 8 = i by omega]

theorem hostFrame_length (pd : List Byte) : (hostFrame pd).length = pd.length + 8 := by
  simp [hostFrame, Config.preamble]

/-- The frame of a payload that fits, as R71 writes it. -/
theorem hostFrame_eq {n : Byte} {pd : List Byte} (h : pd.length = n.toNat) :
    hostFrame pd = [0x00, 0x00, 0xFF, n + 1, 0 - (n + 1), 0xD4] ++ pd
      ++ [~~~(dsum (0xD4 :: pd)) + 1, 0x00] := by
  have : BitVec.ofNat 8 (pd.length + 1) = n + 1 := by
    apply BitVec.eq_of_toNat_eq
    simp [h]
  simp [hostFrame, this, Config.preamble, lcs, Config.tfiH2c, dcsOf, Config.postamble]

/-! ### Completion -/

theorem completed_finish (s : State) : Completed s.finish none := ⟨rfl, rfl, rfl, rfl, rfl⟩

theorem completed_raise (k : OpKind) (e : Err) (s : State) : Completed (s.raise k e) (some e) := by
  cases k <;> exact ⟨rfl, rfl, rfl, rfl, rfl⟩

/-- `raise` leaves the buffers alone. -/
@[simp] theorem State.raise_mem (k : OpKind) (e : Err) (s : State) : (s.raise k e).mem = s.mem := by
  cases k <;> rfl

/-- A codec operation's end. -/
theorem State.endCodec_eq (s : State) (r : Option Err) : s.endCodec r = .next (s.close r) := by
  cases r <;> rfl

/-! ### The sentinel comparison -/

theorem sentinelClass_ne_none (s : List Byte) : sentinelClass s ≠ .none := by
  unfold sentinelClass
  split_ifs <;> decide

theorem sentinelClass_take (s : List Byte) : sentinelClass (s.take 6) = sentinelClass s := by
  simp only [sentinelClass, List.take_take, Nat.min_self]

theorem sentinelClass_short {s : List Byte} (h : s.length < 6) : sentinelClass s = .other := by
  have hl : (s.take 6).length < 6 := by simp; omega
  have h1 : s.take 6 ≠ Config.ack := fun e => by rw [e] at hl; exact absurd hl (by decide)
  have h2 : s.take 6 ≠ Config.nack := fun e => by rw [e] at hl; exact absurd hl (by decide)
  simp only [sentinelClass, if_neg h1, if_neg h2]

theorem sentinelClass_eq_ack {s : List Byte} : sentinelClass s = .ack ↔ s.take 6 = Config.ack := by
  unfold sentinelClass
  split_ifs with h1 h2
  · simp [h1]
  · simp [h1]
  · simp [h1]

theorem sentinelClass_eq_nack {s : List Byte} :
    sentinelClass s = .nack ↔ s.take 6 = Config.nack := by
  unfold sentinelClass
  split_ifs with h1 h2
  · simp [h1, show Config.ack ≠ Config.nack by decide]
  · simp [h2]
  · simp [h2]

/-- `classifyRx` on RXLEN written bytes goes on with their class. -/
theorem State.classifyRx_of_some {s : State} {n : Nat} {b : List Byte}
    (h : s.mem.readBytes? rxBase n = some b) (k : Sent → Out) :
    s.classifyRx n k = k (sentinelClass b) := by
  have hl := Memory.length_of_readBytes? h
  unfold State.classifyRx
  split
  · rename_i h6
    have := Memory.readBytes?_sub h 0 6 (by omega)
    simp only [Nat.add_zero, List.drop_zero] at this
    rw [State.need_of_some this, sentinelClass_take]
  · rw [sentinelClass_short (by omega)]

/-- `classifyRx` of six or more bytes needs the first six only. -/
theorem State.classifyRx_of_six {s : State} {n : Nat} {b : List Byte} (hn : 6 ≤ n)
    (h : s.mem.readBytes? rxBase 6 = some b) (k : Sent → Out) :
    s.classifyRx n k = k (sentinelClass b) := by
  unfold State.classifyRx
  rw [if_pos hn, State.need_of_some h]

/-- `classifyRx` of fewer than six bytes reads nothing. -/
theorem State.classifyRx_short {s : State} {n : Nat} (hn : n < 6) (k : Sent → Out) :
    s.classifyRx n k = k .other := by
  unfold State.classifyRx
  rw [if_neg (by omega)]

/-- Everything `classifyRx` can do: the class of the first six bytes, OTHER without reading any, or the
fault of R35. -/
theorem State.classifyRx_cases (s : State) (n : Nat) (k : Sent → Out) :
    (∃ c, c ≠ .none ∧ s.classifyRx n k = k c) ∨ s.classifyRx n k = .fault .unwrittenRead := by
  unfold State.classifyRx
  split
  · obtain ⟨b, _, _, h⟩ | ⟨_, h⟩ := s.need_cases rxBase 6 fun b => k (sentinelClass b)
    · exact .inl ⟨_, sentinelClass_ne_none b, h⟩
    · exact .inr h
  · exact .inl ⟨.other, by decide, rfl⟩

/-! ### Decoding -/

/-- The state a decode leaves its operation in: its outputs written, the operation not yet ended. -/
def State.afterDecode (s : State) (d : Decoded) : State :=
  { s.store payBase d.payload with
    status := { s.status with sent := d.sent, trunc := d.trunc }
    pLen := d.pLen
    frameInfo := d.frameInfo }

/-- Bytes of RXBUF that are held are read. -/
theorem RxHolds.readBytes? {s : State} {b : List Byte} {k : Nat} (h : RxHolds s b k)
    {j n : Nat} (hk : j + n ≤ k) (hl : j + n ≤ b.length) :
    s.mem.readBytes? (rxBase + j) n = some ((b.drop j).take n) := by
  refine (Memory.readBytes?_eq_some _ _ _ _).mpr ⟨by simp; omega, fun i hi => ?_⟩
  rw [List.getElem?_take_of_lt hi, List.getElem?_drop, ← h (j + i) (by omega)]
  simp only [rxBase, Nat.add_assoc]

/-- One byte of RXBUF that is held is read. -/
theorem RxHolds.read? {s : State} {b : List Byte} {k : Nat} (h : RxHolds s b k) {j : Nat} (hk : j < k)
    (hl : j < b.length) : s.mem.read? (rxBase + j) = some (b.getD j 0) := by
  rw [show rxBase + j = 0x300 + j from rfl, h j hk, List.getD_eq_getElem?_getD,
    List.getElem?_eq_getElem hl]
  rfl

theorem RxHolds.mono {s : State} {b : List Byte} {k j : Nat} (h : RxHolds s b k) (hj : j ≤ k) :
    RxHolds s b j := fun i hi => h i (by omega)

/-- RXLEN written bytes are held as far as one asks. -/
theorem rxHolds_of_readBytes? {s : State} {b : List Byte} {n k : Nat}
    (h : s.mem.readBytes? rxBase n = some b) (hk : k ≤ n) : RxHolds s b k :=
  fun j hj => ((Memory.readBytes?_eq_some _ _ _ _).mp h).2 j (by omega)

theorem six_le_decodeNeeds (cut : Option Byte) (len : Byte) : 6 ≤ decodeNeeds cut len := by
  unfold decodeNeeds
  split
  · omega
  · split <;> omega

/-- The reads of a decode never reach behind the string. -/
theorem decodeReads_le (cut : Option Byte) (b : List Byte) : decodeReads cut b ≤ b.length := by
  unfold decodeReads
  split_ifs with h1 h2 h3 h4
  · omega
  · omega
  · omega
  · omega
  · simp only [not_or] at h4; omega

/-- What a decode of five to 262 bytes reads at least. -/
theorem decodeReads_ge {cut : Option Byte} {b : List Byte} (h5 : 5 ≤ b.length) (hn : b.length ≤ 262) :
    3 ≤ decodeReads cut b ∧ (b.take 3 = Config.preamble → 5 ≤ decodeReads cut b)
      ∧ (6 ≤ b.length → 6 ≤ decodeReads cut b) := by
  have := six_le_decodeNeeds cut (b.getD 3 0)
  unfold decodeReads
  split_ifs with h1 h2 h3 h4
  · omega
  · omega
  · exact ⟨by omega, fun h => absurd h h3, by omega⟩
  · omega
  · omega

/-- A decode of a valid header reads all that its frame needs, where that many bytes are there. -/
theorem decodeReads_valid {cut : Option Byte} {b : List Byte} (h6 : 6 ≤ b.length)
    (hn : b.length ≤ 262) (hc : ¬(sentinelClass b = .ack ∨ sentinelClass b = .nack))
    (hp : b.take 3 = Config.preamble) (hl : lcsOk (b.getD 3 0) (b.getD 4 0) = true)
    (h0 : b.getD 3 0 ≠ 0) (hlong : decodeNeeds cut (b.getD 3 0) ≤ b.length) :
    decodeReads cut b = decodeNeeds cut (b.getD 3 0) := by
  unfold decodeReads
  rw [if_neg (by omega), if_neg (by omega), if_neg]
  simp only [not_or] at hc ⊢
  exact ⟨hc.1, hc.2, not_not.mpr hp, by rw [hl]; decide, h0, by omega⟩

/-- The header and the body of one frame, read cell by cell, are what the whole string gives; the cells
it does not read need hold nothing. -/
theorem State.decodeBody_reads {s : State} (cut : Option Byte) {b : List Byte}
    (hn : s.rxLen.toNat ≤ 262) (hl : b.length = s.rxLen.toNat) (hb : RxHolds s b (decodeReads cut b))
    (k : State → Option Err → Out) :
    s.decodeBody cut k = k (s.afterDecode (decoded cut b)) (decoded cut b).err := by
  unfold State.decodeBody
  dsimp only
  rw [if_neg (show ¬Config.rxBufCap < s.rxLen.toNat from Nat.not_lt.mpr hn)]
  have hcls : ∀ k, s.clearDecode.classifyRx s.rxLen.toNat k = k (sentinelClass b) := by
    intro k
    by_cases h6 : 6 ≤ s.rxLen.toNat
    · have g := (decodeReads_ge (cut := cut) (b := b) (by omega) (by omega)).2.2 (by omega)
      rw [State.classifyRx_of_six (s := s.clearDecode) h6 (hb.readBytes? (j := 0) (by omega) (by omega)),
        List.drop_zero, sentinelClass_take]
    · rw [State.classifyRx_short (by omega), sentinelClass_short (by omega)]
  rw [hcls]
  simp only [decoded]
  by_cases hc : sentinelClass b = .ack ∨ sentinelClass b = .nack
  · rw [if_pos hc, if_pos hc]; rfl
  rw [if_neg hc, if_neg hc]
  rw [hl]
  by_cases h5 : s.rxLen.toNat < 5
  · rw [if_pos h5, if_pos h5]; rfl
  rw [if_neg h5, if_neg h5]
  unfold State.decodeHeader
  obtain ⟨g3, g5, -⟩ := decodeReads_ge (cut := cut) (b := b) (by omega) (by omega)
  have h3 := hb.readBytes? (j := 0) (n := 3) (by omega) (by omega)
  simp only [Nat.add_zero, List.drop_zero] at h3
  rw [State.need_of_some (s := State.setSent (sentinelClass b) s.clearDecode)
      (bs := b.take 3) h3]
  by_cases hp : b.take 3 = Config.preamble
  swap
  · rw [if_pos hp, if_pos hp]; rfl
  rw [if_neg (not_not.mpr hp), if_neg (not_not.mpr hp)]
  have g5 := g5 hp
  rw [State.needByte_of_some (s := State.setSent (sentinelClass b) s.clearDecode)
      (b := b.getD 3 0) (hb.read? (by omega) (by omega)),
    State.needByte_of_some (s := State.setSent (sentinelClass b) s.clearDecode)
      (b := b.getD 4 0) (hb.read? (by omega) (by omega))]
  by_cases hlc : lcsOk (b.getD 3 0) (b.getD 4 0) = false
  · rw [if_pos hlc, hlc]; rfl
  rw [if_neg hlc]
  rw [Bool.not_eq_false] at hlc
  simp only [hlc, Bool.not_true, Bool.false_eq_true, if_false]
  have hlong : b.getD 3 0 ≠ 0 → decodeNeeds cut (b.getD 3 0) ≤ b.length →
      RxHolds s b (decodeNeeds cut (b.getD 3 0)) := by
    intro h0 h
    have h6 := six_le_decodeNeeds cut (b.getD 3 0)
    rw [← decodeReads_valid (by omega) (by omega) hc hp hlc h0 h]
    exact hb
  revert hlong
  generalize hL : b.getD 3 0 = len
  generalize b.getD 4 0 = lcs
  intro hlong
  by_cases h0 : len = 0
  · rw [if_pos h0, if_pos h0]; rfl
  rw [if_neg h0, if_neg h0]
  have hpos : 0 < len.toNat := by
    rcases Nat.eq_zero_or_pos len.toNat with h | h
    · exact absurd (BitVec.eq_of_toNat_eq (by simpa using h)) h0
    · exact h
  have full : decodeNeeds cut len = len.toNat + 6 →
      ∀ u : State, u = (s.clearDecode.setSent (sentinelClass b)) →
      u.decodeFull s.rxLen.toNat len lcs k =
        k (s.afterDecode
            (if s.rxLen.toNat < len.toNat + 6 then
              Decoded.empty (sentinelClass b) (some .incomplete)
            else if dsumOk ((b.drop 5).take (len.toNat + 1)) = false then
              .empty (sentinelClass b) (some .dcsMismatch)
            else
              { sent := sentinelClass b, err := none, trunc := false, pLen := len - 1
                frameInfo := frameInfoWord len lcs (b.getD 5 0) (b.getD (5 + len.toNat) 0)
                payload := (b.drop 6).take (len.toNat - 1) }))
          (if s.rxLen.toNat < len.toNat + 6 then
              Decoded.empty (sentinelClass b) (some .incomplete)
            else if dsumOk ((b.drop 5).take (len.toNat + 1)) = false then
              .empty (sentinelClass b) (some .dcsMismatch)
            else
              { sent := sentinelClass b, err := none, trunc := false, pLen := len - 1
                frameInfo := frameInfoWord len lcs (b.getD 5 0) (b.getD (5 + len.toNat) 0)
                payload := (b.drop 6).take (len.toNat - 1) }).err := by
    rintro hneed u rfl
    unfold State.decodeFull
    by_cases hi : s.rxLen.toNat < len.toNat + 6
    · rw [if_pos hi, if_pos hi]; rfl
    rw [if_neg hi, if_neg hi]
    have hd := (hlong h0 (by omega)).readBytes? (j := 5) (n := len.toNat + 1) (by omega) (by omega)
    rw [State.need_of_some (s := State.setSent (sentinelClass b) s.clearDecode)
      (bs := (b.drop 5).take (len.toNat + 1)) hd]
    by_cases hk : dsumOk ((b.drop 5).take (len.toNat + 1)) = false
    · rw [if_pos hk, hk]; rfl
    rw [if_neg hk]
    rw [Bool.not_eq_false] at hk
    rw [if_pos hk]
    have e1 : (((b.drop 5).take (len.toNat + 1)).drop 1).take (len.toNat - 1)
        = (b.drop 6).take (len.toNat - 1) := by
      rw [List.drop_take, List.drop_drop, List.take_take]
      congr 1; omega
    have e2 : ((b.drop 5).take (len.toNat + 1)).headD 0 = b.getD 5 0 := by
      rw [List.headD_eq_head?_getD, List.head?_take, if_neg (by omega), List.head?_drop,
        List.getD_eq_getElem?_getD]
    have e3 : ((b.drop 5).take (len.toNat + 1)).getLastD 0 = b.getD (5 + len.toNat) 0 := by
      rw [List.getLastD_eq_getLast?, List.getLast?_eq_getElem?, List.getD_eq_getElem?_getD]
      rw [List.getElem?_take_of_lt (by simp), List.getElem?_drop]
      simp only [List.length_take, List.length_drop]
      congr 2; omega
    rw [e1, e2, e3]
    rfl
  cases cut with
  | none => exact full rfl _ rfl
  | some m =>
    simp only
    by_cases hm : len.toNat - 1 ≤ m.toNat
    · rw [if_pos hm, if_pos hm]; exact full (if_pos hm) _ rfl
    rw [if_neg hm, if_neg hm]
    unfold State.decodeCut
    by_cases hi : s.rxLen.toNat < m.toNat + 6
    · rw [if_pos hi, if_pos hi]; rfl
    rw [if_neg hi, if_neg hi]
    have hneed : decodeNeeds (some m) len = m.toNat + 6 := if_neg hm
    have hd := (hlong h0 (by omega)).readBytes? (j := 5) (n := m.toNat + 1) (by omega) (by omega)
    rw [State.need_of_some (s := State.setSent (sentinelClass b) s.clearDecode)
      (bs := (b.drop 5).take (m.toNat + 1)) hd]
    have e1 : ((b.drop 5).take (m.toNat + 1)).drop 1 = (b.drop 6).take m.toNat := by
      rw [List.drop_take, List.drop_drop]; rfl
    have e2 : ((b.drop 5).take (m.toNat + 1)).headD 0 = b.getD 5 0 := by
      rw [List.headD_eq_head?_getD, List.head?_take, if_neg (by omega), List.head?_drop,
        List.getD_eq_getElem?_getD]
    rw [e1, e2]
    rfl

/-- The decode of RXLEN written bytes. -/
theorem State.decodeBody_eq {s : State} (cut : Option Byte) {b : List Byte}
    (hn : s.rxLen.toNat ≤ 262) (hb : s.mem.readBytes? rxBase s.rxLen.toNat = some b)
    (k : State → Option Err → Out) :
    s.decodeBody cut k = k (s.afterDecode (decoded cut b)) (decoded cut b).err := by
  have hl := Memory.length_of_readBytes? hb
  exact State.decodeBody_reads cut hn hl
    (rxHolds_of_readBytes? hb (hl ▸ decodeReads_le cut b)) k

/-- The fault of R35: a decode stops at the first byte it reads that is not held. -/
theorem State.decodeBody_unwritten {s : State} (cut : Option Byte) {b : List Byte} {i : Nat}
    (hl : b.length = s.rxLen.toNat) (hb : RxHolds s b i) (hi : i < decodeReads cut b)
    (hu : s.mem.read? (0x300 + i) = none) (k : State → Option Err → Out) :
    s.decodeBody cut k = .fault .unwrittenRead := by
  have none_of : ∀ {j n : Nat}, j ≤ i → i < j + n → s.mem.readBytes? (rxBase + j) n = none := by
    intro j n h1 h2
    refine Memory.readBytes?_eq_none (i := i - j) (by omega) ?_
    rw [← hu, show rxBase + j + (i - j) = 0x300 + i by simp only [rxBase]; omega]
  have hn : 5 ≤ b.length ∧ b.length ≤ 262 := by
    unfold decodeReads at hi
    split at hi <;> omega
  have hle := decodeReads_le cut b
  unfold State.decodeBody
  dsimp only
  rw [if_neg (show ¬Config.rxBufCap < s.rxLen.toNat from
    Nat.not_lt.mpr (show s.rxLen.toNat ≤ 262 by omega))]
  by_cases h6 : 6 ≤ b.length ∧ i < 6
  · unfold State.classifyRx
    rw [if_pos (by omega)]
    exact State.need_of_none (s := s.clearDecode) (none_of (j := 0) (by omega) (by omega)) _
  have hcls : ∀ k, s.clearDecode.classifyRx s.rxLen.toNat k = k (sentinelClass b) := by
    intro k
    by_cases h6' : 6 ≤ b.length
    · rw [State.classifyRx_of_six (s := s.clearDecode) (by omega)
          (hb.readBytes? (j := 0) (by omega) (by omega)), List.drop_zero, sentinelClass_take]
    · rw [State.classifyRx_short (by omega), sentinelClass_short (by omega)]
  rw [hcls]
  by_cases hc : sentinelClass b = .ack ∨ sentinelClass b = .nack
  · exfalso
    have h6' : 6 ≤ b.length := by
      by_contra h
      rw [sentinelClass_short (by omega)] at hc
      simp at hc
    unfold decodeReads at hi
    rw [if_neg (by omega), if_neg (by omega), if_pos (hc.elim .inl fun h => .inr (.inl h))] at hi
    omega
  rw [if_neg hc, if_neg (by omega)]
  unfold State.decodeHeader
  by_cases h3 : i < 3
  · exact State.need_of_none (s := State.setSent (sentinelClass b) s.clearDecode)
      (none_of (j := 0) (by omega) (by omega)) _
  have r3 := hb.readBytes? (j := 0) (n := 3) (by omega) (by omega)
  simp only [Nat.add_zero, List.drop_zero] at r3
  rw [State.need_of_some (s := State.setSent (sentinelClass b) s.clearDecode) (bs := b.take 3) r3]
  by_cases hp : b.take 3 = Config.preamble
  swap
  · exfalso
    unfold decodeReads at hi
    rw [if_neg (by omega)] at hi
    by_cases h5 : b.length = 5
    · rw [if_pos h5, if_neg hp] at hi; omega
    · rw [if_neg h5, if_pos (.inr (.inr (.inl hp)))] at hi; omega
  rw [if_neg (not_not.mpr hp)]
  have byte_none : ∀ {j : Nat}, i = j → ∀ k : Byte → Out,
      State.needByte (State.setSent (sentinelClass b) s.clearDecode) (rxBase + j) k
        = .fault .unwrittenRead := by
    rintro j rfl k
    unfold State.needByte
    rw [show (State.setSent (sentinelClass b) s.clearDecode).mem.read? (rxBase + i) = none from hu]
  by_cases i3 : i = 3
  · exact byte_none i3 _
  rw [State.needByte_of_some (s := State.setSent (sentinelClass b) s.clearDecode)
    (hb.read? (j := 3) (by omega) (by omega))]
  by_cases i4 : i = 4
  · exact byte_none i4 _
  rw [State.needByte_of_some (s := State.setSent (sentinelClass b) s.clearDecode)
    (hb.read? (j := 4) (by omega) (by omega))]
  have h6' : 6 ≤ b.length ∧ 6 ≤ i := by omega
  have hvalid : lcsOk (b.getD 3 0) (b.getD 4 0) = true ∧ b.getD 3 0 ≠ 0
      ∧ decodeNeeds cut (b.getD 3 0) ≤ b.length ∧ i < decodeNeeds cut (b.getD 3 0) := by
    unfold decodeReads at hi
    rw [if_neg (by omega), if_neg (by omega)] at hi
    split at hi
    · omega
    · rename_i h
      simp only [not_or, Bool.not_eq_false] at h
      exact ⟨h.2.2.2.1, h.2.2.2.2.1, by omega, hi⟩
  obtain ⟨hlc, h0, hlong, hin⟩ := hvalid
  rw [if_neg (by rw [hlc]; decide), if_neg h0]
  have full : decodeNeeds cut (b.getD 3 0) = (b.getD 3 0).toNat + 6 →
      State.decodeFull (State.setSent (sentinelClass b) s.clearDecode) s.rxLen.toNat (b.getD 3 0)
        (b.getD 4 0) k = .fault .unwrittenRead := by
    intro e
    unfold State.decodeFull
    rw [if_neg (by omega)]
    exact State.need_of_none (s := State.setSent (sentinelClass b) s.clearDecode)
      (none_of (j := 5) (by omega) (by omega)) _
  cases cut with
  | none => exact full rfl
  | some m =>
    dsimp only
    by_cases hm : (b.getD 3 0).toNat - 1 ≤ m.toNat
    · rw [if_pos hm]; exact full (if_pos hm)
    rw [if_neg hm]
    have e : decodeNeeds (some m) (b.getD 3 0) = m.toNat + 6 := if_neg hm
    unfold State.decodeCut
    rw [if_neg (by omega)]
    exact State.need_of_none (s := State.setSent (sentinelClass b) s.clearDecode)
      (none_of (j := 5) (by omega) (by omega)) _

/-- RXLEN > 262 (R90 (1)): the outputs are zeroed and nothing is read. -/
theorem State.decodeBody_long {s : State} (cut : Option Byte) (hn : 262 < s.rxLen.toNat)
    (k : State → Option Err → Out) :
    s.decodeBody cut k = k (s.afterDecode (.empty .none (some .lengthRange))) (some .lengthRange) := by
  unfold State.decodeBody
  dsimp only
  rw [if_pos (show Config.rxBufCap < s.rxLen.toNat from hn)]
  rfl

/-- Two states whose cells there read alike: `need` does the same in both. -/
theorem State.need_agree {s u : State} {a n : Nat}
    (h : u.mem.readBytes? a n = s.mem.readBytes? a n) (k k' : List Byte → Out) :
    (∃ bs, bs.length = n ∧ s.need a n k = k bs ∧ u.need a n k' = k' bs)
      ∨ s.need a n k = .fault .unwrittenRead ∧ u.need a n k' = .fault .unwrittenRead := by
  obtain ⟨bs, hb, hl, e⟩ | ⟨hb, e⟩ := s.need_cases a n k
  · exact .inl ⟨bs, hl, e, State.need_of_some (h.trans hb) k'⟩
  · exact .inr ⟨e, State.need_of_none (h.trans hb) k'⟩

/-- The same for `needByte`. -/
theorem State.needByte_agree {s u : State} {a : Nat} (h : u.mem.read? a = s.mem.read? a)
    (k k' : Byte → Out) :
    (∃ b, s.needByte a k = k b ∧ u.needByte a k' = k' b)
      ∨ s.needByte a k = .fault .unwrittenRead ∧ u.needByte a k' = .fault .unwrittenRead := by
  simp only [State.needByte, h]
  cases s.mem.read? a with
  | none => exact .inr ⟨rfl, rfl⟩
  | some b => exact .inl ⟨b, rfl, rfl⟩

/-- The same for `classifyRx`. -/
theorem State.classifyRx_agree {s u : State} {n : Nat}
    (h : 6 ≤ n → u.mem.readBytes? rxBase 6 = s.mem.readBytes? rxBase 6) (k k' : Sent → Out) :
    (∃ c, s.classifyRx n k = k c ∧ u.classifyRx n k' = k' c)
      ∨ s.classifyRx n k = .fault .unwrittenRead ∧ u.classifyRx n k' = .fault .unwrittenRead := by
  unfold State.classifyRx
  split
  · rename_i h6
    obtain ⟨b, -, e, e'⟩ | e := State.need_agree (h h6) (fun b => k (sentinelClass b))
      (fun b => k' (sentinelClass b))
    · exact .inl ⟨_, e, e'⟩
    · exact .inr e
  · exact .inl ⟨.other, rfl, rfl⟩

/-- Two states that agree on RXLEN and on the RXBUF cells below it decode alike, whatever those cells hold:
both go on with one decode, whose payload has PLEN bytes and fits PAYBUF, or both are the fault of R35. -/
theorem State.decodeBody_agree (s u : State) (cut : Option Byte) (hn : u.rxLen = s.rxLen)
    (hm : ∀ a, rxBase ≤ a → a < rxBase + s.rxLen.toNat → u.mem.read? a = s.mem.read? a)
    (k k' : State → Option Err → Out) :
    (∃ d : Decoded, d.payload.length = d.pLen.toNat ∧ d.payload.length ≤ 254
        ∧ s.decodeBody cut k = k (s.afterDecode d) d.err
        ∧ u.decodeBody cut k' = k' (u.afterDecode d) d.err)
      ∨ s.decodeBody cut k = .fault .unwrittenRead
        ∧ u.decodeBody cut k' = .fault .unwrittenRead := by
  have run : ∀ j m, j + m ≤ s.rxLen.toNat →
      u.mem.readBytes? (rxBase + j) m = s.mem.readBytes? (rxBase + j) m := fun j m h =>
    Memory.readBytes?_congr fun i hi => hm _ (by omega) (by omega)
  have cell : ∀ j, j < s.rxLen.toNat → u.mem.read? (rxBase + j) = s.mem.read? (rxBase + j) :=
    fun j h => hm _ (by omega) (by omega)
  -- a decode that ends with no frame
  have empty : ∀ c e, ∃ d : Decoded, d.payload.length = d.pLen.toNat ∧ d.payload.length ≤ 254
      ∧ k (State.setSent c s.clearDecode) e = k (s.afterDecode d) d.err
      ∧ k' (State.setSent c u.clearDecode) e = k' (u.afterDecode d) d.err :=
    fun c e => ⟨.empty c e, rfl, by simp [Decoded.empty], rfl, rfl⟩
  -- DECODE's path from the completeness check on
  have full : ∀ (c : Sent) (len lcs : Byte), len ≠ 0 →
      (∃ d : Decoded, d.payload.length = d.pLen.toNat ∧ d.payload.length ≤ 254
        ∧ (State.setSent c s.clearDecode).decodeFull s.rxLen.toNat len lcs k
          = k (s.afterDecode d) d.err
        ∧ (State.setSent c u.clearDecode).decodeFull s.rxLen.toNat len lcs k'
          = k' (u.afterDecode d) d.err)
      ∨ (State.setSent c s.clearDecode).decodeFull s.rxLen.toNat len lcs k = .fault .unwrittenRead
        ∧ (State.setSent c u.clearDecode).decodeFull s.rxLen.toNat len lcs k'
          = .fault .unwrittenRead := by
    intro c len lcs h0
    have hlen := len.isLt
    have hpred : (len - 1).toNat = len.toNat - 1 := by bv_omega
    unfold State.decodeFull
    by_cases hi : s.rxLen.toNat < len.toNat + 6
    · rw [if_pos hi, if_pos hi]; exact .inl (empty _ _)
    rw [if_neg hi, if_neg hi]
    generalize hk : (fun d : List Byte => if dsumOk d = true then
      k { (State.setSent c s.clearDecode).store payBase ((d.drop 1).take (len.toNat - 1)) with
          pLen := len - 1
          frameInfo := frameInfoWord len lcs (d.headD 0) (d.getLastD 0) } none
      else k (State.setSent c s.clearDecode) (some .dcsMismatch)) = k1
    generalize hk' : (fun d : List Byte => if dsumOk d = true then
      k' { (State.setSent c u.clearDecode).store payBase ((d.drop 1).take (len.toNat - 1)) with
          pLen := len - 1
          frameInfo := frameInfoWord len lcs (d.headD 0) (d.getLastD 0) } none
      else k' (State.setSent c u.clearDecode) (some .dcsMismatch)) = k2
    obtain ⟨bs, hl, e, e'⟩ | e := State.need_agree (s := State.setSent c s.clearDecode)
      (u := State.setSent c u.clearDecode) (run 5 (len.toNat + 1) (by omega)) k1 k2
    swap
    · exact .inr e
    rw [e, e', ← hk, ← hk']
    dsimp only
    by_cases hd : dsumOk bs = true
    · rw [if_pos hd, if_pos hd]
      exact .inl ⟨⟨c, none, false, len - 1, frameInfoWord len lcs (bs.headD 0) (bs.getLastD 0),
        (bs.drop 1).take (len.toNat - 1)⟩, by
          simp only [List.length_take, List.length_drop, hl, hpred]; omega,
        by simp; omega, rfl, rfl⟩
    · rw [if_neg hd, if_neg hd]; exact .inl (empty _ _)
  unfold State.decodeBody
  dsimp only
  rw [hn]
  by_cases hr : Config.rxBufCap < s.rxLen.toNat
  · rw [if_pos hr, if_pos hr]
    exact .inl ⟨.empty .none (some .lengthRange), rfl, by simp [Decoded.empty], rfl, rfl⟩
  rw [if_neg hr, if_neg hr]
  generalize hk : (fun c : Sent => _) = k1
  generalize hk' : (fun c : Sent => _) = k2
  obtain ⟨c, e, e'⟩ | e := State.classifyRx_agree (s := s.clearDecode) (u := u.clearDecode)
    (n := s.rxLen.toNat) (fun h6 => run 0 6 (by omega)) k1 k2
  swap
  · exact .inr e
  rw [e, e', ← hk, ← hk']
  dsimp only
  clear e e' hk hk'
  by_cases hc : c = .ack ∨ c = .nack
  · rw [if_pos hc, if_pos hc]; exact .inl (empty _ _)
  rw [if_neg hc, if_neg hc]
  by_cases h5 : s.rxLen.toNat < 5
  · rw [if_pos h5, if_pos h5]; exact .inl (empty _ _)
  rw [if_neg h5, if_neg h5]
  unfold State.decodeHeader
  generalize hk : (fun p : List Byte => _) = k1
  generalize hk' : (fun p : List Byte => _) = k2
  obtain ⟨p, -, e, e'⟩ | e := State.need_agree (s := State.setSent c s.clearDecode)
    (u := State.setSent c u.clearDecode) (a := rxBase) (run 0 3 (by omega)) k1 k2
  swap
  · exact .inr e
  rw [e, e', ← hk, ← hk']
  dsimp only
  clear e e' hk hk'
  by_cases hp : p ≠ Config.preamble
  · rw [if_pos hp, if_pos hp]; exact .inl (empty _ _)
  rw [if_neg hp, if_neg hp]
  generalize hk : (fun len : Byte => _) = k1
  generalize hk' : (fun len : Byte => _) = k2
  obtain ⟨len, e, e'⟩ | e := State.needByte_agree (s := State.setSent c s.clearDecode)
    (u := State.setSent c u.clearDecode) (cell 3 (by omega)) k1 k2
  swap
  · exact .inr e
  rw [e, e', ← hk, ← hk']
  dsimp only
  clear e e' hk hk'
  generalize hk : (fun lcs : Byte => _) = k1
  generalize hk' : (fun lcs : Byte => _) = k2
  obtain ⟨lcs, e, e'⟩ | e := State.needByte_agree (s := State.setSent c s.clearDecode)
    (u := State.setSent c u.clearDecode) (cell 4 (by omega)) k1 k2
  swap
  · exact .inr e
  rw [e, e', ← hk, ← hk']
  dsimp only
  clear e e' hk hk'
  by_cases hl : (!lcsOk len lcs) = true
  · rw [if_pos hl, if_pos hl]; exact .inl (empty _ _)
  rw [if_neg hl, if_neg hl]
  by_cases h0 : len = 0
  · rw [if_pos h0, if_pos h0]; exact .inl (empty _ _)
  rw [if_neg h0, if_neg h0]
  cases cut with
  | none => exact full c len lcs h0
  | some max =>
    dsimp only
    by_cases hmax : len.toNat - 1 ≤ max.toNat
    · rw [if_pos hmax, if_pos hmax]; exact full c len lcs h0
    rw [if_neg hmax, if_neg hmax]
    have hlen := len.isLt
    unfold State.decodeCut
    by_cases hi : s.rxLen.toNat < max.toNat + 6
    · rw [if_pos hi, if_pos hi]; exact .inl (empty _ _)
    rw [if_neg hi, if_neg hi]
    generalize hk : (fun d : List Byte => _) = k1
    generalize hk' : (fun d : List Byte => _) = k2
    obtain ⟨bs, hl, e, e'⟩ | e := State.need_agree (s := State.setSent c s.clearDecode)
      (u := State.setSent c u.clearDecode) (run 5 (max.toNat + 1) (by omega)) k1 k2
    swap
    · exact .inr e
    rw [e, e', ← hk, ← hk']
    exact .inl ⟨⟨c, none, true, max, frameInfoWord len lcs (bs.headD 0) 0, bs.drop 1⟩,
      by simp [hl], by simp; omega, rfl, rfl⟩

/-- Everything `decodeBody` can do, whatever the cells hold. -/
theorem State.decodeBody_cases (s : State) (cut : Option Byte) (k : State → Option Err → Out) :
    (∃ d : Decoded, d.payload.length = d.pLen.toNat ∧ d.payload.length ≤ 254
        ∧ s.decodeBody cut k = k (s.afterDecode d) d.err)
      ∨ s.decodeBody cut k = .fault .unwrittenRead := by
  obtain ⟨d, h1, h2, h3, -⟩ | ⟨h, -⟩ := State.decodeBody_agree s s cut rfl (fun _ _ _ => rfl) k k
  · exact .inl ⟨d, h1, h2, h3⟩
  · exact .inr h

/-! ### The ready-waiter's conditions -/

/-- Which configurations pass R100, and as what. -/
theorem checkWaitConfig_ok {st : Strategy} {tr : Transport} {armed : Bool} {k : WaitKind} :
    checkWaitConfig st tr armed = .ok k ↔
      (st = .gpio ∧ k = .gpio ∨ st = .irq ∧ armed = true ∧ k = .irq
        ∨ st = .status ∧ tr = .i2c ∧ k = .status) := by
  cases st <;> cases tr <;> cases armed <;> simp [checkWaitConfig, eq_comm]

/-- Which configurations R100 refuses, and with what. -/
theorem checkWaitConfig_error {st : Strategy} {tr : Transport} {armed : Bool} {e : Err} :
    checkWaitConfig st tr armed = .error e ↔
      ((st = .reserved ∨ st = .status ∧ tr = .uart) ∧ e = .badStrategy
        ∨ st = .irq ∧ armed = false ∧ e = .irqNotArmed) := by
  cases st <;> cases tr <;> cases armed <;> simp [checkWaitConfig, eq_comm]

theorem expired_eq_true {tmo start t : Word} :
    expired tmo start t = true ↔ tmo ≠ 0 ∧ tmo ≤ t - start := by
  simp [expired]

theorem expired_eq_false {tmo start t : Word} :
    expired tmo start t = false ↔ tmo = 0 ∨ t - start < tmo := by
  simp only [expired, Bool.and_eq_false_iff, decide_eq_false_iff_not, BitVec.not_le]
  simp

/-- The end of a wait in ready is one. -/
theorem waitReady_endWait (why : WaitFor) (tmo : Word) (s : State) :
    WaitReady why tmo (s.endWait why tmo) := by
  cases why <;> exact ⟨rfl, by first | exact ⟨rfl, rfl, rfl, rfl, rfl⟩ | rfl⟩

/-- Readiness leaves the registers of whatever operation waits. -/
theorem waitKeeps_endWait (why : WaitFor) (tmo : Word) (s : State) :
    WaitKeeps why s (s.endWait why tmo) := by
  cases why <;>
    exact ⟨rfl, ⟨rfl, rfl, rfl⟩, rfl, rfl, rfl, fun h => by first | exact absurd rfl h | rfl⟩

/-- Expiry completes with `TIMEOUT/READY_WAIT`, and what it leaves. -/
theorem waitExpired_expireWait (why : WaitFor) (s : State) :
    WaitExpired (s.expireWait why) ∧ WaitErrorLeaves why s (s.expireWait why) := by
  refine ⟨completed_raise _ _ _, ?_⟩
  cases why <;>
    exact ⟨rfl, rfl, rfl, rfl, by first | exact ⟨⟨rfl, rfl, rfl⟩, rfl⟩ | exact ⟨rfl, rfl, rfl⟩⟩

/-- Where a wait begins, and WSTATE with it. -/
theorem beginWait_act (why : WaitFor) (tmo : Word) (kind : WaitKind) (s : State) :
    ∃ w, (s.beginWait why tmo kind).act = .waiting why tmo w
      ∧ (s.beginWait why tmo kind).wstate = w.wstate := by
  cases kind <;> exact ⟨_, rfl, rfl⟩

/-! ### Six bytes and whole frames -/

/-- The class of six bytes. -/
theorem sentinelClass_six {b : List Byte} (h : b.length = 6) :
    sentinelClass b =
      if b = [0x00, 0x00, 0xFF, 0x00, 0xFF, 0x00] then .ack
      else if b = [0x00, 0x00, 0xFF, 0xFF, 0x00, 0x00] then .nack else .other := by
  unfold sentinelClass
  rw [show b.take 6 = b by simp [← h]]
  rfl

/-- A decode's payload fits PAYBUF. -/
theorem decoded_payload_length (cut : Option Byte) (b : List Byte) :
    (decoded cut b).payload.length ≤ 254 := by
  have hlt := (b.getD 3 0).isLt
  have none : ∀ c e, (Decoded.empty c e).payload.length ≤ 254 := fun c e => by simp [Decoded.empty]
  have either : ∀ (p : Prop) [Decidable p] (x y : Decoded), x.payload.length ≤ 254 →
      y.payload.length ≤ 254 → (if p then x else y).payload.length ≤ 254 := by
    intro p _ x y hx hy; split <;> assumption
  unfold decoded
  dsimp only
  have full : ∀ x : Decoded, x.payload.length ≤ 254 →
      (if b.length < (b.getD 3 0).toNat + 6 then Decoded.empty (sentinelClass b) (some .incomplete)
        else if dsumOk ((b.drop 5).take ((b.getD 3 0).toNat + 1)) = false then
          .empty (sentinelClass b) (some .dcsMismatch)
        else x).payload.length ≤ 254 :=
    fun x hx => either _ _ _ (none _ _) (either _ _ _ (none _ _) hx)
  refine either _ _ _ (none _ _) (either _ _ _ (none _ _) (either _ _ _ (none _ _)
    (either _ _ _ (none _ _) (either _ _ _ (none _ _) ?_))))
  cases cut with
  | none => exact full _ (by simp; omega)
  | some m =>
    dsimp only
    by_cases hm : (b.getD 3 0).toNat - 1 ≤ m.toNat
    · rw [if_pos hm]; exact full _ (by simp only [List.length_take]; omega)
    · rw [if_neg hm]; exact either _ _ _ (none _ _) (by simp only [List.length_take]; omega)

/-- Bytes with a valid header are of the class OTHER. -/
theorem sentinelClass_header {b : List Byte} {len : Byte} (hlen : b.getD 3 0 = len)
    (hs : len + b.getD 4 0 = 0) (h0 : len ≠ 0) : sentinelClass b = .other := by
  have bytes : ∀ c : List Byte, b.take 6 = c → c.getD 3 0 = len ∧ c.getD 4 0 = b.getD 4 0 := by
    rintro c rfl
    constructor
    · rw [← hlen, List.getD_eq_getElem?_getD, List.getD_eq_getElem?_getD,
        List.getElem?_take_of_lt (by omega)]
    · rw [List.getD_eq_getElem?_getD, List.getD_eq_getElem?_getD,
        List.getElem?_take_of_lt (by omega)]
  unfold sentinelClass
  rw [if_neg, if_neg]
  · intro h
    obtain ⟨x, y⟩ := bytes _ h
    rw [← x, ← y] at hs
    revert hs; decide
  · intro h
    exact h0 (bytes _ h).1.symm

/-- The decode of a whole frame with a valid header: the truncated path, and the full one, whose only
error is DCS_MISMATCH. -/
theorem decoded_whole {cut : Option Byte} {b : List Byte} {len : Byte} (hl : b.length = len.toNat + 7)
    (h3 : b.take 3 = Config.preamble) (hlen : b.getD 3 0 = len) (hs : len + b.getD 4 0 = 0)
    (h0 : len ≠ 0) :
    decoded cut b =
      match cut with
      | some m =>
        if m.toNat < len.toNat - 1 then
          { sent := .other, err := none, trunc := true, pLen := m
            frameInfo := frameInfoWord len (b.getD 4 0) (b.getD 5 0) 0
            payload := (b.drop 6).take m.toNat }
        else if dsum ((b.drop 5).take (len.toNat + 1)) = 0 then
          { sent := .other, err := none, trunc := false, pLen := len - 1
            frameInfo := frameInfoWord len (b.getD 4 0) (b.getD 5 0) (b.getD (5 + len.toNat) 0)
            payload := (b.drop 6).take (len.toNat - 1) }
        else .empty .other (some .dcsMismatch)
      | none =>
        if dsum ((b.drop 5).take (len.toNat + 1)) = 0 then
          { sent := .other, err := none, trunc := false, pLen := len - 1
            frameInfo := frameInfoWord len (b.getD 4 0) (b.getD 5 0) (b.getD (5 + len.toNat) 0)
            payload := (b.drop 6).take (len.toNat - 1) }
        else .empty .other (some .dcsMismatch) := by
  have hpos : 0 < len.toNat := by
    rcases Nat.eq_zero_or_pos len.toNat with h | h
    · exact absurd (BitVec.eq_of_toNat_eq (by simpa using h)) h0
    · exact h
  have sum : ∀ x y : Decoded, (if dsumOk ((b.drop 5).take (len.toNat + 1)) = false then x else y)
      = if dsum ((b.drop 5).take (len.toNat + 1)) = 0 then y else x := by
    intro x y
    by_cases h : dsum ((b.drop 5).take (len.toNat + 1)) = 0
    · rw [if_pos h, if_neg fun h' => dsumOk_eq_false.mp h' h]
    · rw [if_neg h, if_pos (dsumOk_eq_false.mpr h)]
  unfold decoded
  rw [hlen, sentinelClass_header hlen hs h0]
  dsimp only
  rw [if_neg (by decide), if_neg (show ¬b.length < 5 by omega), if_neg (not_not.mpr h3),
    if_neg (show ¬lcsOk len (b.getD 4 0) = false from fun h => lcsOk_eq_false.mp h hs), if_neg h0]
  simp only [if_neg (show ¬b.length < len.toNat + 6 by omega), sum]
  cases cut with
  | none => rfl
  | some m =>
    dsimp only
    by_cases hm : len.toNat - 1 ≤ m.toNat
    · rw [if_pos hm, if_neg (show ¬m.toNat < len.toNat - 1 by omega)]
    · rw [if_neg hm, if_neg (show ¬b.length < m.toNat + 6 by omega),
        if_pos (show m.toNat < len.toNat - 1 by omega)]

/-- Every byte of a port word in its place. -/
theorem packWord_bytes (b0 b1 b2 b3 : Byte) :
    (packWord b0 b1 b2 b3).extractLsb' 0 8 = b0 ∧ (packWord b0 b1 b2 b3).extractLsb' 8 8 = b1
      ∧ (packWord b0 b1 b2 b3).extractLsb' 16 8 = b2
      ∧ (packWord b0 b1 b2 b3).extractLsb' 24 8 = b3 := by
  unfold packWord
  refine ⟨?_, ?_, ?_, ?_⟩ <;>
    (ext i hi; simp only [BitVec.getElem_extractLsb', BitVec.getLsbD_append])
  · simp [hi]
  · simp [hi, show ¬(8 + i < 8) by omega, show 8 + i - 8 = i by omega]
  · simp [hi, show ¬(16 + i < 8) by omega, show ¬(16 + i - 8 < 8) by omega,
      show 16 + i - 8 - 8 = i by omega]
  · simp [hi, show ¬(24 + i < 8) by omega, show ¬(24 + i - 8 < 8) by omega,
      show ¬(24 + i - 8 - 8 < 8) by omega, show 24 + i - 8 - 8 - 8 = i by omega]

/-- A port word is its four bytes. -/
theorem packWord_unpack (v : Word) :
    packWord (v.extractLsb' 0 8) (v.extractLsb' 8 8) (v.extractLsb' 16 8) (v.extractLsb' 24 8) = v := by
  unfold packWord
  ext i hi
  simp only [BitVec.getElem_append, BitVec.getElem_extractLsb']
  split
  · simp [BitVec.getLsbD_eq_getElem (x := v) (i := i) hi]
  · split
    · rw [BitVec.getLsbD_eq_getElem (by omega)]; congr 1; omega
    · split
      · rw [BitVec.getLsbD_eq_getElem (by omega)]; congr 1; omega
      · rw [BitVec.getLsbD_eq_getElem (by omega)]; congr 1; omega

end Sys2Proof.Machine
end

