-- ==== Sys2Proof/Laws/Commands.lean ====
section
/-! SUPPORT. What a command can do, said once (`exec_does`): what it keeps, how it changes IRQSTAT, and
whether it has completed or runs on. A proof about every command cites this, not ten meanings. -/

namespace Sys2Proof.Machine

/-! ### What is kept -/

/-- What no operation of the block changes: the controller's registers, the latch, the cells below
0x200, and the memory's canonical form. -/
structure Kept (s t : State) : Prop where
  args : SameArgs s t
  prevIrq : t.prevIrq = s.prevIrq
  rst : t.rst = s.rst
  low : ∀ a, a < 0x200 → t.mem.read? a = s.mem.read? a
  wf : s.mem.wf = true → t.mem.wf = true

theorem Kept.of_mem {s t : State} (h1 : SameArgs s t) (h2 : t.prevIrq = s.prevIrq)
    (h3 : t.rst = s.rst) (h : t.mem = s.mem) : Kept s t :=
  ⟨h1, h2, h3, fun _ _ => by rw [h], fun hw => by rw [h]; exact hw⟩

theorem Kept.of_store {s t : State} (h1 : SameArgs s t) (h2 : t.prevIrq = s.prevIrq)
    (h3 : t.rst = s.rst) {a : Nat} {bs : List Byte} (h : t.mem = s.mem.writeBytes a bs)
    (ha : 0x200 ≤ a) (hc : ∀ i, i < bs.length → isCell (a + i) = true) : Kept s t := by
  refine ⟨h1, h2, h3, fun x hx => ?_, fun hw => ?_⟩
  · rw [h]; exact Memory.read?_writeBytes_outside _ (by omega)
  · rw [h]; exact Memory.wf_writeBytes hw hc

theorem Kept.trans {s t u : State} (h : Kept s t) (k : Kept t u) : Kept s u := by
  obtain ⟨⟨a1, a2, a3, a4, a5⟩, b, c, d, e⟩ := h
  obtain ⟨⟨a1', a2', a3', a4', a5'⟩, b', c', d', e'⟩ := k
  exact ⟨⟨a1'.trans a1, a2'.trans a2, a3'.trans a3, a4'.trans a4, a5'.trans a5⟩, b'.trans b,
    c'.trans c, fun x hx => (d' x hx).trans (d x hx), fun w => e' (e w)⟩

theorem frame_cells {n : Nat} (hn : n ≤ 72) : ∀ i, i < n → isCell (frameBase + i) = true := by
  intro i hi; rw [isCell_iff]; simp only [frameBase]; omega

theorem pay_cells {n : Nat} (hn : n ≤ 254) : ∀ i, i < n → isCell (payBase + i) = true := by
  intro i hi; rw [isCell_iff]; simp only [payBase]; omega

theorem rx_cells {a n : Nat} (ha : 0x300 ≤ a) (hn : a + n ≤ 0x406) :
    ∀ i, i < n → isCell (a + i) = true := by
  intro i hi; rw [isCell_iff]; omega

theorem kept_afterDecode (s : State) (d : Decoded) (hd : d.payload.length ≤ 254) :
    Kept s (s.afterDecode d) :=
  .of_store (a := payBase) (bs := d.payload) ⟨rfl, rfl, rfl, rfl, rfl⟩ rfl rfl rfl (by decide)
    (pay_cells hd)

/-! ### What a command does -/

/-- Whether a command has completed, and how, or runs on. -/
inductive CommandEnds (i : Instr) (s t : State) : Prop
  | ended (r : Option Err) (h : Completed t r)
      (hx : t.xstate = s.xstate ∨ t.xstate = .idle ∧ ((i = .xactSend ∨ i = .xactRead) ∧ r ≠ none))
      (hr : r ≠ none ∨ (i ≠ .xactSend ∧ i ≠ .xactRead))
  | runs (hb : t.status.busy = true) (hd : t.status.done = false)
      (h : i = .waitReady ∧ t.xstate = s.xstate
            ∧ (∃ tmo w, t.act = .waiting .waitReady tmo w ∧ t.wstate = w.wstate)
        ∨ i = .xactSend ∧ t.xstate = .idle ∧ t.wstate = s.wstate ∧ (∃ f tmo k, t.act = .sendTx f tmo k)
        ∨ i = .xactRead ∧ s.xstate = .ackRead ∧ t.xstate = .awaitingReadyResponse
            ∧ (∃ tr tmo w, t.act = .waiting (.read tr) tmo w ∧ t.wstate = w.wstate))

/-- Everything a command that answers a next state does. -/
structure CommandDoes (i : Instr) (s t : State) : Prop where
  kept : Kept s t
  irq : t.pending = (if i = .irqArm then false else s.pending)
    ∧ t.armed = (if i = .irqArm then true else s.armed)
  ends : CommandEnds i s t

theorem execEncode_does {s t : State} (h : execEncode s = .next t) : CommandDoes .encode s t := by
  unfold execEncode at h
  dsimp only at h
  split at h
  · cases h
    exact ⟨.of_mem ⟨rfl, rfl, rfl, rfl, rfl⟩ rfl rfl rfl, ⟨rfl, rfl⟩,
      .ended _ (completed_raise _ _ _) (.inl rfl) (.inl nofun)⟩
  · rename_i hn
    have hn : ¬63 < s.txLen.toNat := hn
    obtain ⟨pd, hl, hp, e⟩ | ⟨-, e⟩ := State.need_cases s.accept txBase s.txLen.toNat
      (fun pd => .next (State.finish (State.putFrame pd s.accept))) <;> have h := e.symm.trans h
    · cases h
      exact ⟨.of_store (a := frameBase) (bs := hostFrame pd) ⟨rfl, rfl, rfl, rfl, rfl⟩ rfl rfl rfl
          (by decide) (frame_cells (by rw [hostFrame_length]; omega)),
        ⟨rfl, rfl⟩, .ended _ (completed_finish _) (.inl rfl) (.inr ⟨nofun, nofun⟩)⟩
    · cases h

theorem execEmitAck_does {s t : State} (h : execEmitAck s = .next t) : CommandDoes .emitAck s t := by
  cases h
  exact ⟨.of_store (a := frameBase) (bs := Config.ack) ⟨rfl, rfl, rfl, rfl, rfl⟩ rfl rfl rfl (by decide)
      (frame_cells (by decide)),
    ⟨rfl, rfl⟩, .ended _ (completed_finish _) (.inl rfl) (.inr ⟨nofun, nofun⟩)⟩

/-- DECODE and DECODE_TRUNC. -/
theorem decodeOp_does {s t : State} {cut : Option Byte} {i : Instr}
    (h : s.accept.decodeBody cut State.endCodec = .next t) (hi : i = .decode ∨ i = .decodeTrunc) :
    CommandDoes i s t := by
  obtain ⟨d, -, hd, e⟩ | e := State.decodeBody_cases s.accept cut State.endCodec
  · rw [e, State.endCodec_eq] at h
    cases h
    have k := kept_afterDecode s.accept d hd
    rcases hi with rfl | rfl <;>
    exact ⟨⟨k.args, k.prevIrq, k.rst, k.low, k.wf⟩, ⟨rfl, rfl⟩,
      .ended d.err ⟨rfl, rfl, rfl, rfl, rfl⟩ (.inl rfl) (.inr ⟨nofun, nofun⟩)⟩
  · rw [e] at h; cases h

theorem execClassify_does {s t : State} (h : execClassify s = .next t) : CommandDoes .classify s t := by
  unfold execClassify at h
  dsimp only at h
  split at h
  · cases h
    exact ⟨.of_mem ⟨rfl, rfl, rfl, rfl, rfl⟩ rfl rfl rfl, ⟨rfl, rfl⟩,
      .ended _ (completed_raise _ _ _) (.inl rfl) (.inl nofun)⟩
  · obtain ⟨c, -, e⟩ | e := State.classifyRx_cases s.accept s.accept.rxLen.toNat
      (fun c => .next (State.finish (State.setSent c s.accept)))
    · rw [e] at h; cases h
      exact ⟨.of_mem ⟨rfl, rfl, rfl, rfl, rfl⟩ rfl rfl rfl, ⟨rfl, rfl⟩,
        .ended _ (completed_finish _) (.inl rfl) (.inr ⟨nofun, nofun⟩)⟩
    · rw [e] at h; cases h

theorem execCheckAck_does {s t : State} (h : execCheckAck s = .next t) : CommandDoes .checkAck s t := by
  have bad : ∀ (e : Err) (c : Sent),
      CommandDoes .checkAck s (State.raise .other e (State.setSent c s.accept)) := fun e c =>
    ⟨.of_mem ⟨rfl, rfl, rfl, rfl, rfl⟩ rfl rfl rfl, ⟨rfl, rfl⟩,
      .ended _ (completed_raise _ _ _) (.inl rfl) (.inl nofun)⟩
  unfold execCheckAck at h
  dsimp only at h
  split at h
  · cases h; exact bad _ _
  split at h
  · cases h; exact bad _ _
  obtain ⟨c, -, e⟩ | e := State.classifyRx_cases s.accept s.accept.rxLen.toNat (fun c =>
    match c with
    | .ack => .next (State.finish (State.setSent c s.accept))
    | .nack => .next (State.raise .other .nack (State.setSent c s.accept))
    | .other => .next (State.raise .other .notAck (State.setSent c s.accept))
    | .none => .next (State.raise .other .notAck (State.setSent c s.accept))) <;>
    have h := e.symm.trans h
  · cases c with
    | ack =>
      cases h
      exact ⟨.of_mem ⟨rfl, rfl, rfl, rfl, rfl⟩ rfl rfl rfl, ⟨rfl, rfl⟩,
        .ended _ (completed_finish _) (.inl rfl) (.inr ⟨nofun, nofun⟩)⟩
    | none | nack | other => cases h; exact bad _ _
  · cases h

theorem execWaitReady_does {s t : State} (h : execWaitReady s = .next t) :
    CommandDoes .waitReady s t := by
  unfold execWaitReady at h
  dsimp only at h
  split at h
  · cases h
    exact ⟨.of_mem ⟨rfl, rfl, rfl, rfl, rfl⟩ rfl rfl rfl, ⟨rfl, rfl⟩,
      .ended _ (completed_raise _ _ _) (.inl rfl) (.inl nofun)⟩
  · rename_i kind _
    cases h
    cases kind <;>
    exact ⟨.of_mem ⟨rfl, rfl, rfl, rfl, rfl⟩ rfl rfl rfl, ⟨rfl, rfl⟩,
      .runs rfl rfl (.inl ⟨rfl, rfl, _, _, rfl, rfl⟩)⟩

theorem execIrqArm_does {s t : State} (h : execIrqArm s = .next t) : CommandDoes .irqArm s t := by
  cases h
  exact ⟨.of_mem ⟨rfl, rfl, rfl, rfl, rfl⟩ rfl rfl rfl, ⟨rfl, rfl⟩,
    .ended _ (completed_finish _) (.inl rfl) (.inr ⟨nofun, nofun⟩)⟩

theorem execXactSend_does {s t : State} (h : execXactSend s = .next t) : CommandDoes .xactSend s t := by
  unfold execXactSend at h
  dsimp only at h
  split at h
  · cases h
    exact ⟨.of_mem ⟨rfl, rfl, rfl, rfl, rfl⟩ rfl rfl rfl, ⟨rfl, rfl⟩,
      .ended _ (completed_raise _ _ _) (.inr ⟨rfl, .inl rfl, nofun⟩) (.inl nofun)⟩
  rename_i hn
  have hn : ¬63 < s.txLen.toNat := hn
  split at h
  · cases h
    exact ⟨.of_mem ⟨rfl, rfl, rfl, rfl, rfl⟩ rfl rfl rfl, ⟨rfl, rfl⟩,
      .ended _ (completed_raise _ _ _) (.inr ⟨rfl, .inl rfl, nofun⟩) (.inl nofun)⟩
  rename_i kind _
  obtain ⟨pd, hl, hp, e⟩ | ⟨-, e⟩ := State.need_cases
    { s.accept.setSent .none with xstate := .idle } txBase s.txLen.toNat (fun pd =>
      .next { State.putFrame pd { s.accept.setSent .none with xstate := .idle } with
        act := .sendTx (hostFrame pd) s.timeout kind }) <;> have h := e.symm.trans h
  · cases h
    exact ⟨.of_store (a := frameBase) (bs := hostFrame pd) ⟨rfl, rfl, rfl, rfl, rfl⟩ rfl rfl rfl
        (by decide) (frame_cells (by rw [hostFrame_length]; omega)),
      ⟨rfl, rfl⟩, .runs rfl rfl (.inr (.inl ⟨rfl, rfl, rfl, _, _, _, rfl⟩))⟩
  · cases h

theorem execXactRead_does {s t : State} (h : execXactRead s = .next t) : CommandDoes .xactRead s t := by
  unfold execXactRead at h
  dsimp only at h
  split at h
  · cases h
    exact ⟨.of_mem ⟨rfl, rfl, rfl, rfl, rfl⟩ rfl rfl rfl, ⟨rfl, rfl⟩,
      .ended _ (completed_raise _ _ _) (.inr ⟨rfl, .inr rfl, nofun⟩) (.inl nofun)⟩
  rename_i hx
  have hx : s.xstate = .ackRead := not_not.mp hx
  split at h
  · cases h
    exact ⟨.of_mem ⟨rfl, rfl, rfl, rfl, rfl⟩ rfl rfl rfl, ⟨rfl, rfl⟩,
      .ended _ (completed_raise _ _ _) (.inr ⟨rfl, .inr rfl, nofun⟩) (.inl nofun)⟩
  rename_i kind _
  cases h
  cases kind <;>
  exact ⟨.of_mem ⟨rfl, rfl, rfl, rfl, rfl⟩ rfl rfl rfl, ⟨rfl, rfl⟩,
    .runs rfl rfl (.inr (.inr ⟨rfl, hx, rfl, _, _, _, rfl, rfl⟩))⟩

/-- Everything a command can do when it answers a next state. -/
theorem exec_does {i : Instr} {s t : State} (hi : i.isCommand = true) (h : exec i s = .next t) :
    CommandDoes i s t := by
  cases i with
  | encode => exact execEncode_does h
  | emitAck => exact execEmitAck_does h
  | decode => simp only [exec, execDecode] at h; exact decodeOp_does h (.inl rfl)
  | decodeTrunc => simp only [exec, execDecodeTrunc] at h; exact decodeOp_does h (.inr rfl)
  | classify => exact execClassify_does h
  | checkAck => exact execCheckAck_does h
  | waitReady => exact execWaitReady_does h
  | irqArm => exact execIrqArm_does h
  | xactSend => exact execXactSend_does h
  | xactRead => exact execXactRead_does h
  | ackFrame => cases hi
  | nackFrame => cases hi
  | infoFrame => cases hi

/-- Everything a command can answer: a next state, or, of the six that read cells the controller fills, the
fault of R35. -/
theorem exec_outcome (i : Instr) (s : State) (hi : i.isCommand = true) :
    (∃ t, exec i s = .next t)
      ∨ exec i s = .fault .unwrittenRead
        ∧ i ∈ [.encode, .decode, .decodeTrunc, .classify, .checkAck, .xactSend] := by
  cases i with
  | encode =>
    simp only [exec, execEncode]
    split
    · exact .inl ⟨_, rfl⟩
    · obtain ⟨_, _, _, e⟩ | ⟨_, e⟩ := State.need_cases s.accept txBase s.txLen.toNat
        (fun pd => .next (State.finish (State.putFrame pd s.accept)))
      · exact .inl ⟨_, e⟩
      · exact .inr ⟨e, by decide⟩
  | emitAck => exact .inl ⟨_, rfl⟩
  | decode =>
    obtain ⟨d, -, hd, e⟩ | e := State.decodeBody_cases s.accept none State.endCodec
    · exact .inl ⟨_, e.trans (State.endCodec_eq _ _)⟩
    · exact .inr ⟨e, by decide⟩
  | decodeTrunc =>
    obtain ⟨d, -, hd, e⟩ | e := State.decodeBody_cases s.accept (some s.maxLen) State.endCodec
    · exact .inl ⟨_, e.trans (State.endCodec_eq _ _)⟩
    · exact .inr ⟨e, by decide⟩
  | classify =>
    simp only [exec, execClassify]
    split
    · exact .inl ⟨_, rfl⟩
    · obtain ⟨c, -, e⟩ | e := State.classifyRx_cases s.accept s.accept.rxLen.toNat
        (fun c => .next (State.finish (State.setSent c s.accept)))
      · exact .inl ⟨_, e⟩
      · exact .inr ⟨e, by decide⟩
  | checkAck =>
    simp only [exec, execCheckAck]
    split
    · exact .inl ⟨_, rfl⟩
    split
    · exact .inl ⟨_, rfl⟩
    · obtain ⟨c, -, e⟩ | e := State.classifyRx_cases s.accept s.accept.rxLen.toNat
        (fun c =>
        match c with
        | .ack => .next (State.finish (State.setSent c s.accept))
        | .nack => .next (State.raise .other .nack (State.setSent c s.accept))
        | .other => .next (State.raise .other .notAck (State.setSent c s.accept))
        | .none => .next (State.raise .other .notAck (State.setSent c s.accept)))
      · cases c <;> exact .inl ⟨_, e⟩
      · exact .inr ⟨e, by decide⟩
  | waitReady =>
    simp only [exec, execWaitReady]
    split <;> exact .inl ⟨_, rfl⟩
  | irqArm => exact .inl ⟨_, rfl⟩
  | xactSend =>
    simp only [exec, execXactSend]
    split
    · exact .inl ⟨_, rfl⟩
    split
    · exact .inl ⟨_, rfl⟩
    · rename_i kind _
      obtain ⟨pd, hl, hp, e⟩ | ⟨-, e⟩ := State.need_cases { s.accept.setSent .none with xstate := .idle } txBase
        s.txLen.toNat (fun pd =>
        .next { State.putFrame pd { s.accept.setSent .none with xstate := .idle } with
          act := .sendTx (hostFrame pd) s.timeout kind })
      · exact .inl ⟨_, e⟩
      · exact .inr ⟨e, by decide⟩
  | xactRead =>
    simp only [exec, execXactRead]
    split
    · exact .inl ⟨_, rfl⟩
    split <;> exact .inl ⟨_, rfl⟩
  | ackFrame | nackFrame | infoFrame => cases hi

/-! ### The commands whose checks pass -/

theorem execWaitReady_ok {s : State} {kind : WaitKind}
    (h : checkWaitConfig s.strategy s.transport s.armed = .ok kind) :
    execWaitReady s = .next (s.accept.beginWait .waitReady s.timeout kind) := by
  unfold execWaitReady
  dsimp only
  have : checkWaitConfig s.accept.strategy s.accept.transport s.accept.armed = .ok kind := h
  rw [this]
  rfl

theorem execXactSend_ok {s : State} {pd : List Byte} {kind : WaitKind} (hn : s.txLen.toNat ≤ 63)
    (hp : s.mem.readBytes? 0x100 s.txLen.toNat = some pd)
    (hk : checkWaitConfig s.strategy s.transport s.armed = .ok kind) :
    execXactSend s =
      .next { State.putFrame pd { s.accept.setSent .none with xstate := .idle } with
        act := .sendTx (hostFrame pd) s.timeout kind } := by
  unfold execXactSend
  dsimp only
  refine (if_neg (show ¬Config.maxPayload < s.txLen.toNat from Nat.not_lt.mpr hn)).trans ?_
  have : checkWaitConfig (State.setSent .none s.accept).strategy
    (State.setSent .none s.accept).transport (State.setSent .none s.accept).armed = .ok kind := hk
  rw [this]
  exact State.need_of_some (s := { s.accept.setSent .none with xstate := .idle }) hp _

theorem execXactRead_ok {s : State} {kind : WaitKind} (hx : s.xstate = .ackRead)
    (h : checkWaitConfig s.strategy s.transport s.armed = .ok kind) :
    execXactRead s =
      .next (State.beginWait (.read s.transport) s.timeout kind
        { s.accept.clearDecode with xstate := .awaitingReadyResponse }) := by
  refine (if_neg (not_not.mpr hx)).trans ?_
  have : checkWaitConfig s.accept.clearDecode.strategy s.accept.clearDecode.transport
    s.accept.clearDecode.armed = .ok kind := h
  rw [this]
  rfl

end Sys2Proof.Machine
end

