-- ==== Sys2Proof/Laws/Step.lean ====
section
/-! SUPPORT. A step by whose turn it is, so that no proof unfolds `step`. -/

namespace Sys2Proof.Machine

/-- With `rst` deasserted a step is the move of the agent whose turn it is. -/
theorem step_eq_move {s : State} {t : Turn} {ts : List Turn} (h : s.turns = t :: ts)
    (hr : s.rst = false) : step s = State.move t { s with turns := ts } := by
  simp only [step, h, State.takeTurn, hr, Bool.false_eq_true, if_false]

/-- While `rst` is asserted a step is the move in reset. -/
theorem step_eq_moveInReset {s : State} {t : Turn} {ts : List Turn} (h : s.turns = t :: ts)
    (hr : s.rst = true) : step s = State.moveInReset t { s with turns := ts } := by
  simp only [step, h, State.takeTurn, hr, if_true]

/-- With no turn left nothing changes. -/
theorem step_of_no_turn {s : State} (h : s.turns = []) : step s = .next s := by
  simp only [step, h]

/-- Everything a step can be. -/
theorem step_cases (s : State) :
    (s.turns = [] ∧ step s = .next s)
      ∨ ∃ t ts, s.turns = t :: ts ∧
          (s.rst = false ∧ step s = State.move t { s with turns := ts }
            ∨ s.rst = true ∧ step s = State.moveInReset t { s with turns := ts }) := by
  cases h : s.turns with
  | nil => exact .inl ⟨rfl, step_of_no_turn h⟩
  | cons t ts =>
    refine .inr ⟨t, ts, rfl, ?_⟩
    rcases Bool.eq_false_or_eq_true s.rst with hr | hr
    · exact .inr ⟨hr, step_eq_moveInReset h hr⟩
    · exact .inl ⟨hr, step_eq_move h hr⟩

/-! ### The controller's turn -/

/-- A write that is not held back runs as a write cycle. -/
theorem controllerMove_write {s : State} {off : BitVec 12} {v : Word} {as : List Access}
    (hh : s.held = none) (hb : s.bus = .write off v :: as) (hy : s.status.busy = false) :
    s.controllerMove = State.busWrite off v { s with bus := as } := by
  simp only [State.controllerMove, hh, hb, hy, Bool.false_eq_true, if_false]

/-- A write while BUSY = 1 is held. -/
theorem controllerMove_hold {s : State} {off : BitVec 12} {v : Word} {as : List Access}
    (hh : s.held = none) (hb : s.bus = .write off v :: as) (hy : s.status.busy = true) :
    s.controllerMove = .next { s with bus := as, held := some (off, v), resp := none } := by
  simp only [State.controllerMove, hh, hb, hy, if_true]

/-- A read is answered at once. -/
theorem controllerMove_read {s : State} {off : BitVec 12} {as : List Access}
    (hh : s.held = none) (hb : s.bus = .read off :: as) :
    s.controllerMove = .next (State.busRead off { s with bus := as }) := by
  simp only [State.controllerMove, hh, hb]

/-- A held write proceeds once BUSY = 0. -/
theorem controllerMove_held {s : State} {off : BitVec 12} {v : Word}
    (hh : s.held = some (off, v)) (hy : s.status.busy = false) :
    s.controllerMove = State.busWrite off v { s with held := none } := by
  simp only [State.controllerMove, hh, hy, Bool.false_eq_true, if_false]

/-- A write to CMD of an operation's word runs it. -/
theorem busWrite_cmd (w : Word) (s : State) :
    State.busWrite 0x000 w s = State.command w { s with resp := some .written } := rfl

/-- The command of a word that decodes. -/
theorem command_of_decode {w : Word} {i : Instr} (h : decode (.cmd w) = .ok i) (s : State) :
    State.command w s = exec i s := by
  simp only [State.command, h]

/-- A command at the controller's turn. -/
theorem step_command {s : State} {ts : List Turn} {as : List Access} {w : Word} {i : Instr}
    (h : s.turns = .controller :: ts) (hr : s.rst = false) (hh : s.held = none)
    (hy : s.status.busy = false) (hb : s.bus = .write 0x000 w :: as)
    (hd : Sys2Proof.decode (.cmd w) = .ok i) :
    step s = exec i { s with turns := ts, bus := as, resp := some .written } := by
  rw [step_eq_move h hr]
  show State.controllerMove _ = _
  rw [controllerMove_write (s := { s with turns := ts }) hh hb hy, busWrite_cmd, command_of_decode hd]

/-- The transport's answer to an outstanding `RxRead`, with the bytes it asks for. -/
theorem step_rxOk {s : State} {ts : List Turn} {b : List Byte} {k : OpKind} {n : Nat}
    (h : s.turns = .env (.rx (.ok b)) :: ts) (hr : s.rst = false)
    (hd : s.act.rxDemand = some (k, n)) (hb : b.length = n) :
    step s = State.rxBytes b { s with turns := ts } := by
  rw [step_eq_move h hr]
  simp only [State.move, State.envMove, State.rxAnswer, hd, if_pos hb]

/-- With too few bytes on the wire the outstanding `RxRead` stays outstanding. -/
theorem deliver_short {s : State} {k : OpKind} {n : Nat} (hd : s.act.rxDemand = some (k, n))
    (hn : s.wireIn.length < n) : s.deliver = .next s := by
  simp only [State.deliver, hd, if_neg (Nat.not_le.mpr hn)]

/-- With enough bytes on the wire it is answered OK with the first of them, as the transport's own answer
would. -/
theorem deliver_eq_step {s : State} {ts : List Turn} {k : OpKind} {n : Nat} (hr : s.rst = false)
    (ht : s.turns = ts) (hd : s.act.rxDemand = some (k, n)) (hn : n ≤ s.wireIn.length) :
    s.deliver = step { s with
      turns := .env (.rx (.ok (s.wireIn.take n))) :: ts
      wireIn := s.wireIn.drop n } := by
  subst ht
  rw [step_rxOk (s := { s with
      turns := .env (.rx (.ok (s.wireIn.take n))) :: s.turns, wireIn := s.wireIn.drop n })
    rfl hr hd (List.length_take_of_le hn)]
  simp only [State.deliver, hd, if_pos hn]

/-- A run goes step by step. -/
theorem run_succ {n : Nat} {s t : State} (h : step s = .next t) :
    core.run (n + 1) s = core.run n t := by
  have gen : ∀ (M : Host.Core) (s t : M.State), M.step s = .next t → M.run (n + 1) s = M.run n t := by
    intro M s t h
    simp only [Host.Core.run, h]
  exact gen core s t h

theorem run_zero (s : State) : core.run 0 s = .next s := rfl

end Sys2Proof.Machine
end

