-- ==== Sys2Proof/Laws/Moves.lean ====
section
/-! SUPPORT. What one step can do to the block, said once: how a running operation goes on (`OpStep`),
and every kind of step there is with `rst` deasserted (`step_does`). An invariant's proof is a case
analysis of these, and unfolds no meaning. -/

namespace Sys2Proof.Machine

/-! ### How a running operation goes on -/

/-- How a running operation can go on in a step that is no command's start. -/
inductive OpStep (s t : State) : Prop
  | stays (ha : t.act = s.act) (hs : t.status = s.status) (hx : t.xstate = s.xstate)
      (hw : t.wstate = s.wstate) (hm : t.mem = s.mem)
  | waits (why : WaitFor) (tmo : Word) (w w' : Wait) (h : s.act = .waiting why tmo w)
      (ha : t.act = .waiting why tmo w') (hs : t.status = s.status) (hx : t.xstate = s.xstate)
      (hw : s.wstate = w.wstate → t.wstate = w'.wstate)
  | ready (why : WaitFor) (tmo : Word) (w : Wait) (h : s.act = .waiting why tmo w)
      (hr : WaitReady why tmo t) (hx : t.xstate = s.xstate)
      (hs : why ≠ .waitReady → t.status = s.status)
  | expires (why : WaitFor) (tmo : Word) (w : Wait) (h : s.act = .waiting why tmo w)
      (h0 : tmo ≠ 0) (he : WaitExpired t)
      (hx : t.xstate = if why = .waitReady then s.xstate else .idle)
  | sent (f : List Byte) (tmo : Word) (k : WaitKind) (h : s.act = .sendTx f tmo k)
      (ha : t.act = .sendSent tmo k) (hs : t.status = s.status) (hx : t.xstate = .commandSent)
      (hw : t.wstate = s.wstate)
  | begins (tmo : Word) (k : WaitKind) (w : Wait) (h : s.act = .sendSent tmo k)
      (ha : t.act = .waiting .send tmo w) (hs : t.status = s.status)
      (hx : t.xstate = .awaitingReadyAck) (hw : t.wstate = w.wstate)
  | acked (tmo : Word) (h : s.act = .sendRx tmo) (hc : Completed t none) (hx : t.xstate = .ackRead)
      (hm : t.mem.readBytes? 0x300 6 = some Config.ack)
  | header (tmo : Word) (tr : Transport) (len : Byte) (b : List Byte) (h : s.act = .readHead tmo tr)
      (ha : t.act = .readRest len tmo tr) (hs : t.status = { s.status with sent := .other })
      (hx : t.xstate = s.xstate) (hw : t.wstate = s.wstate)
      (hm : t.mem.readBytes? 0x300 6 = some b) (hb : b.take 3 = Config.preamble)
      (hl : b.getD 3 0 = len) (hc : lcsOk len (b.getD 4 0) = true) (h0 : len ≠ 0)
  | decoded (len : Byte) (tmo : Word) (tr : Transport) (h : s.act = .readRest len tmo tr)
      (ha : t.act = .readDir) (hb : t.status.busy = s.status.busy) (hd : t.status.done = s.status.done)
      (hx : t.xstate = .responseRead) (hw : t.wstate = s.wstate)
  | checked (h : s.act = .readDir) (hc : Completed t none) (hx : t.xstate = .idle)
  | fails (e : Err) (hc : Completed t (some e)) (hx : t.xstate = .idle)
      (hi : s.act ≠ .idle) (hw : ∀ why tmo w, s.act ≠ .waiting why tmo w)
      (hn : e ≠ .incomplete ∨ ∃ len tmo tr, s.act = .readRest len tmo tr)

/-- What such a step does to the whole block. -/
structure OpMoves (s t : State) : Prop where
  kept : Kept s t
  armed : t.armed = s.armed
  step : OpStep s t

/-- The block's own elements agree. -/
structure SameBlock (s u : State) : Prop where
  status : u.status = s.status
  args : SameArgs s u
  armed : u.armed = s.armed
  pending : u.pending = s.pending
  prevIrq : u.prevIrq = s.prevIrq
  xstate : u.xstate = s.xstate
  wstate : u.wstate = s.wstate
  mem : u.mem = s.mem
  act : u.act = s.act
  rst : u.rst = s.rst

theorem SameBlock.kept {s u : State} (h : SameBlock s u) : Kept s u :=
  .of_mem h.args h.prevIrq h.rst h.mem

theorem OpMoves.of_same {s u t : State} (h : SameBlock s u) (m : OpMoves u t) : OpMoves s t := by
  refine ⟨h.kept.trans m.kept, m.armed.trans h.armed, ?_⟩
  obtain ⟨-, -, m⟩ := m
  cases m
  case stays a1 a2 a3 a4 a5 =>
    exact .stays (a1.trans h.act) (a2.trans h.status) (a3.trans h.xstate) (a4.trans h.wstate)
      (a5.trans h.mem)
  case waits why tmo w w' a1 a2 a3 a4 a5 =>
    exact .waits why tmo w w' (h.act ▸ a1) a2 (a3.trans h.status) (a4.trans h.xstate)
      (fun k => a5 (h.wstate.trans k))
  case ready why tmo w a1 a2 a3 a4 =>
    exact .ready why tmo w (h.act ▸ a1) a2 (a3.trans h.xstate) (fun k => (a4 k).trans h.status)
  case expires why tmo w a1 a2 a3 a4 => exact .expires why tmo w (h.act ▸ a1) a2 a3 (h.xstate ▸ a4)
  case sent f tmo k a1 a2 a3 a4 a5 =>
    exact .sent f tmo k (h.act ▸ a1) a2 (a3.trans h.status) a4 (a5.trans h.wstate)
  case begins tmo k w a1 a2 a3 a4 a5 =>
    exact .begins tmo k w (h.act ▸ a1) a2 (a3.trans h.status) a4 a5
  case acked tmo a1 a2 a3 a4 => exact .acked tmo (h.act ▸ a1) a2 a3 a4
  case header tmo tr len b a1 a2 a3 a4 a5 a6 a7 a8 a9 a10 =>
    exact .header tmo tr len b (h.act ▸ a1) a2 (a3.trans (by rw [h.status])) (a4.trans h.xstate)
      (a5.trans h.wstate) a6 a7 a8 a9 a10
  case decoded len tmo tr a1 a2 a3 a4 a5 a6 =>
    exact .decoded len tmo tr (h.act ▸ a1) a2 (a3.trans (by rw [h.status]))
      (a4.trans (by rw [h.status])) a5 (a6.trans h.wstate)
  case checked a1 a2 a3 => exact .checked (h.act ▸ a1) a2 a3
  case fails e a1 a2 a3 a4 a5 => exact .fails e a1 a2 (h.act ▸ a3) (h.act ▸ a4) (h.act ▸ a5)

theorem opMoves_self (s : State) : OpMoves s s :=
  ⟨.of_mem ⟨rfl, rfl, rfl, rfl, rfl⟩ rfl rfl rfl, rfl, .stays rfl rfl rfl rfl rfl⟩

/-! ### Ready-waits -/

theorem endWait_moves {s v : State} {why : WaitFor} {tmo : Word} {w : Wait}
    (h : s.act = .waiting why tmo w)
    (hv : v = s.endWait why tmo ∨ v = State.endWait why tmo { s with pending := false }) :
    OpMoves s v := by
  rcases hv with rfl | rfl <;> cases why <;>
  exact ⟨.of_mem ⟨rfl, rfl, rfl, rfl, rfl⟩ rfl rfl rfl, rfl,
    .ready _ tmo w h (waitReady_endWait _ _ _) rfl
      (by first | (intro h; exact absurd rfl h) | exact fun _ => rfl)⟩

theorem expireWait_moves {s : State} {why : WaitFor} {tmo a b : Word} {w : Wait}
    (h : s.act = .waiting why tmo w) (he : expired tmo a b = true) : OpMoves s (s.expireWait why) := by
  have h0 := (expired_eq_true.mp he).1
  cases why <;>
  exact ⟨.of_mem ⟨rfl, rfl, rfl, rfl, rfl⟩ rfl rfl rfl, rfl,
    .expires _ tmo w h h0 (completed_raise _ _ _) rfl⟩

theorem gpioSample_moves {s : State} {why : WaitFor} {tmo start : Word} {w : Wait}
    (h : s.act = .waiting why tmo w) :
    OpMoves s (s.gpioSample why tmo start) ∧ (s.gpioSample why tmo start).pending = s.pending := by
  unfold State.gpioSample
  split
  · exact ⟨endWait_moves h (.inl rfl), by cases why <;> rfl⟩
  split
  · rename_i he; exact ⟨expireWait_moves h he, by cases why <;> rfl⟩
  · exact ⟨⟨.of_mem ⟨rfl, rfl, rfl, rfl, rfl⟩ rfl rfl rfl, rfl,
      .waits _ _ _ _ h rfl rfl rfl (fun _ => rfl)⟩, rfl⟩

/-- The block's turn in a wait; an event is taken only by an IRQ wait that ends in ready. -/
theorem waitStep_moves {s : State} {why : WaitFor} {tmo : Word} {w : Wait}
    (h : s.act = .waiting why tmo w) :
    OpMoves s (s.waitStep why tmo w)
      ∧ ((s.waitStep why tmo w).pending = s.pending
        ∨ (∃ start, w = .block start) ∧ (s.waitStep why tmo w).pending = false
          ∧ WaitReady why tmo (s.waitStep why tmo w)) := by
  cases w with
  | settle start =>
    simp only [State.waitStep]
    split
    · exact ⟨(gpioSample_moves h).1, .inl (gpioSample_moves h).2⟩
    · exact ⟨opMoves_self s, .inl rfl⟩
  | poll start last =>
    simp only [State.waitStep]
    split
    · exact ⟨(gpioSample_moves h).1, .inl (gpioSample_moves h).2⟩
    · exact ⟨opMoves_self s, .inl rfl⟩
  | block start =>
    simp only [State.waitStep, State.irqObserve]
    split
    · exact ⟨endWait_moves h (.inr rfl),
        .inr ⟨⟨start, rfl⟩, by cases why <;> rfl, waitReady_endWait _ _ _⟩⟩
    split
    · rename_i he; exact ⟨expireWait_moves h he, .inl (by cases why <;> rfl)⟩
    · exact ⟨opMoves_self s, .inl rfl⟩
  | statusDue start last =>
    have asks : OpMoves s { s with act := .waiting why tmo (.statusCall start s.tick) } :=
      ⟨.of_mem ⟨rfl, rfl, rfl, rfl, rfl⟩ rfl rfl rfl, rfl,
        .waits _ _ _ _ h rfl rfl rfl (fun h => h)⟩
    cases last with
    | none => exact ⟨asks, .inl rfl⟩
    | some last =>
      simp only [State.waitStep]
      split
      · exact ⟨asks, .inl rfl⟩
      · exact ⟨opMoves_self s, .inl rfl⟩
  | statusCall => exact ⟨opMoves_self s, .inl rfl⟩

theorem statusAnswer_moves (r : StatusResult) (s : State) :
    OpMoves s (s.statusAnswer r) ∧ (s.statusAnswer r).pending = s.pending := by
  unfold State.statusAnswer
  split
  · rename_i why tmo start t h
    unfold State.statusObserve
    split
    · exact ⟨endWait_moves h (.inl rfl), by cases why <;> rfl⟩
    split
    · rename_i he; exact ⟨expireWait_moves h he, by cases why <;> rfl⟩
    · exact ⟨⟨.of_mem ⟨rfl, rfl, rfl, rfl, rfl⟩ rfl rfl rfl, rfl,
        .waits _ _ _ _ h rfl rfl rfl (fun h => h)⟩, rfl⟩
  all_goals exact ⟨opMoves_self s, rfl⟩

/-! ### The transactions -/

theorem checkDir_moves {s : State} (h : s.act = .readDir) :
    OpMoves s s.checkDir ∧ s.checkDir.pending = s.pending := by
  unfold State.checkDir
  split
  · exact ⟨⟨.of_mem ⟨rfl, rfl, rfl, rfl, rfl⟩ rfl rfl rfl, rfl,
      .fails _ (completed_raise _ _ _) rfl (by rw [h]; nofun) (by rw [h]; nofun) (.inl nofun)⟩, rfl⟩
  · exact ⟨⟨.of_mem ⟨rfl, rfl, rfl, rfl, rfl⟩ rfl rfl rfl, rfl,
      .checked h (completed_finish _) rfl⟩, rfl⟩

theorem txAnswer_moves (r : TxResult) (s : State) :
    OpMoves s (s.txAnswer r) ∧ (s.txAnswer r).pending = s.pending
      ∧ ((s.txAnswer r).xstate = .commandSent → s.xstate ≠ .commandSent → r = .ok) := by
  unfold State.txAnswer
  split
  · rename_i f tmo k h
    cases r with
    | ok =>
      exact ⟨⟨.of_mem ⟨rfl, rfl, rfl, rfl, rfl⟩ rfl rfl rfl, rfl, .sent _ _ _ h rfl rfl rfl rfl⟩,
        rfl, fun _ _ => rfl⟩
    | ioerr | tmo =>
      exact ⟨⟨.of_mem ⟨rfl, rfl, rfl, rfl, rfl⟩ rfl rfl rfl, rfl,
        .fails _ (completed_raise _ _ _) rfl (by rw [h]; nofun) (by rw [h]; nofun) (.inl nofun)⟩,
        rfl, nofun⟩
  all_goals exact ⟨opMoves_self s, rfl, fun h h' => absurd h h'⟩

/-- Bytes stored from RXBUF on. -/
theorem kept_rxStore {s t : State} {a : Nat} {b : List Byte} (ha : 0x300 ≤ a)
    (hb : a + b.length ≤ 0x406) (h1 : SameArgs s t) (h2 : t.prevIrq = s.prevIrq) (h3 : t.rst = s.rst)
    (h4 : t.mem = s.mem.writeBytes a b) : Kept s t :=
  .of_store h1 h2 h3 h4 (by omega) (rx_cells ha hb)

theorem takeAck_moves {s : State} {tmo : Word} {b : List Byte} (h : s.act = .sendRx tmo)
    (hb : b.length = 6) : OpMoves s (s.takeAck b) ∧ (s.takeAck b).pending = s.pending := by
  have fits : rxBase + b.length ≤ 0x406 := by rw [hb]; decide
  unfold State.takeAck
  have hbt : b.take 6 = b := by rw [← hb]; exact List.take_length
  dsimp only
  split
  · rename_i hc
    have : b = Config.ack := by rw [← hbt]; exact sentinelClass_eq_ack.mp hc
    exact ⟨⟨kept_rxStore (by decide) fits ⟨rfl, rfl, rfl, rfl, rfl⟩ rfl rfl rfl, rfl,
      .acked _ h (completed_finish _) rfl
        (by rw [this]; exact Memory.readBytes?_writeBytes s.mem rxBase Config.ack)⟩, rfl⟩
  all_goals
    exact ⟨⟨kept_rxStore (by decide) fits ⟨rfl, rfl, rfl, rfl, rfl⟩ rfl rfl rfl, rfl,
      .fails _ (completed_raise _ _ _) rfl (by rw [h]; nofun) (by rw [h]; nofun) (.inl nofun)⟩, rfl⟩

theorem takeHeader_moves {s : State} {tmo : Word} {tr : Transport} {b : List Byte}
    (h : s.act = .readHead tmo tr) (hb : b.length = 6) :
    OpMoves s (s.takeHeader tmo tr b) ∧ (s.takeHeader tmo tr b).pending = s.pending := by
  have fits : rxBase + b.length ≤ 0x406 := by rw [hb]; decide
  have bad : ∀ e, e ≠ .incomplete →
      OpMoves s (State.raise .xactRead e
          { (s.store rxBase b).setSent (sentinelClass b) with rxLen := 6 })
        ∧ (State.raise .xactRead e
          { (s.store rxBase b).setSent (sentinelClass b) with rxLen := 6 }).pending = s.pending :=
    fun e he => ⟨⟨kept_rxStore (by decide) fits ⟨rfl, rfl, rfl, rfl, rfl⟩ rfl rfl rfl, rfl,
      .fails _ (completed_raise _ _ _) rfl (by rw [h]; nofun) (by rw [h]; nofun) (.inl he)⟩, rfl⟩
  unfold State.takeHeader
  dsimp only
  split
  · exact bad _ nofun
  rename_i h1
  split
  · exact bad _ nofun
  rename_i h2
  have hc : sentinelClass b = .other := by
    rw [sentinelClass_six hb] at h1 h2 ⊢
    split_ifs at h1 h2 ⊢ <;> first | rfl | exact absurd rfl h1 | exact absurd rfl h2
  split
  · exact bad _ nofun
  rename_i h3
  split
  · exact bad _ nofun
  rename_i h4
  split
  · exact bad _ nofun
  rename_i h5
  exact ⟨⟨kept_rxStore (by decide) fits ⟨rfl, rfl, rfl, rfl, rfl⟩ rfl rfl rfl, rfl,
    .header _ _ _ b h rfl (by rw [hc]; rfl) rfl rfl
      (by rw [← hb]; exact Memory.readBytes?_writeBytes s.mem rxBase b) (not_not.mp h3) rfl
      (by simpa using h4) h5⟩, rfl⟩

theorem takeRest_moves {s t : State} {len : Byte} {tmo : Word} {tr : Transport} {b : List Byte}
    (h : s.act = .readRest len tmo tr) (hb : b.length = len.toNat + 1)
    (ht : s.takeRest len tr b = .next t) : OpMoves s t ∧ t.pending = s.pending := by
  have hlt := len.isLt
  obtain ⟨v, hv, va, vs, vw, vp, var⟩ : ∃ v,
      v = { s.store (rxBase + 6) b with rxLen := BitVec.ofNat 9 (len.toNat + 7) } ∧ v.act = s.act
        ∧ v.status = s.status ∧ v.wstate = s.wstate ∧ v.pending = s.pending ∧ v.armed = s.armed :=
    ⟨_, rfl, rfl, rfl, rfl, rfl, rfl⟩
  have kv : Kept s v := by
    rw [hv]
    exact kept_rxStore (a := rxBase + 6) (by simp [rxBase])
      (by rw [hb]; simp only [rxBase]; omega) ⟨rfl, rfl, rfl, rfl, rfl⟩ rfl rfl rfl
  have bad : ∀ (e : Err) (u : State), Kept s u → u.armed = s.armed → u.pending = s.pending →
      OpMoves s (State.raise .xactRead e u) ∧ (State.raise .xactRead e u).pending = s.pending :=
    fun e u ku ha hp => ⟨⟨⟨ku.args, ku.prevIrq, ku.rst, ku.low, ku.wf⟩, ha,
      .fails _ (completed_raise _ _ _) rfl (by rw [h]; nofun) (by rw [h]; nofun)
        (.inr ⟨_, _, _, h⟩)⟩, hp⟩
  have main : ∀ cut, v.decodeBody cut State.endDecode = .next t →
      OpMoves s t ∧ t.pending = s.pending := by
    intro cut hd
    obtain ⟨d, -, hl, e⟩ | e := State.decodeBody_cases v cut State.endDecode
    · rw [e] at hd
      have ku := kv.trans (kept_afterDecode v d hl)
      unfold State.endDecode at hd
      split at hd
      · cases hd; exact bad _ _ ku var vp
      · cases hd
        exact ⟨⟨⟨ku.args, ku.prevIrq, ku.rst, ku.low, ku.wf⟩, var,
          .decoded _ _ _ h rfl (by show v.status.busy = _; rw [vs])
            (by show v.status.done = _; rw [vs]) rfl vw⟩, vp⟩
    · rw [e] at hd; cases hd
  unfold State.takeRest at ht
  simp only [← hv] at ht
  split at ht
  · exact main _ ht
  split at ht
  · cases ht; exact bad _ _ kv var vp
  · exact main _ ht

theorem rxBytes_moves {s t : State} {k : OpKind} {n : Nat} {b : List Byte}
    (h : s.act.rxDemand = some (k, n)) (hb : b.length = n) (ht : s.rxBytes b = .next t) :
    OpMoves s t ∧ t.pending = s.pending := by
  unfold State.rxBytes at ht
  split at ht <;> rename_i ha <;>
    simp only [ha, Activity.rxDemand, Option.some.injEq, Prod.mk.injEq, reduceCtorEq] at h <;>
    obtain ⟨-, rfl⟩ := h
  · cases ht; exact takeAck_moves ha hb
  · cases ht; exact takeHeader_moves ha hb
  · exact takeRest_moves ha hb ht

theorem rxDemand_some {a : Activity} {k : OpKind} {n : Nat} (h : a.rxDemand = some (k, n)) :
    a ≠ .idle ∧ (∀ why tmo w, a ≠ .waiting why tmo w) ∧ k ≠ .other := by
  cases a <;> simp only [Activity.rxDemand, Option.some.injEq, Prod.mk.injEq, reduceCtorEq] at h <;>
    (obtain ⟨rfl, rfl⟩ := h; exact ⟨nofun, nofun, nofun⟩)

theorem raiseRx_moves {s : State} {k : OpKind} {n : Nat} (e : Err) (he : e ≠ .incomplete)
    (h : s.act.rxDemand = some (k, n)) :
    OpMoves s (s.raise k e) ∧ (s.raise k e).pending = s.pending := by
  obtain ⟨h1, h2, h3⟩ := rxDemand_some h
  cases k with
  | other => exact absurd rfl h3
  | xactSend | xactRead =>
    exact ⟨⟨.of_mem ⟨rfl, rfl, rfl, rfl, rfl⟩ rfl rfl rfl, rfl,
      .fails _ (completed_raise _ _ _) rfl h1 h2 (.inl he)⟩, rfl⟩

theorem rxAnswer_moves {s t : State} {r : RxResult} (ht : s.rxAnswer r = .next t) :
    OpMoves s t ∧ t.pending = s.pending := by
  unfold State.rxAnswer at ht
  split at ht
  · cases ht; exact ⟨opMoves_self s, rfl⟩
  rename_i k n h
  split at ht
  · cases ht; exact raiseRx_moves _ nofun h
  · cases ht; exact raiseRx_moves _ nofun h
  · split at ht
    · rename_i hb; exact rxBytes_moves h hb ht
    · cases ht; exact ⟨opMoves_self s, rfl⟩

/-! ### The wire -/

theorem deliver_moves {s t : State} (ht : s.deliver = .next t) :
    OpMoves s t ∧ t.pending = s.pending := by
  unfold State.deliver at ht
  split at ht
  · cases ht; exact ⟨opMoves_self s, rfl⟩
  rename_i k n h
  split at ht
  · rename_i hl
    obtain ⟨a, b⟩ := rxBytes_moves (s := { s with wireIn := s.wireIn.drop n }) h (by simp [hl]) ht
    refine ⟨OpMoves.of_same ?_ a, b⟩
    exact ⟨rfl, ⟨rfl, rfl, rfl, rfl, rfl⟩, rfl, rfl, rfl, rfl, rfl, rfl, rfl, rfl⟩
  · cases ht; exact ⟨opMoves_self s, rfl⟩

theorem receive_moves {s t : State} {f : List Byte} (ht : s.receive f = .next t) :
    OpMoves s t ∧ t.pending = s.pending := by
  obtain ⟨a, b⟩ := deliver_moves ht
  refine ⟨OpMoves.of_same ?_ a, b⟩
  exact ⟨rfl, ⟨rfl, rfl, rfl, rfl, rfl⟩, rfl, rfl, rfl, rfl, rfl, rfl, rfl, rfl⟩

/-- With no read outstanding bytes stay on the wire. -/
theorem receive_of_none {s : State} (f : List Byte) (h : s.act.rxDemand = none) :
    s.receive f = .next { s with wireIn := s.wireIn ++ f } := by
  simp only [State.receive, State.deliver, h]

/-- What decodes from the wire is run as bytes received. -/
theorem exec_of_decodeWire {f : List Byte} {i : Instr} {rest : List Byte}
    (h : decodeWire f = .ok (i, rest)) (u : State) : ∃ f, exec i u = u.receive f := by
  unfold decodeWire at h
  split at h
  · cases h; exact ⟨_, rfl⟩
  split at h
  · cases h; exact ⟨_, rfl⟩
  split at h
  · split at h
    · split at h
      · cases h; exact ⟨_, rfl⟩
      · cases h
    · cases h
  · cases h

/-- The peer's turn is bytes received. -/
theorem peerMove_eq (s : State) : ∃ p f, s.peerMove = State.receive f { s with peer := p } := by
  unfold State.peerMove
  split
  · rename_i i rest h
    obtain ⟨f, e⟩ := exec_of_decodeWire h { s with peer := rest }
    exact ⟨_, f, e⟩
  · exact ⟨_, _, rfl⟩
  · exact ⟨_, _, rfl⟩

theorem peerMove_moves {s t : State} (ht : s.peerMove = .next t) :
    OpMoves s t ∧ t.pending = s.pending := by
  obtain ⟨p, f, e⟩ := peerMove_eq s
  rw [e] at ht
  obtain ⟨a, b⟩ := receive_moves ht
  refine ⟨OpMoves.of_same ?_ a, b⟩
  exact ⟨rfl, ⟨rfl, rfl, rfl, rfl, rfl⟩, rfl, rfl, rfl, rfl, rfl, rfl, rfl, rfl⟩

/-! ### The block's turn -/

theorem blockMove_moves {s t : State} (ht : s.blockMove = .next t) :
    OpMoves s t
      ∧ (t.pending = s.pending
        ∨ ∃ why tmo start, s.act = .waiting why tmo (.block start) ∧ t.pending = false
            ∧ WaitReady why tmo t) := by
  unfold State.blockMove at ht
  split at ht
  · rename_i why tmo w h
    cases ht
    obtain ⟨a, b | ⟨⟨start, rfl⟩, b, c⟩⟩ := waitStep_moves h
    · exact ⟨a, .inl b⟩
    · exact ⟨a, .inr ⟨why, tmo, start, h, b, c⟩⟩
  · rename_i tmo k h
    cases ht
    obtain ⟨w, b1, b2⟩ := beginWait_act .send tmo k { s with xstate := .awaitingReadyAck }
    cases k <;>
    exact ⟨⟨.of_mem ⟨rfl, rfl, rfl, rfl, rfl⟩ rfl rfl rfl, rfl, .begins tmo _ w h b1 rfl rfl b2⟩,
      .inl rfl⟩
  · rename_i h
    cases ht
    exact ⟨(checkDir_moves h).1, .inl (checkDir_moves h).2⟩
  all_goals cases ht; exact ⟨opMoves_self s, .inl rfl⟩

/-- Only an answered `TxWrite` gives CommandSent. -/
theorem OpStep.commandSent {s t : State} (h : OpStep s t) (hx : t.xstate = .commandSent)
    (hn : s.xstate ≠ .commandSent) :
    ∃ f tmo k, s.act = .sendTx f tmo k ∧ t.act = .sendSent tmo k := by
  cases h with
  | stays _ _ k => exact absurd (k.symm.trans hx) hn
  | waits _ _ _ _ _ _ _ k => exact absurd (k.symm.trans hx) hn
  | ready _ _ _ _ _ k => exact absurd (k.symm.trans hx) hn
  | expires _ _ _ _ _ _ k => rw [k] at hx; split at hx <;> first | exact absurd hx hn | cases hx
  | sent f tmo k h1 h2 => exact ⟨f, tmo, k, h1, h2⟩
  | begins _ _ _ _ _ _ k => rw [k] at hx; cases hx
  | acked _ _ _ k => rw [k] at hx; cases hx
  | header _ _ _ _ _ _ _ k => exact absurd (k.symm.trans hx) hn
  | decoded _ _ _ _ _ _ _ k => rw [k] at hx; cases hx
  | checked _ _ k => rw [k] at hx; cases hx
  | fails _ _ k => rw [k] at hx; cases hx

/-! ### The register port -/

/-- The map of the port, by kind of element. -/
theorem portReg_cases : ∀ off : BitVec 12,
    portReg off = none ∨ off = 0x000 ∧ portReg off = some .cmd
      ∨ portReg off ∈ [some .status, some .config, some .timeout, some .txLen, some .maxLen,
          some .rxLen, some .frameLen, some .frameInfo, some .pLen, some .irqStat, some .seqState,
          some (.roBuf off.toNat)]
      ∨ off.toNat % 4 = 0 ∧ (0x100 ≤ off.toNat ∧ off.toNat < 0x140 ∨ 0x300 ≤ off.toNat ∧ off.toNat < 0x408)
          ∧ portReg off = some (.rwBuf off.toNat) := by
  decide +kernel

/-- The five registers a write changes are each at one offset (R40). -/
theorem portReg_writable : ∀ off : BitVec 12,
    (portReg off = some .config → off = 0x008) ∧ (portReg off = some .timeout → off = 0x00C)
      ∧ (portReg off = some .txLen → off = 0x010) ∧ (portReg off = some .maxLen → off = 0x014)
      ∧ (portReg off = some .rxLen → off = 0x018) := by
  decide +kernel

theorem portReg_rwBuf {off : BitVec 12} {a : Nat} (h : portReg off = some (.rwBuf a)) :
    a = off.toNat ∧ off.toNat % 4 = 0 ∧ (0x100 ≤ a ∧ a < 0x140 ∨ 0x300 ≤ a ∧ a < 0x408) := by
  obtain e | ⟨-, e⟩ | e | ⟨h4, hr, e⟩ := portReg_cases off
  · rw [h] at e; cases e
  · rw [h] at e; cases e
  · rw [h] at e; simp at e
  · rw [h] at e; cases e; exact ⟨rfl, h4, hr⟩

theorem portReg_cmd {off : BitVec 12} (h : portReg off = some .cmd) : off = 0x000 := by
  obtain e | ⟨e, -⟩ | e | ⟨-, -, e⟩ := portReg_cases off
  · rw [h] at e; cases e
  · exact e
  · rw [h] at e; simp at e
  · rw [h] at e; cases e

theorem isCommand_of_decodeOp {op : Byte} {i : Instr} (h : decodeOp op = some i) :
    i.isCommand = true := by
  unfold decodeOp at h
  repeat' split at h
  all_goals first | (cases h; rfl) | cases h

theorem isCommand_of_decode {w : Word} {i : Instr} (h : Sys2Proof.decode (.cmd w) = .ok i) :
    i.isCommand = true := by
  simp only [Sys2Proof.decode, decodeCmd] at h
  split at h
  · split at h
    · rename_i h'; cases h; exact isCommand_of_decodeOp h'
    · cases h
  · cases h

/-! ### Every kind of step -/

/-- Everything one step can do to the block with `rst` deasserted before and after it. -/
inductive StepDoes (s t : State) : Prop
  /-- The block's, the peer's or the transport's turn. -/
  | op (h : OpMoves s t)
      (hp : t.pending = s.pending
        ∨ ∃ ts why tmo start, s.turns = .block :: ts ∧ s.act = .waiting why tmo (.block start)
            ∧ t.pending = false ∧ WaitReady why tmo t)
      (hc : ∀ ts, s.turns ≠ .controller :: ts)
      (ht : t.xstate = .commandSent → s.xstate ≠ .commandSent → ∃ ts, s.turns = .env (.tx .ok) :: ts)
  /-- `irq_n` changes. -/
  | edge (ts : List Turn) (v : Bool) (h : s.turns = .env (.irq v) :: ts)
      (ht : t = State.irqChange v { s with turns := ts })
  /-- Time passes, a port access changes nothing of the block, or nobody moves. -/
  | idle (h : SameBlock s t)
  /-- A write to a register other than CMD. -/
  | port (hb : s.status.busy = false) (hc : ∃ off v, WriteAt s off v ∧ off ≠ 0x000)
      (hs : t.status = s.status) (ha : t.armed = s.armed) (hp : t.pending = s.pending)
      (hq : t.prevIrq = s.prevIrq) (hx : t.xstate = s.xstate) (hw : t.wstate = s.wstate)
      (hm : s.mem.wf = true → t.mem.wf = true) (hact : t.act = s.act)
  /-- A command is accepted. -/
  | command (hb : s.status.busy = false) (i : Instr) (w : Word) (hc : CommandAt s w)
      (hd : Sys2Proof.decode (.cmd w) = .ok i) (h : CommandDoes i s t)
  /-- A word that is no command is refused. -/
  | illegal (hb : s.status.busy = false) (w : Word) (hc : CommandAt s w) (hk : Kept s t)
      (ha : t.armed = s.armed) (hp : t.pending = s.pending) (hx : t.xstate = s.xstate)
      (h : Completed t (some .illegalOp)) (hm : t.mem = s.mem)

theorem CommandDoes.of_same {i : Instr} {s u t : State} (h : SameBlock s u) (m : CommandDoes i u t) :
    CommandDoes i s t := by
  obtain ⟨a, b, c⟩ := m
  refine ⟨h.kept.trans a, by rw [← h.pending, ← h.armed]; exact b, ?_⟩
  cases c
  case ended r h1 h2 h3 => exact .ended r h1 (by rw [← h.xstate]; exact h2) h3
  case runs h1 h2 h3 => exact .runs h1 h2 (by rw [← h.xstate, ← h.wstate]; exact h3)

theorem busWrite_does {s u t : State} {off : BitVec 12} {v : Word} (hs : SameBlock s u)
    (hc : WriteAt s off v) (ht : u.busWrite off v = .next t) : StepDoes s t := by
  have hb := hc.2.1
  have hcmd : off = 0x000 → CommandAt s v := by rintro rfl; exact hc
  unfold State.busWrite at ht
  split at ht
  · cases ht
    exact .idle ⟨hs.1, hs.2, hs.3, hs.4, hs.5, hs.6, hs.7, hs.8, hs.9, hs.10⟩
  · rename_i hoff
    have hs' : SameBlock s { u with resp := some .written } :=
      ⟨hs.1, hs.2, hs.3, hs.4, hs.5, hs.6, hs.7, hs.8, hs.9, hs.10⟩
    unfold State.command at ht
    split at ht
    · rename_i i hd
      exact .command hb i v (hcmd (portReg_cmd hoff)) hd
        ((exec_does (isCommand_of_decode hd) ht).of_same hs')
    · cases ht
      exact .illegal hb v (hcmd (portReg_cmd hoff))
        (hs'.kept.trans (.of_mem ⟨rfl, rfl, rfl, rfl, rfl⟩ rfl rfl rfl)) hs.armed hs.pending
        hs.xstate (completed_raise _ _ _) hs.mem
  · rename_i r hoff hr
    have hc : ∃ off v, WriteAt s off v ∧ off ≠ 0x000 :=
      ⟨off, v, hc, fun h => hoff (by subst h; exact (Option.some.inj hr).symm)⟩
    cases ht
    cases hr' : r with
    | rwBuf a =>
      subst hr'
      obtain ⟨ha, h4, hrange⟩ := portReg_rwBuf hr
      refine .port hb hc hs.status hs.armed hs.pending hs.prevIrq hs.xstate hs.wstate
        (fun hw => ?_) hs.act
      show (u.mem.writeBytes a _).wf = true
      rw [hs.mem]
      apply Memory.wf_writeBytes hw
      intro i hi
      rw [isCell_iff]
      split at hi <;> (simp [unpackWord] at hi; omega)
    | cmd | status | config | timeout | txLen | maxLen | rxLen | frameLen | frameInfo | pLen
    | irqStat | seqState | roBuf =>
      subst hr'
      exact .port hb hc hs.status hs.armed hs.pending hs.prevIrq hs.xstate hs.wstate
        (fun hw => by show u.mem.wf = true; rw [hs.mem]; exact hw) hs.act

/-- With `rst` deasserted a step is one of these, or it asserts `rst`. -/
theorem step_does_or_resets {s t : State} (h : step s = .next t) (hr : s.rst = false) :
    StepDoes s t
      ∨ ∃ ts, s.turns = .env (.rst true) :: ts
          ∧ t = State.blockReset { s with turns := ts, rst := true } := by
  by_cases hreset : ∃ ts, s.turns = .env (.rst true) :: ts
  · obtain ⟨ts, hts⟩ := hreset
    refine .inr ⟨ts, hts, ?_⟩
    rw [step_eq_move hts hr] at h
    simp only [State.move, State.envMove, hr] at h
    cases h; rfl
  left
  obtain ⟨-, e⟩ | ⟨x, ts, hts, ⟨-, e⟩ | ⟨hr'', -⟩⟩ := step_cases s
  · rw [e] at h; cases h
    exact .idle ⟨rfl, ⟨rfl, rfl, rfl, rfl, rfl⟩, rfl, rfl, rfl, rfl, rfl, rfl, rfl, rfl⟩
  swap
  · rw [hr] at hr''; cases hr''
  rw [e] at h
  have hsame : SameBlock s { s with turns := ts } :=
    ⟨rfl, ⟨rfl, rfl, rfl, rfl, rfl⟩, rfl, rfl, rfl, rfl, rfl, rfl, rfl, rfl⟩
  cases x with
  | controller =>
    simp only [State.move, State.controllerMove] at h
    split at h
    · rename_i off v hh
      split at h
      · cases h; exact .idle hsame
      · rename_i hb
        have hb : s.status.busy = false := by simpa using hb
        exact busWrite_does (u := { s with turns := ts, held := none })
          ⟨rfl, ⟨rfl, rfl, rfl, rfl, rfl⟩, rfl, rfl, rfl, rfl, rfl, rfl, rfl, rfl⟩
          ⟨⟨ts, hts⟩, hb, .inl hh⟩ h
    · rename_i hh
      split at h
      · cases h; exact .idle hsame
      · cases h
        exact .idle ⟨rfl, ⟨rfl, rfl, rfl, rfl, rfl⟩, rfl, rfl, rfl, rfl, rfl, rfl, rfl, rfl⟩
      · rename_i off v rest hbus
        split at h
        · cases h
          exact .idle ⟨rfl, ⟨rfl, rfl, rfl, rfl, rfl⟩, rfl, rfl, rfl, rfl, rfl, rfl, rfl, rfl⟩
        · rename_i hb
          have hb : s.status.busy = false := by simpa using hb
          exact busWrite_does (u := { s with turns := ts, bus := rest })
            ⟨rfl, ⟨rfl, rfl, rfl, rfl, rfl⟩, rfl, rfl, rfl, rfl, rfl, rfl, rfl, rfl⟩
            ⟨⟨ts, hts⟩, hb, .inr ⟨hh, _, hbus⟩⟩ h
  | block =>
    obtain ⟨a, b⟩ := blockMove_moves h
    refine .op (a.of_same hsame) ?_ (by rw [hts]; nofun) ?_
    · rcases b with b | ⟨why, tmo, start, b1, b2, b3⟩
      · exact .inl b
      · exact .inr ⟨ts, why, tmo, start, hts, b1, b2, b3⟩
    · intro hx hn
      obtain ⟨f, tmo, k, h1, h2⟩ := (a.of_same hsame).step.commandSent hx hn
      simp only [State.move, State.blockMove, h1] at h
      cases h; cases h2
  | peer =>
    obtain ⟨a, b⟩ := peerMove_moves h
    refine .op (a.of_same hsame) (.inl b) (by rw [hts]; nofun) ?_
    intro hx hn
    obtain ⟨f, tmo, k, h1, h2⟩ := (a.of_same hsame).step.commandSent hx hn
    simp only [State.move] at h
    obtain ⟨p, f', e⟩ := peerMove_eq { s with turns := ts }
    rw [e, receive_of_none f' (by simp only [h1, Activity.rxDemand])] at h
    cases h
    have := h1.symm.trans h2; cases this
  | env m =>
    cases m with
    | tick d =>
      cases h
      exact .idle ⟨rfl, ⟨rfl, rfl, rfl, rfl, rfl⟩, rfl, rfl, rfl, rfl, rfl, rfl, rfl, rfl⟩
    | irq v => cases h; exact .edge ts v hts rfl
    | rst v =>
      simp only [State.move, State.envMove] at h
      split at h
      · cases h; exact .idle hsame
      · rename_i hne
        have hne : v ≠ s.rst := hne
        rw [hr] at hne
        have : v = true := by simpa using hne
        subst this
        exact absurd ⟨ts, hts⟩ hreset
    | tx r =>
      cases h
      obtain ⟨a, b, c⟩ := txAnswer_moves r { s with turns := ts }
      exact .op (a.of_same hsame) (.inl b) (by rw [hts]; nofun)
        (fun k1 k2 => ⟨ts, by rw [hts, c k1 k2]⟩)
    | rx r =>
      obtain ⟨a, b⟩ := rxAnswer_moves h
      refine .op (a.of_same hsame) (.inl b) (by rw [hts]; nofun) ?_
      intro hx hn
      obtain ⟨f, tmo, k, h1, h2⟩ := (a.of_same hsame).step.commandSent hx hn
      simp only [State.move, State.envMove, State.rxAnswer, h1, Activity.rxDemand] at h
      cases h; cases h2
    | rxWire =>
      obtain ⟨a, b⟩ := deliver_moves h
      refine .op (a.of_same hsame) (.inl b) (by rw [hts]; nofun) ?_
      intro hx hn
      obtain ⟨f, tmo, k, h1, h2⟩ := (a.of_same hsame).step.commandSent hx hn
      simp only [State.move, State.envMove, State.deliver, h1, Activity.rxDemand] at h
      cases h; cases h2
    | statusByte r =>
      cases h
      obtain ⟨a, b⟩ := statusAnswer_moves r { s with turns := ts }
      refine .op (a.of_same hsame) (.inl b) (by rw [hts]; nofun) ?_
      intro hx hn
      obtain ⟨f, tmo, k, h1, h2⟩ := (a.of_same hsame).step.commandSent hx hn
      simp only [State.statusAnswer, h1] at h2
      cases h2

/-- With `rst` deasserted before and after it, a step is one of these. -/
theorem step_does {s t : State} (h : step s = .next t) (hr : s.rst = false) (hr' : t.rst = false) :
    StepDoes s t := by
  obtain h | ⟨ts, -, rfl⟩ := step_does_or_resets h hr
  · exact h
  · cases hr'

/-! ### Whose turn moves a running XACT operation -/

/-- A running XACT operation that neither waits nor writes: a step leaves it where it stands; or it is
between two calls and the block's own turn moves it; or its `RxRead` is outstanding, and the turn can bring
the bytes or the operation ends in an error. -/
theorem step_of_exchange {s t : State} (h : step s = .next t) (hr : s.rst = false)
    (hn : ∀ ts, s.turns ≠ .env (.rst true) :: ts) (hb : s.status.busy = true)
    (hw : ∀ why tmo w, s.act ≠ .waiting why tmo w) (hs : ∀ f tmo kind, s.act ≠ .sendTx f tmo kind) :
    (t.act = s.act ∧ t.xstate = s.xstate)
      ∨ (∃ ts, s.turns = .block :: ts ∧ s.act.rxDemand = none
          ∧ State.blockMove { s with turns := ts } = .next t)
      ∨ (s.act.rxDemand ≠ none ∧ (BringsBytes s ∨ ∃ e, Completed t (some e))) := by
  have same : ∀ {u : State}, (.next u : Out) = .next t → u.act = s.act → u.xstate = s.xstate →
      t.act = s.act ∧ t.xstate = s.xstate := by
    rintro u e h1 h2; cases e; exact ⟨h1, h2⟩
  obtain ⟨-, e⟩ | ⟨x, ts, hts, ⟨-, e⟩ | ⟨hr'', -⟩⟩ := step_cases s
  · exact .inl (same (e ▸ h) rfl rfl)
  swap
  · rw [hr] at hr''; cases hr''
  rw [e] at h
  cases x with
  | controller =>
    simp only [State.move, State.controllerMove, hb, if_true] at h
    split at h
    · exact .inl (same h rfl rfl)
    · split at h <;> exact .inl (same h rfl rfl)
  | block =>
    cases hd : s.act.rxDemand with
    | none => exact .inr (.inl ⟨ts, hts, rfl, h⟩)
    | some d =>
      refine .inl ?_
      cases ha : s.act <;> simp only [ha, Activity.rxDemand, reduceCtorEq] at hd <;>
        (simp only [State.move, State.blockMove, ha] at h; rw [← ha]; exact same h ha.symm rfl)
  | peer =>
    by_cases hd : s.act.rxDemand = none
    · obtain ⟨p, f, e⟩ := peerMove_eq { s with turns := ts }
      exact .inl (same ((e.trans (receive_of_none f hd)).symm.trans h) rfl rfl)
    · exact .inr (.inr ⟨hd, .inl ⟨_, _, hts, .inl rfl⟩⟩)
  | env m =>
    cases m with
    | tick d => exact .inl (same h rfl rfl)
    | irq v =>
      refine .inl (same h ?_ ?_) <;> unfold State.irqChange <;> split <;> rfl
    | rst v =>
      simp only [State.move, State.envMove] at h
      split at h
      · exact .inl (same h rfl rfl)
      · rename_i hne
        have hne : v ≠ s.rst := hne
        rw [hr] at hne
        exact absurd (by rw [hts, show v = true by simpa using hne]) (hn ts)
    | tx r =>
      refine .inl (same h ?_ ?_) <;> unfold State.txAnswer <;> split <;> rename_i ha <;>
        first | rfl | exact absurd ha (hs _ _ _)
    | statusByte r =>
      refine .inl (same h ?_ ?_) <;> unfold State.statusAnswer <;> split <;> rename_i ha <;>
        first | rfl | exact absurd ha (hw _ _ _)
    | rx r =>
      simp only [State.move, State.envMove, State.rxAnswer] at h
      split at h
      · exact .inl (same h rfl rfl)
      · rename_i k n hd
        have hd : s.act.rxDemand ≠ none := by rw [show s.act.rxDemand = _ from hd]; nofun
        cases r with
        | ok b => exact .inr (.inr ⟨hd, .inl ⟨_, _, hts, .inr (.inr ⟨b, rfl⟩)⟩⟩)
        | ioerr => cases h; exact .inr (.inr ⟨hd, .inr ⟨_, completed_raise _ _ _⟩⟩)
        | tmo => cases h; exact .inr (.inr ⟨hd, .inr ⟨_, completed_raise _ _ _⟩⟩)
    | rxWire =>
      by_cases hd : s.act.rxDemand = none
      · simp only [State.move, State.envMove, State.deliver, hd] at h
        exact .inl (same h rfl rfl)
      · exact .inr (.inr ⟨hd, .inl ⟨_, _, hts, .inr (.inl rfl)⟩⟩)

/-! ### While `rst` is asserted -/

/-- Every turn taken while `rst` is asserted ends in a reset block, whatever the agents outside it now
hold; only a move of `rst` itself changes its level. -/
theorem moveInReset_eq (x : Turn) (s : State) :
    ∃ u : State, s.moveInReset x = .next u.blockReset
      ∧ ((∀ v, x ≠ .env (.rst v)) → u.rst = s.rst) ∧ ∀ v, x = .env (.rst v) → u.rst = v := by
  have keep : ∀ u : State, s.moveInReset x = .next u.blockReset → u.rst = s.rst →
      (∀ v, x ≠ .env (.rst v)) →
      ∃ u : State, s.moveInReset x = .next u.blockReset
        ∧ ((∀ v, x ≠ .env (.rst v)) → u.rst = s.rst) ∧ ∀ v, x = .env (.rst v) → u.rst = v :=
    fun u e h hx => ⟨u, e, fun _ => h, fun v hv => absurd hv (hx v)⟩
  cases x with
  | controller =>
    refine keep (State.controllerInReset s.blockReset) ?_ ?_ nofun
    · simp only [State.moveInReset, State.controllerInReset]
      split <;> rfl
    · simp only [State.controllerInReset]
      split <;> rfl
  | block => exact keep s rfl rfl nofun
  | peer =>
    obtain ⟨p, f, e⟩ := peerMove_eq s.blockReset
    exact keep { s with peer := p, wireIn := s.wireIn ++ f }
      (e.trans (receive_of_none f rfl)) rfl nofun
  | env m =>
    cases m with
    | rst v =>
      by_cases hv : v = s.rst
      · refine ⟨s, ?_, fun h => absurd rfl (h v), fun w hw => by cases hw; exact hv.symm⟩
        simp only [State.moveInReset, State.envMove]
        rw [if_pos (show v = s.blockReset.rst from hv)]
        rfl
      · refine ⟨{ s with rst := v }, ?_, fun h => absurd rfl (h v), fun w hw => by cases hw; rfl⟩
        simp only [State.moveInReset, State.envMove]
        rw [if_neg (show ¬v = s.blockReset.rst from hv)]
        rfl
    | tick d => exact keep { s with tick := s.tick + d } rfl rfl nofun
    | irq v =>
      refine keep (State.irqChange v s.blockReset) rfl ?_ nofun
      unfold State.irqChange
      split <;> rfl
    | tx r => exact keep s rfl rfl nofun
    | rx r => exact keep s rfl rfl nofun
    | rxWire => exact keep s rfl rfl nofun
    | statusByte r => exact keep s rfl rfl nofun

end Sys2Proof.Machine
end

