-- ==== Sys2Proof/Laws/PerInstr.lean ====
section
/-! SUPPORT. The family EncodingShape, one lemma per row of the opcode table: what every encoding of the
row looks like (R54, R55, R57, R64, R65, R70). -/

namespace Sys2Proof.Laws.EncodingShape

/-- A command's encoding is a word with its bits [31:8] clear, and OP is not 0. A wire frame's is bytes
that begin `00 00 FF`, seven of them at least for an information frame and six for a sentinel. -/
def Statement (i : Instr) : Prop :=
  match encode i with
  | .cmd w => i.isCommand = true ∧ w.extractLsb' 8 24 = 0 ∧ w.extractLsb' 0 8 ≠ 0
  | .wire bytes => i.isCommand = false ∧ bytes.take 3 = [0x00, 0x00, 0xFF] ∧ 6 ≤ bytes.length

theorem encode : Statement .encode := ⟨rfl, by decide, by decide⟩

theorem emitAck : Statement .emitAck := ⟨rfl, by decide, by decide⟩

theorem decode : Statement .decode := ⟨rfl, by decide, by decide⟩

theorem decodeTrunc : Statement .decodeTrunc := ⟨rfl, by decide, by decide⟩

theorem classify : Statement .classify := ⟨rfl, by decide, by decide⟩

theorem checkAck : Statement .checkAck := ⟨rfl, by decide, by decide⟩

theorem waitReady : Statement .waitReady := ⟨rfl, by decide, by decide⟩

theorem irqArm : Statement .irqArm := ⟨rfl, by decide, by decide⟩

theorem xactSend : Statement .xactSend := ⟨rfl, by decide, by decide⟩

theorem xactRead : Statement .xactRead := ⟨rfl, by decide, by decide⟩

theorem ackFrame : Statement .ackFrame := ⟨rfl, by decide, by decide⟩

theorem nackFrame : Statement .nackFrame := ⟨rfl, by decide, by decide⟩

theorem infoFrame (len lcs : Byte) (body : List Byte) (dcs post : Byte) :
    Statement (.infoFrame len lcs body dcs post) := by
  refine ⟨rfl, rfl, ?_⟩
  simp [infoFrameBytes, Config.preamble]

end Sys2Proof.Laws.EncodingShape
end

