-- ==== Sys2Proof/Tests/Slice0.lean ====
section
/-! SUPPORT. The model's own tests: what WellFormed refuses, words and frames written out from
30_encoding.md and decoded, one step of each instruction on a vector of spec/95_test_vectors.md (its
name in the docstring), and for each statement with hypotheses a state that meets them all. -/

namespace Sys2Proof.Tests

open Sys2Proof.Machine

/-! ### Helpers -/

/-- Reset with bytes at a port offset. -/
def holding (a : Nat) (bs : List Byte) : State := { State.reset with mem := Memory.writeBytes [] a bs }

/-- Reset with a received byte string in RXBUF, and RXLEN its length. -/
def received (bs : List Byte) : State :=
  { holding 0x300 bs with rxLen := BitVec.ofNat 9 bs.length }

/-- Reset with a payload in TXBUF, and TXLEN its length. -/
def payload (bs : List Byte) : State :=
  { holding 0x100 bs with txLen := BitVec.ofNat 8 bs.length }

/-- A state in which `act` runs. -/
def running (x : XState) (w : WState) (a : Activity) : State :=
  { State.reset with
    status := { State.reset.status with busy := true }
    xstate := x
    wstate := w
    act := a }

/-- A state with one turn to take. -/
def turn (t : Turn) (s : State) : State := { s with turns := [t] }

/-- The controller about to write CMD. -/
def cmdTurn (w : Word) (s : State) : State :=
  { s with turns := [.controller], bus := [.write 0x000 w] }

/-- The response R of 95_test_vectors.md §2.3, and R with its DCS made 00. -/
def respR : List Byte :=
  [0x00, 0x00, 0xFF, 0x06, 0xFA, 0xD5, 0x03, 0x32, 0x01, 0x06, 0x07, 0xE8, 0x00]
def respBad : List Byte :=
  [0x00, 0x00, 0xFF, 0x06, 0xFA, 0xD5, 0x03, 0x32, 0x01, 0x06, 0x07, 0x00, 0x00]

/-- The six bytes of R that XACT_READ reads first, in RXBUF, and the rest of R being read. -/
def readingRest : State :=
  { running .awaitingReadyResponse .idle (.readRest 0x06 1000 .uart) with
    status := { State.reset.status with busy := true, sent := .other }
    mem := Memory.writeBytes [] 0x300 (respR.take 6)
    rxLen := 6
    maxLen := 16 }

/-- The outcome is a next state with this property. -/
def nextIs (o : Out) (p : State → Bool) : Bool :=
  match o with
  | .next t => p t
  | .fault _ => false
  | .refused _ => false

/-- The STATUS word after an outcome. -/
def statusIs (o : Out) (w : Word) : Bool := nextIs o fun t => statusWord t.status == w

/-- The outcome is the model fault. -/
def faults (o : Out) : Bool :=
  match o with
  | .fault .unwrittenRead => true
  | .next _ => false
  | .refused _ => false

/-! ### WellFormed: a frame that fails each check of R57 -/

/-- DEC-1's frame is well formed. -/
theorem test_wf_good :
    (Instr.infoFrame 0x06 0xFA [0xD5, 0x03, 0x32, 0x01, 0x06, 0x07] 0xE8 0x00).wellFormed = true := by
  decide

theorem test_wf_len_zero : (Instr.infoFrame 0x00 0x00 [] 0x00 0x00).wellFormed = false := by decide

/-- LEN counts one byte more than there is. -/
theorem test_wf_body_length :
    (Instr.infoFrame 0x03 0xFD [0xD4, 0x02] 0x2A 0x00).wellFormed = false := by decide

theorem test_wf_lcs : (Instr.infoFrame 0x02 0xFF [0xD4, 0x02] 0x2A 0x00).wellFormed = false := by
  decide

/-- TFI is 0xD6, with checksums that are right. -/
theorem test_wf_tfi : (Instr.infoFrame 0x01 0xFF [0xD6] 0x2A 0x00).wellFormed = false := by decide

theorem test_wf_dcs : (Instr.infoFrame 0x02 0xFE [0xD4, 0x02] 0x2B 0x00).wellFormed = false := by
  decide

theorem test_wf_postamble :
    (Instr.infoFrame 0x02 0xFE [0xD4, 0x02] 0x2A 0x01).wellFormed = false := by decide

/-! ### Decode: words written out from 30_encoding.md -/

/-- R54's table, word by word: OP in bits [7:0], RSVD = 0. -/
theorem test_decode_commands :
    decode (.cmd 0b00000000000000000000000000000001) = .ok .encode
      ∧ decode (.cmd 0b00000000000000000000000000000010) = .ok .emitAck
      ∧ decode (.cmd 0b00000000000000000000000000000011) = .ok .decode
      ∧ decode (.cmd 0b00000000000000000000000000000100) = .ok .decodeTrunc
      ∧ decode (.cmd 0b00000000000000000000000000000101) = .ok .classify
      ∧ decode (.cmd 0b00000000000000000000000000000110) = .ok .checkAck
      ∧ decode (.cmd 0b00000000000000000000000000010000) = .ok .waitReady
      ∧ decode (.cmd 0b00000000000000000000000000010001) = .ok .irqArm
      ∧ decode (.cmd 0b00000000000000000000000000100000) = .ok .xactSend
      ∧ decode (.cmd 0b00000000000000000000000000100001) = .ok .xactRead := by decide

/-- DSP-1 to DSP-6: unassigned OPs, and reserved bits. -/
theorem test_decode_illegal :
    decode (.cmd 0x00000000) = .error .illegalOp ∧ decode (.cmd 0x00000007) = .error .illegalOp
      ∧ decode (.cmd 0x00000012) = .error .illegalOp ∧ decode (.cmd 0x000000FF) = .error .illegalOp
      ∧ decode (.cmd 0x00000101) = .error .reservedBits
      ∧ decode (.cmd 0x80000020) = .error .reservedBits := by decide

/-- R64, R65, and the frame of ENC-2. -/
theorem test_decode_frames :
    decode (.wire [0x00, 0x00, 0xFF, 0x00, 0xFF, 0x00]) = .ok .ackFrame
      ∧ decode (.wire [0x00, 0x00, 0xFF, 0xFF, 0x00, 0x00]) = .ok .nackFrame
      ∧ decode (.wire [0x00, 0x00, 0xFF, 0x02, 0xFE, 0xD4, 0x02, 0x2A, 0x00])
          = .ok (.infoFrame 0x02 0xFE [0xD4, 0x02] 0x2A 0x00) := by decide

theorem test_decode_no_frame :
    decode (.wire [0x00, 0x00, 0x00, 0xFF, 0x06, 0xFA, 0xD5]) = .error .badPreamble
      ∧ decode (.wire [0x00, 0x00, 0xFF, 0x06, 0xFA, 0xD5]) = .error .incomplete
      ∧ decode (.wire [0x00, 0x00, 0xFF, 0x00, 0xFF, 0x00, 0x12]) = .error .trailing := by decide

/-- Words as spec/opcode_table.json writes them. -/
theorem test_table_words :
    decodeTableWord 32 0x11 = some .irqArm ∧ decodeTableWord 32 0x111 = none
      ∧ decodeTableWord 48 0x0000FF00FF00 = some .ackFrame
      ∧ decodeTableWord 48 0x0000FFFF0000 = some .nackFrame
      ∧ decodeTableWord 24 0x0000FF = some (.infoFrame 0x00 0x00 [] 0x00 0x00) := by decide

/-- The step right after reset runs the word placed: EMIT_ACK, and ACK_FRAME onto the wire. -/
theorem test_fetch_emit_ack :
    nextIs (step (State.reset.withFetchWord 32 0x02)) (fun t => t.frameLen == 6) = true := by decide

theorem test_fetch_ack_frame :
    nextIs (step (State.reset.withFetchWord 48 0x0000FF00FF00)) (fun t => t.wireIn == Config.ack)
      = true := by decide

/-! ### One step of each instruction -/

/-- ENC-2. -/
theorem test_encode :
    nextIs (exec .encode (payload [0x02])) (fun t =>
      statusWord t.status == 0x00000002 && t.frameLen == 9 && t.frameInfo == 0x2AD4FE02
        && t.mem.readBytes? 0x200 9
          == some [0x00, 0x00, 0xFF, 0x02, 0xFE, 0xD4, 0x02, 0x2A, 0x00]) = true := by decide

/-- ENC-8, and ENC-10's fault. -/
theorem test_encode_refused :
    nextIs (exec .encode { State.reset with txLen := 64, frameLen := 9 }) (fun t =>
        statusWord t.status == 0x00020502 && t.frameLen == 0) = true
      ∧ faults (exec .encode { payload [0x02] with txLen := 2 }) = true := by decide

/-- EMA-1. -/
theorem test_emit_ack :
    nextIs (exec .emitAck State.reset) (fun t =>
      statusWord t.status == 0x00000002 && t.frameInfo == 0x0000FF00
        && packWord (t.busByte 0x200) (t.busByte 0x201) (t.busByte 0x202) (t.busByte 0x203)
          == 0x00FF0000) = true := by decide

/-- DEC-1. -/
theorem test_decode :
    nextIs (exec .decode (received respR)) (fun t =>
      statusWord t.status == 0x0000001A && t.pLen == 5 && t.frameInfo == 0xE8D5FA06
        && t.mem.readBytes? 0x500 5 == some [0x03, 0x32, 0x01, 0x06, 0x07]) = true := by decide

/-- DEC-5, DEC-6, DEC-7, DEC-8, DEC-9, DEC-26. -/
theorem test_decode_errors :
    statusIs (exec .decode (received respBad)) 0x0005031A = true
      ∧ statusIs (exec .decode (received [0x00, 0x00, 0xFF, 0x06, 0xFB, 0xD5])) 0x0002031A = true
      ∧ statusIs (exec .decode (received [0x00, 0x00, 0x00, 0xFF, 0x06, 0xFA, 0xD5])) 0x0001031A = true
      ∧ statusIs (exec .decode (received [0x00, 0x00, 0xFF, 0x00, 0x00, 0xD5, 0x2B, 0x00])) 0x0003031A
        = true
      ∧ statusIs (exec .decode (received [0x00, 0x00, 0xFF, 0x06])) 0x0004031A = true
      ∧ statusIs (exec .decode { State.reset with rxLen := 263 }) 0x00030502 = true := by decide

/-- TRN-1. -/
theorem test_decode_trunc :
    nextIs (exec .decodeTrunc { received respBad with maxLen := 2 }) (fun t =>
      statusWord t.status == 0x0000001E && t.pLen == 2 && t.frameInfo == 0x00D5FA06
        && t.mem.readBytes? 0x500 3 == none) = true := by decide

/-- TRN-2, TRN-5, TRN-6, TRN-8. -/
theorem test_decode_trunc_bounds :
    statusIs (exec .decodeTrunc { received respBad with maxLen := 5 }) 0x0005031A = true
      ∧ statusIs (exec .decodeTrunc { received respR with maxLen := 0 }) 0x0000001E = true
      ∧ statusIs (exec .decodeTrunc { received (respR.take 7) with maxLen := 2 }) 0x0004031A = true
      ∧ statusIs (exec .decodeTrunc
          { received [0x00, 0x00, 0xFF, 0x06, 0xFB, 0xD5, 0x03, 0x32] with maxLen := 2 }) 0x0002031A
        = true := by decide

/-- CLS-2, CLS-4, CLS-6, CLS-8. -/
theorem test_classify :
    statusIs (exec .classify (received [0x00, 0x00, 0xFF, 0xFF, 0x00, 0x00])) 0x00000012 = true
      ∧ statusIs (exec .classify (received [0x00, 0x00, 0xFF, 0x00, 0xFF])) 0x0000001A = true
      ∧ statusIs (exec .classify (received [0x00, 0x00, 0xFF, 0x00, 0xFF, 0x00, 0x12, 0x34])) 0x0000000A
        = true
      ∧ statusIs (exec .classify { State.reset with rxLen := 263 }) 0x00030502 = true := by decide

/-- CHK-1, CHK-2, CHK-3, CHK-5, CHK-8. -/
theorem test_check_ack :
    statusIs (exec .checkAck (received [0x00, 0x00, 0xFF, 0x00, 0xFF, 0x00])) 0x0000000A = true
      ∧ statusIs (exec .checkAck (received [0x00, 0x00, 0xFF, 0xFF, 0x00, 0x00])) 0x00070312 = true
      ∧ statusIs (exec .checkAck (received [0x00, 0x00, 0xFF, 0x00, 0xFF, 0x01])) 0x0006031A = true
      ∧ statusIs (exec .checkAck (received [0x00, 0x00, 0xFF, 0x00, 0xFF])) 0x0008031A = true
      ∧ statusIs (exec .checkAck { State.reset with rxLen := 300 }) 0x00030502 = true := by decide

/-- WAIT-14, WAIT-20, WAIT-21. -/
theorem test_wait_config :
    statusIs (exec .waitReady { State.reset with strategy := .irq }) 0x00050502 = true
      ∧ statusIs (exec .waitReady { State.reset with strategy := .status }) 0x00040502 = true
      ∧ statusIs (exec .waitReady { State.reset with strategy := .reserved, transport := .i2c })
          0x00040502 = true := by decide

/-- WAIT-2's third and fourth samples: at 1021 it goes on polling, at 1031 it has expired. -/
theorem test_wait_expiry :
    nextIs (State.blockMove { running .idle .poll (.waiting .waitReady 25 (.poll 1000 1011)) with
          tick := 1021 }) (fun t => seqStateWord t.xstate t.wstate == 0x00000020) = true
      ∧ statusIs (State.blockMove { running .idle .poll (.waiting .waitReady 25 (.poll 1000 1021)) with
          tick := 1031 }) 0x00010202 = true := by decide

/-- Steps 3 and 4 of §2.8. -/
theorem test_irq_arm :
    nextIs (exec .irqArm { State.reset with pending := true }) (fun t =>
        statusWord t.status == 0x00000002 && irqStatWord t.armed t.pending == 0x1) = true
      ∧ nextIs (step (turn (.env (.irq false)) { State.reset with armed := true })) (fun t =>
        irqStatWord t.armed t.pending == 0x3 && !t.prevIrq) = true := by decide

/-- XS-1's `TxWrite`; XS-9 to XS-12. -/
theorem test_xact_send :
    nextIs (exec .xactSend { payload [0x02] with timeout := 1000 }) (fun t =>
        t.act.call == some (.txWrite [0x00, 0x00, 0xFF, 0x02, 0xFE, 0xD4, 0x02, 0x2A, 0x00] 1000)
          && t.frameInfo == 0x2AD4FE02) = true
      ∧ statusIs (exec .xactSend { State.reset with txLen := 64, strategy := .status }) 0x00020502 = true
      ∧ statusIs (exec .xactSend { payload [0x02] with strategy := .irq }) 0x00050502 = true
      ∧ statusIs (exec .xactSend { payload [0x02] with strategy := .status }) 0x00040502 = true := by
  decide

/-- XS-6's last sample: the registers stay as the frame's building left them; and XR-11's. -/
theorem test_xact_expiry :
    nextIs (step (turn .block
        { running .awaitingReadyAck .poll (.waiting .send 1000 (.poll 0 990)) with
          tick := 1000, frameLen := 9, frameInfo := 0x2AD4FE02 })) (fun t =>
        statusWord t.status == 0x00010202 && t.xstate == .idle && t.frameLen == 9
          && t.frameInfo == 0x2AD4FE02) = true
      ∧ nextIs (step (turn .block
        { running .awaitingReadyResponse .poll (.waiting (.read .uart) 1000 (.poll 0 990)) with
          tick := 1000, rxLen := 6 })) (fun t =>
        statusWord t.status == 0x00010202 && t.xstate == .idle && t.rxLen == 6 && t.pLen == 0)
        = true := by decide

/-- XS-1, XS-2 and XS-3 at their read. -/
theorem test_xact_send_ack :
    nextIs (step (turn (.env (.rx (.ok Config.ack))) (running .awaitingReadyAck .idle (.sendRx 1000))))
        (fun t => statusWord t.status == 0x0000000A && t.xstate == .ackRead && t.rxLen == 6) = true
      ∧ statusIs (step (turn (.env (.rx (.ok Config.nack)))
          (running .awaitingReadyAck .idle (.sendRx 1000)))) 0x00070312 = true
      ∧ statusIs (step (turn (.env (.rx (.ok (respR.take 6))))
          (running .awaitingReadyAck .idle (.sendRx 1000)))) 0x0006031A = true := by decide

/-- XR-13; XR-4 and XR-6 at their first read. -/
theorem test_xact_read :
    statusIs (exec .xactRead State.reset) 0x00060502 = true
      ∧ statusIs (step (turn (.env (.rx (.ok Config.ack)))
          (running .awaitingReadyResponse .idle (.readHead 1000 .uart)))) 0x0009030A = true
      ∧ statusIs (step (turn (.env (.rx (.ok [0x00, 0x00, 0xFF, 0x06, 0xFB, 0xD5])))
          (running .awaitingReadyResponse .idle (.readHead 1000 .uart)))) 0x0002031A = true := by decide

/-- XR-1's second read and XR-3's. -/
theorem test_xact_read_rest :
    nextIs (step (turn (.env (.rx (.ok (respR.drop 6)))) readingRest)) (fun t =>
        t.xstate == .responseRead && t.pLen == 5 && t.frameInfo == 0xE8D5FA06 && t.rxLen == 13) = true
      ∧ statusIs (step (turn (.env (.rx (.ok (respBad.drop 6)))) readingRest)) 0x0005031A = true := by
  decide

/-- R121, R26: the block's turn after `TxWrite`'s OK begins a settle at its tick, XSTATE 2 and WSTATE 1. -/
theorem test_xact_send_wait :
    nextIs (step (turn .block { running .commandSent .idle (.sendSent 1000 .gpio) with tick := 7 }))
        (fun t => seqStateWord t.xstate t.wstate == 0x00000012
          && t.act == .waiting .send 1000 (.settle 7)) = true := by decide

/-- R127, R39: R's first six bytes taken, the other seven on the wire answer the second read (XR-1). -/
theorem test_rx_wire :
    nextIs (step (turn (.env .rxWire) { readingRest with wireIn := respR.drop 6 })) (fun t =>
      t.xstate == .responseRead && t.pLen == 5 && t.wireIn == []) = true := by decide

/-- A sentinel the peer sends while XACT_SEND reads is its answer (XS-1); idle, it waits on the wire. -/
theorem test_ack_frame :
    statusIs (exec .ackFrame (running .awaitingReadyAck .idle (.sendRx 1000))) 0x0000000A = true
      ∧ nextIs (exec .ackFrame State.reset) (fun t => t == { State.reset with wireIn := Config.ack })
        = true := by decide

theorem test_nack_frame :
    statusIs (exec .nackFrame (running .awaitingReadyAck .idle (.sendRx 1000))) 0x00070312 = true := by
  decide

/-- R sent while XACT_READ reads its first six bytes: the other seven stay on the wire (XR-1). -/
theorem test_info_frame :
    nextIs (exec (.infoFrame 0x06 0xFA [0xD5, 0x03, 0x32, 0x01, 0x06, 0x07] 0xE8 0x00)
        (running .awaitingReadyResponse .idle (.readHead 1000 .uart))) (fun t =>
      t.act.call == some (.rxRead 7 1000) && t.wireIn == respR.drop 6) = true := by decide

/-! ### The register port -/

/-- DSP-9, DSP-10, DSP-11. -/
theorem test_bus_error :
    portReg 0x002 = none ∧ portReg 0x030 = none ∧ portReg 0x140 = none ∧ portReg 0x248 = none
      ∧ portReg 0x408 = none ∧ portReg 0x600 = none := by decide

/-- DSP-13, DSP-14, ENC-11. -/
theorem test_port_writes :
    (State.regWrite .config 0xFFFFFFFF State.reset).regWord .config = 0x00000007
      ∧ (State.regWrite (.rwBuf 0x404) 0xAABBCCDD State.reset).regWord (.rwBuf 0x404) = 0x0000CCDD
      ∧ (State.regWrite .txLen 0x00000140 State.reset).regWord .txLen = 0x00000040 := by decide

/-- DSP-15, DSP-16: a write while BUSY = 1 is held, and reset discards it. -/
theorem test_held_and_reset :
    nextIs (step { running .awaitingReadyAck .poll (.waiting .send 0 (.poll 0 0)) with
          turns := [.controller], bus := [.write 0x00C 5] })
        (fun t => t.held == some (0x00C, 5) && t.timeout == 0) = true
      ∧ nextIs (step (turn (.env (.rst true))
          { running .awaitingReadyAck .poll (.waiting .send 0 (.poll 0 0)) with held := some (0x00C, 5) }))
        (fun t => t.held == none && t.act == .idle && statusWord t.status == 0) = true := by decide

/-! ### Witnesses: for each statement, states that meet its hypotheses

Each theorem lists the hypotheses of the statement it is named after, one or more times: for each of its
clauses, at a value of the edge of the clause's range. A statement that is not named here has none. -/

/-- OPEN values fit the tick. -/
theorem word_le (w : Word) : w ≤ 0xFFFFFFFF := by
  have := w.isLt
  show w.toNat ≤ 0xFFFFFFFF
  omega

theorem settle_le : Config.settleMs ≤ 0xFFFFFFFF := word_le _

/-- The controller about to read or write an offset. -/
def busTurn (a : Access) (s : State) : State := { s with turns := [.controller], bus := [a] }

/-- 63 zero bytes: the largest payload. -/
def zeros63 : List Byte := List.replicate 63 0x00

/-- 262 zero bytes: RXBUF full. -/
def zeros262 : List Byte := List.replicate 262 0x00

theorem received_mem (bs : List Byte) : (received bs).mem.readBytes? 0x300 bs.length = some bs :=
  Memory.readBytes?_writeBytes [] 0x300 bs

theorem payload_mem (bs : List Byte) : (payload bs).mem.readBytes? 0x100 bs.length = some bs :=
  Memory.readBytes?_writeBytes [] 0x100 bs

theorem received_zeros262 (cut : Option Byte) :
    (received zeros262).rxLen.toNat = 262 ∧ zeros262.length = (received zeros262).rxLen.toNat
      ∧ RxHolds (received zeros262) zeros262 (decodeReads cut zeros262) := by
  have hl : zeros262.length = 262 := List.length_replicate
  have hr : (received zeros262).rxLen.toNat = 262 := by
    show (BitVec.ofNat 9 zeros262.length).toNat = 262
    rw [hl]; rfl
  exact ⟨hr, hl.trans hr.symm, rxHolds_of_readBytes? (received_mem zeros262) (decodeReads_le cut _)⟩

/-- Received strings of which only the cells a decode reads are written: no cell of four bytes; three of
five with a bad preamble, all five behind a good one; six of eight with an LCS that does not match; all
but the postamble of R; and TRN-7's eight bytes of R, cut at MAXLEN = 2. -/
def partlyWritten : List (State × Option Byte × List Byte) :=
  [({ State.reset with rxLen := 4 }, none, respR.take 4),
    ({ holding 0x300 [0x01, 0x02, 0x03] with rxLen := 5 }, none, [0x01, 0x02, 0x03, 0x04, 0x05]),
    (received (respR.take 5), some 0, respR.take 5),
    ({ holding 0x300 [0x00, 0x00, 0xFF, 0x06, 0xFB, 0xD5] with rxLen := 8 }, some 0,
      [0x00, 0x00, 0xFF, 0x06, 0xFB, 0xD5, 0x03, 0x32]),
    ({ holding 0x300 (respR.take 12) with rxLen := 13 }, none, respR),
    ({ holding 0x300 (respR.take 8) with rxLen := 13, maxLen := 2 }, some 2, respR)]

theorem partlyWritten_holds :
    ∀ p ∈ partlyWritten, p.1.rxLen.toNat ≤ 262 ∧ p.2.2.length = p.1.rxLen.toNat
      ∧ RxHolds p.1 p.2.2 (decodeReads p.2.1 p.2.2)
      ∧ (p.2.1 = none ∨ p.2.1 = some p.1.maxLen)
      ∧ p.1.mem.read? (0x300 + decodeReads p.2.1 p.2.2) = none := by
  unfold RxHolds; decide

theorem payload_zeros63 :
    (payload zeros63).txLen.toNat = 63
      ∧ (payload zeros63).mem.readBytes? 0x100 (payload zeros63).txLen.toNat = some zeros63 := by
  have hl : zeros63.length = 63 := List.length_replicate
  have hr : (payload zeros63).txLen.toNat = 63 := by
    show (BitVec.ofNat 8 zeros63.length).toNat = 63
    rw [hl]; rfl
  refine ⟨hr, ?_⟩
  rw [hr, ← hl]
  exact payload_mem zeros63

theorem witness_LengthChecksum : (0x01 : Byte) ≠ 0 ∧ (0xFF : Byte) ≠ 0 := by decide

/-- ENC-4's bytes. -/
theorem witness_DataChecksum : dsum [0xD4, 0x2C] = 0x00 := by decide

theorem witness_SentinelClasses :
    (Instr.infoFrame 0x01 0xFF [0xD5] 0x2B 0x00).wellFormed = true := by decide

theorem witness_DecodeOfEncode :
    (Instr.infoFrame 0x02 0xFE [0xD4, 0x02] 0x2A 0x00).wellFormed = true
      ∧ Instr.xactRead.wellFormed = true ∧ Instr.nackFrame.wellFormed = true := by decide

theorem witness_CommandWordsAreExact : decode (.cmd 0x21) = .ok .xactRead := by decide

theorem witness_StepRunsDecodedCommand :
    let s := cmdTurn 0x02 State.reset
    s.turns = .controller :: [] ∧ s.rst = false ∧ s.held = none ∧ s.status.busy = false
      ∧ s.bus = .write 0x000 0x02 :: [] ∧ decode (.cmd 0x02) = .ok .emitAck := by decide

theorem witness_StepRunsDecodedFrame :
    let s := { turn .peer State.reset with peer := Config.ack ++ respR }
    s.turns = .peer :: [] ∧ s.rst = false ∧ decodeWire s.peer = .ok (.ackFrame, respR) := by decide

/-- A reserved bit set; an unassigned OP. -/
theorem witness_IllegalCommandRefused :
    (let s := cmdTurn 0x101 State.reset;
      s.turns = .controller :: [] ∧ s.rst = false ∧ s.held = none ∧ s.status.busy = false
        ∧ s.bus = .write 0x000 0x101 :: [] ∧ (0x101 : Word).extractLsb' 8 24 ≠ 0)
      ∧ (let s := cmdTurn 0x07 State.reset;
        s.turns = .controller :: [] ∧ s.bus = .write 0x000 0x07 :: []
          ∧ ((0x07 : Word).extractLsb' 0 8).toNat ∉
            [0x01, 0x02, 0x03, 0x04, 0x05, 0x06, 0x10, 0x11, 0x20, 0x21]) := by decide

/-- The empty payload, and the largest. -/
theorem witness_EncodeBuildsFrame :
    (State.reset.txLen.toNat ≤ 63 ∧ State.reset.mem.readBytes? 0x100 State.reset.txLen.toNat = some [])
      ∧ (payload zeros63).txLen.toNat = 63
      ∧ (payload zeros63).mem.readBytes? 0x100 (payload zeros63).txLen.toNat = some zeros63 :=
  ⟨by decide, payload_zeros63⟩

theorem witness_EncodeRefusesLongPayload :
    64 < ({ State.reset with txLen := 64 } : State).txLen.toNat + 1 := by decide

/-- ENC-2, and its frame received. -/
theorem witness_EncodedFrameDecodes :
    (payload [0x02]).txLen.toNat ≤ 63
      ∧ (payload [0x02]).mem.readBytes? 0x100 (payload [0x02]).txLen.toNat = some [0x02]
      ∧ (received [0x00, 0x00, 0xFF, 0x02, 0xFE, 0xD4, 0x02, 0x2A, 0x00]).rxLen.toNat
        = (payload [0x02]).txLen.toNat + 8
      ∧ (received [0x00, 0x00, 0xFF, 0x02, 0xFE, 0xD4, 0x02, 0x2A, 0x00]).mem.readBytes? 0x300 9
        = some [0x00, 0x00, 0xFF, 0x02, 0xFE, 0xD4, 0x02, 0x2A, 0x00] := by decide

/-- RXLEN 0, 262 and 263, for either instruction; and the strings written in part. -/
theorem witness_DecodeGivesDecoded :
    (RxHolds State.reset [] (decodeReads none []) ∧ ([] : List Byte).length = State.reset.rxLen.toNat)
      ∧ (∀ cut, (received zeros262).rxLen.toNat = 262
        ∧ zeros262.length = (received zeros262).rxLen.toNat
        ∧ RxHolds (received zeros262) zeros262 (decodeReads cut zeros262))
      ∧ 262 < ({ State.reset with rxLen := 263 } : State).rxLen.toNat
      ∧ ∀ p ∈ partlyWritten, p.1.rxLen.toNat ≤ 262 ∧ p.2.2.length = p.1.rxLen.toNat
        ∧ RxHolds p.1 p.2.2 (decodeReads p.2.1 p.2.2) ∧ (p.2.1 = none ∨ p.2.1 = some p.1.maxLen) :=
  ⟨⟨nofun, rfl⟩, received_zeros262, by decide, fun p h =>
    have w := partlyWritten_holds p h
    ⟨w.1, w.2.1, w.2.2.1, w.2.2.2.1⟩⟩

/-- Both clauses, at RXLEN = 263 and RXLEN = 262; and the strings written in part, for the instruction
their `cut` is of. -/
theorem witness_DecodeCheckOrder :
    262 < ({ State.reset with rxLen := 263 } : State).rxLen.toNat
      ∧ (∀ trunc : Bool, (received zeros262).rxLen.toNat = 262
        ∧ zeros262.length = (received zeros262).rxLen.toNat
        ∧ RxHolds (received zeros262) zeros262
          (decodeReads (if trunc then some (received zeros262).maxLen else none) zeros262))
      ∧ ∀ p ∈ partlyWritten, p.1.rxLen.toNat ≤ 262 ∧ p.2.2.length = p.1.rxLen.toNat
        ∧ RxHolds p.1 p.2.2 (decodeReads (if p.2.1.isSome then some p.1.maxLen else none) p.2.2) :=
  ⟨by decide, fun _ => received_zeros262 _, by unfold RxHolds; decide⟩

/-- ACK with RXLEN = 6, NACK with RXLEN = 262 and nothing behind it. -/
theorem witness_SentinelEndsDecode :
    (let s := received Config.ack;
      6 ≤ s.rxLen.toNat ∧ s.rxLen.toNat ≤ 262
        ∧ s.mem.readBytes? 0x300 6 = some [0x00, 0x00, 0xFF, 0x00, 0xFF, 0x00])
      ∧ (let s := { received Config.nack with rxLen := 262 };
        6 ≤ s.rxLen.toNat ∧ s.rxLen.toNat ≤ 262
          ∧ s.mem.readBytes? 0x300 6 = some [0x00, 0x00, 0xFF, 0xFF, 0x00, 0x00]) := by decide

/-- TRN-7: R's first eight bytes with MAXLEN = 2; and MAXLEN = 0 with L = 2. -/
theorem witness_TruncationSkipsDataChecksum :
    (let s := { received (respR.take 8) with maxLen := 2 };
      s.rxLen.toNat ≤ 262 ∧ s.maxLen.toNat + 6 ≤ s.rxLen.toNat
        ∧ s.maxLen.toNat < (0x06 : Byte).toNat - 1
        ∧ s.mem.readBytes? 0x300 (s.maxLen.toNat + 6)
          = some ([0x00, 0x00, 0xFF, 0x06, 0 - 0x06, 0xD5] ++ [0x03, 0x32]))
      ∧ (let s := received [0x00, 0x00, 0xFF, 0x02, 0xFE, 0xD5];
        s.maxLen.toNat + 6 ≤ s.rxLen.toNat ∧ s.maxLen.toNat < (0x02 : Byte).toNat - 1
          ∧ s.mem.readBytes? 0x300 (s.maxLen.toNat + 6)
            = some ([0x00, 0x00, 0xFF, 0x02, 0 - 0x02, 0xD5] ++ [])) := by decide

/-- Two states that differ in CONFIG, IRQSTAT, the tick and a TXBUF cell. -/
theorem witness_DecodeReadsOnlyItsInputs :
    let s := received Config.ack
    let u := { s with
      transport := .i2c, armed := true, tick := 5, mem := Memory.writeBytes s.mem 0x100 [0x55] }
    u ≠ s ∧ u.rxLen = s.rxLen ∧ u.maxLen = s.maxLen
      ∧ ∀ k, k < 6 → u.mem.read? (0x300 + k) = s.mem.read? (0x300 + k) := by decide

/-- The payload; the first six bytes, none and five of them written; then each of the strings written in
part with the last cell it needs taken away, among them all of R but its data checksum, and TRN-7 without
its last payload byte; and DEC-28. -/
theorem witness_UnwrittenInputFaults :
    (let s := { State.reset with txLen := 1 };
      s.txLen.toNat ≤ 63 ∧ s.mem.readBytes? 0x100 s.txLen.toNat = none
        ∧ checkWaitConfig s.strategy s.transport s.armed = .ok .gpio)
      ∧ (let s := { State.reset with rxLen := 6 };
        6 ≤ s.rxLen.toNat ∧ s.rxLen.toNat ≤ 262 ∧ s.mem.readBytes? 0x300 6 = none)
      ∧ (let s := { received (respR.take 5) with rxLen := 262 };
        6 ≤ s.rxLen.toNat ∧ s.rxLen.toNat ≤ 262 ∧ s.mem.readBytes? 0x300 6 = none)
      ∧ (∀ p ∈ partlyWritten.tail, let k := decodeReads p.2.1 p.2.2 - 1;
        let s := { p.1 with mem := Memory.writeBytes [] 0x300 (p.2.2.take k) };
        p.2.2.length = s.rxLen.toNat ∧ RxHolds s p.2.2 k ∧ k < decodeReads p.2.1 p.2.2
          ∧ s.mem.read? (0x300 + k) = none)
      ∧ (let s := { received (respR.take 7) with
          rxLen := 13, mem := Memory.writeBytes (Memory.writeBytes [] 0x300 (respR.take 7)) 0x308 (respR.drop 8) };
        respR.length = s.rxLen.toNat ∧ RxHolds s respR 7 ∧ 7 < decodeReads none respR
          ∧ s.mem.read? (0x300 + 7) = none) := by
  unfold RxHolds; decide

/-- Six bytes with RXLEN = 6 and 262. Below 6 and above 262 the hypothesis asks nothing. -/
theorem witness_ClassifyReportsClass :
    (let s := received Config.nack;
      s.rxLen.toNat = 6 ∧ s.mem.readBytes? 0x300 6 = some Config.nack)
      ∧ (let s := { received (respR.take 6) with rxLen := 262 };
        s.rxLen.toNat = 262 ∧ s.mem.readBytes? 0x300 6 = some (respR.take 6))
      ∧ ({ State.reset with rxLen := 5 } : State).rxLen.toNat < 6
      ∧ 262 < ({ State.reset with rxLen := 263 } : State).rxLen.toNat := by decide

theorem witness_CheckAckResults :
    (let s := received Config.ack;
      s.rxLen.toNat = 6 ∧ s.mem.readBytes? 0x300 6 = some Config.ack)
      ∧ (let s := { received Config.nack with rxLen := 262 };
        s.rxLen.toNat = 262 ∧ s.mem.readBytes? 0x300 6 = some Config.nack)
      ∧ ({ State.reset with rxLen := 5 } : State).rxLen.toNat < 6
      ∧ 262 < ({ State.reset with rxLen := 263 } : State).rxLen.toNat := by decide

/-- The three refused configurations, and one that passes. -/
theorem witness_WaitConfigurationChecked :
    (let refused := fun s : State =>
        s.strategy = .reserved ∨ s.strategy = .status ∧ s.transport = .uart
          ∨ s.strategy = .irq ∧ s.armed = false;
      refused { State.reset with strategy := .reserved } ∧ refused { State.reset with strategy := .status }
        ∧ refused { State.reset with strategy := .irq } ∧ ¬refused State.reset) := by decide

theorem witness_WaitReadyBegins :
    State.reset.strategy = .gpio
      ∧ (let s := { State.reset with strategy := .irq, armed := true };
        s.strategy = .irq ∧ s.armed = true)
      ∧ (let s := { State.reset with strategy := .status, transport := .i2c };
        s.strategy = .status ∧ s.transport = .i2c) := by decide

/-- One state for each strategy. -/
theorem witness_WaitReadyRunsToReady :
    (let s := { cmdTurn 0x10 State.reset with
        pin := false, turns := [.controller, .env (.tick 0xFFFFFFFF), .block] };
      s.rst = false ∧ s.held = none ∧ s.status.busy = false ∧ s.bus = .write 0x000 0x10 :: []
        ∧ s.strategy = .gpio ∧ s.pin = false ∧ Config.settleMs ≤ 0xFFFFFFFF
        ∧ s.turns = [.controller, .env (.tick 0xFFFFFFFF), .block] ++ [])
      ∧ (let s := { cmdTurn 0x10 State.reset with
          strategy := .irq, armed := true, pending := true, turns := [.controller, .block] };
        s.rst = false ∧ s.held = none ∧ s.status.busy = false ∧ s.bus = .write 0x000 0x10 :: []
          ∧ s.strategy = .irq ∧ s.armed = true ∧ s.pending = true ∧ s.turns = [.controller, .block] ++ [])
      ∧ (let s := { cmdTurn 0x10 State.reset with
          strategy := .status, transport := .i2c
          turns := [.controller, .block, .env (.statusByte (.ok 0x01))] };
        s.rst = false ∧ s.held = none ∧ s.status.busy = false ∧ s.bus = .write 0x000 0x10 :: []
          ∧ s.strategy = .status ∧ s.transport = .i2c
          ∧ s.turns = [.controller, .block, .env (.statusByte (.ok 0x01))] ++ []) :=
  ⟨⟨rfl, rfl, rfl, rfl, rfl, rfl, settle_le, rfl⟩, by decide, by decide⟩

/-- A wait of XACT_SEND and one of XACT_READ, past the bound of 1000 (XS-6, XR-11): under GPIO with a high
pin, under IRQ with an empty slot, and under STATUS with a byte other than 0x01. -/
theorem witness_wait_expiry :
    ∀ why ∈ [WaitFor.send, .read .i2c],
      (let s := turn .block
          { running .awaitingReadyAck .poll (.waiting why 1000 (.poll 0 990)) with tick := 1000 };
        s.turns = .block :: [] ∧ s.rst = false ∧ s.act = .waiting why 1000 (.poll 0 990)
          ∧ (10 : Word) ≤ s.tick - 990 ∧ s.pin = true ∧ (1000 : Word) ≠ 0 ∧ 1000 ≤ s.tick - 0)
      ∧ (let s := turn .block
          { running .awaitingReadyAck .block (.waiting why 1000 (.block 0)) with tick := 1000 };
        s.turns = .block :: [] ∧ s.rst = false ∧ s.act = .waiting why 1000 (.block 0)
          ∧ s.pending = false ∧ 1000 ≤ s.tick - 0)
      ∧ (let s := turn (.env (.statusByte (.ok 0x00)))
          (running .awaitingReadyAck .status (.waiting why 1000 (.statusCall 0 1000)));
        s.turns = .env (.statusByte (.ok 0x00)) :: [] ∧ s.rst = false
          ∧ s.act = .waiting why 1000 (.statusCall 0 1000) ∧ StatusResult.ok 0x00 ≠ .ok 0x01
          ∧ (1000 : Word) ≤ 1000 - 0) := by decide

/-- WAIT-2's samples: 9 and 10 ms after the last one, pin high, before and past the bound; pin low; and
the settle delay passed. -/
theorem witness_GpioObservation :
    let poll := fun (now : Word) => turn .block
      { running .idle .poll (.waiting .waitReady 25 (.poll 1000 1011)) with tick := now }
    let settled := turn .block
      { running .idle .settle (.waiting .waitReady 25 (.settle 1)) with tick := 0, pin := false }
    (poll 1020).turns = .block :: [] ∧ (poll 1020).rst = false
      ∧ (poll 1020).act = .waiting .waitReady 25 (.poll 1000 1011) ∧ (poll 1020).tick - 1011 < 10
      ∧ (10 : Word) ≤ (poll 1021).tick - 1011 ∧ (poll 1021).pin = true ∧ (poll 1021).tick - 1000 < 25
      ∧ (25 : Word) ≠ 0 ∧ 25 ≤ (poll 1025).tick - 1000
      ∧ settled.turns = .block :: [] ∧ settled.act = .waiting .waitReady 25 (.settle 1)
      ∧ Config.settleMs ≤ settled.tick - 1 ∧ settled.pin = false := by
  refine ⟨by decide, by decide, by decide, by decide, by decide, by decide, by decide, by decide,
    by decide, by decide, by decide, settle_le, by decide⟩

/-- WAIT-11, and WAIT-13 at ticks 149 and 150. -/
theorem witness_IrqObservation :
    let wait := fun (p : Bool) (now : Word) => turn .block
      { running .idle .block (.waiting .waitReady 50 (.block 100)) with
        armed := true, pending := p, tick := now }
    (wait true 100).turns = .block :: [] ∧ (wait true 100).rst = false
      ∧ (wait true 100).act = .waiting .waitReady 50 (.block 100) ∧ (wait true 100).pending = true
      ∧ (wait false 149).pending = false ∧ (wait false 149).tick - 100 < 50
      ∧ (50 : Word) ≠ 0 ∧ 50 ≤ (wait false 150).tick - 100 := by decide

/-- The block's turn: the first read; the next with 2^32 - 1 ms since the last, and with none, which is
too early unless STATUS_POLL_MS is 0. Then WAIT-18's and WAIT-19's answers: 0x01; 0x03 read at ticks 11
and 12 of a bound of 12; IOERR. -/
theorem witness_StatusObservation :
    (let due := fun (last : Option Word) => turn .block
        (running .idle .status (.waiting .waitReady 12 (.statusDue 0 last)));
      (∀ last, (due last).turns = .block :: [] ∧ (due last).rst = false
          ∧ (due last).act = .waiting .waitReady 12 (.statusDue 0 last))
        ∧ Config.statusPollMs ≤ (due (some 1)).tick - 1
        ∧ (Config.statusPollMs ≠ 0 → (due (some 0)).tick - 0 < Config.statusPollMs))
    ∧ (let wait := fun (r : StatusResult) (asked : Word) => turn (.env (.statusByte r))
        (running .idle .status (.waiting .waitReady 12 (.statusCall 0 asked)));
      (wait (.ok 0x01) 10).turns = .env (.statusByte (.ok 0x01)) :: [] ∧ (wait (.ok 0x01) 10).rst = false
        ∧ (wait (.ok 0x01) 10).act = .waiting .waitReady 12 (.statusCall 0 10)
        ∧ StatusResult.ok 0x03 ≠ .ok 0x01 ∧ StatusResult.ioerr ≠ .ok 0x01
        ∧ (11 : Word) - 0 < 12 ∧ (12 : Word) ≠ 0 ∧ (12 : Word) ≤ 12 - 0) := by
  refine ⟨⟨fun _ => ⟨rfl, rfl, rfl⟩, word_le _, fun h => ?_⟩, by decide⟩
  show (0 : Nat) < Config.statusPollMs.toNat
  exact Nat.pos_of_ne_zero fun e => h (BitVec.eq_of_toNat_eq e)

/-- An IRQ wait that ends in ready, and a STATUS wait that does; both states meet the invariant. -/
theorem witness_ReadyNeverSpurious :
    (let s := turn .block { running .idle .block (.waiting .waitReady 50 (.block 0)) with
        armed := true, pending := true };
      s.act = .waiting .waitReady 50 (.block 0) ∧ s.inv = true ∧ s.rst = false
        ∧ ∃ t, step s = .next t ∧ t.rst = false ∧ WaitReady .waitReady 50 t)
      ∧ (let s := turn (.env (.statusByte (.ok 0x01)))
          (running .idle .status (.waiting .waitReady 50 (.statusCall 0 0)));
        s.act = .waiting .waitReady 50 (.statusCall 0 0) ∧ s.inv = true ∧ s.rst = false
          ∧ ∃ t, step s = .next t ∧ t.rst = false ∧ WaitReady .waitReady 50 t)
      ∧ (let s := turn .block { running .idle .poll (.waiting .waitReady 50 (.poll 0 0)) with
          tick := 10, pin := false };
        s.act = .waiting .waitReady 50 (.poll 0 0) ∧ s.inv = true ∧ s.rst = false
          ∧ ∃ t, step s = .next t ∧ t.rst = false ∧ WaitReady .waitReady 50 t) :=
  ⟨⟨rfl, by decide, rfl, _, rfl, rfl, rfl, rfl, rfl, rfl, rfl, rfl⟩,
    ⟨rfl, by decide, rfl, _, rfl, rfl, rfl, rfl, rfl, rfl, rfl, rfl⟩,
    ⟨rfl, by decide, rfl, _, rfl, rfl, rfl, rfl, rfl, rfl, rfl, rfl⟩⟩

/-- WAIT-7: a high pin and no bound. -/
theorem witness_ZeroTimeoutNeverExpires :
    let s := turn .block { running .idle .poll (.waiting .waitReady 0 (.poll 0 0)) with
      tick := 0xFFFFFFFF }
    s.act = .waiting .waitReady 0 (.poll 0 0) ∧ s.status.busy = true ∧ s.rst = false
      ∧ ∃ t, step s = .next t ∧ t.rst = false := ⟨rfl, rfl, rfl, _, rfl, rfl⟩

/-- A falling edge, and a rising one. -/
theorem witness_EdgeCapture :
    (let s := turn (.env (.irq false)) { State.reset with armed := true };
      s.turns = .env (.irq false) :: [] ∧ s.rst = false ∧ false ≠ s.pin)
      ∧ (let s := turn (.env (.irq true)) { State.reset with pin := false, prevIrq := false };
        s.turns = .env (.irq true) :: [] ∧ s.rst = false ∧ true ≠ s.pin) := by decide

/-- ARMED is set; PENDING is set; PENDING is cleared. -/
theorem witness_OnlyTheseChangeIrqstat :
    (let s := cmdTurn 0x11 State.reset;
      s.rst = false ∧ s.armed = false ∧ ∃ t, step s = .next t ∧ t.rst = false ∧ t.armed = true)
      ∧ (let s := turn (.env (.irq false)) { State.reset with armed := true };
        s.rst = false ∧ s.pending = false ∧ ∃ t, step s = .next t ∧ t.rst = false ∧ t.pending = true)
      ∧ (let s := turn .block { running .idle .block (.waiting .waitReady 50 (.block 0)) with
          armed := true, pending := true };
        s.rst = false ∧ s.pending = true ∧ s.armed = true
          ∧ ∃ t, step s = .next t ∧ t.rst = false ∧ t.pending = false) :=
  ⟨⟨rfl, rfl, _, rfl, rfl, rfl⟩, ⟨rfl, rfl, _, rfl, rfl, rfl⟩, ⟨rfl, rfl, rfl, _, rfl, rfl, rfl⟩⟩

/-- ENC-2's payload under each strategy, and the largest payload. -/
theorem witness_XactSendTransmits :
    (∀ p ∈ [(payload [0x02], WaitKind.gpio), ({ payload [0x02] with strategy := .irq, armed := true }, .irq),
        ({ payload [0x02] with strategy := .status, transport := .i2c }, .status)],
      p.1.txLen.toNat ≤ 63 ∧ p.1.mem.readBytes? 0x100 p.1.txLen.toNat = some [0x02]
        ∧ checkWaitConfig p.1.strategy p.1.transport p.1.armed = .ok p.2)
      ∧ (payload zeros63).txLen.toNat = 63
      ∧ (payload zeros63).mem.readBytes? 0x100 (payload zeros63).txLen.toNat = some zeros63
      ∧ checkWaitConfig (payload zeros63).strategy (payload zeros63).transport (payload zeros63).armed
        = .ok .gpio :=
  ⟨by decide, payload_zeros63.1, payload_zeros63.2, rfl⟩

theorem witness_XactSendChecksInOrder :
    63 < ({ State.reset with txLen := 64 } : State).txLen.toNat
      ∧ (let s := { State.reset with txLen := 63, strategy := .irq };
        s.txLen.toNat ≤ 63 ∧ checkWaitConfig s.strategy s.transport s.armed = .error .irqNotArmed) := by
  decide

/-- For each answer; and the block's turn after it, for each strategy. -/
theorem witness_TxWriteAnswers :
    (∀ r ∈ [TxResult.ok, .ioerr, .tmo],
      let s := turn (.env (.tx r)) (running .idle .idle (.sendTx [0x00] 1000 .gpio))
      s.turns = .env (.tx r) :: [] ∧ s.rst = false ∧ s.act = .sendTx [0x00] 1000 .gpio)
    ∧ ∀ kind ∈ [WaitKind.gpio, .irq, .status],
      let s := turn .block (running .commandSent .idle (.sendSent 1000 kind))
      s.turns = .block :: [] ∧ s.rst = false ∧ s.act = .sendSent 1000 kind := by decide

/-- ACK, NACK, and ACK with its last byte changed. -/
theorem witness_AckRequirement :
    ∀ b ∈ [Config.ack, Config.nack, [0x00, 0x00, 0xFF, 0x00, 0xFF, 0x01]],
      let s := turn (.env (.rx (.ok b))) (running .awaitingReadyAck .idle (.sendRx 1000))
      s.turns = .env (.rx (.ok b)) :: [] ∧ s.rst = false ∧ s.act = .sendRx 1000 ∧ b.length = 6 := by
  decide

/-- Each answer, for each of the three reads. -/
theorem witness_FailedReadRaises :
    ∀ r ∈ [RxResult.ioerr, .tmo], ∀ a ∈ [Activity.sendRx 1000, .readHead 1000 .uart,
        .readRest 0x06 1000 .i2c],
      let s := turn (.env (.rx r)) (running .awaitingReadyAck .idle a)
      s.turns = .env (.rx r) :: [] ∧ s.rst = false ∧ s.act.rxDemand.isSome = true := by decide

/-- XR-13 and XR-16. -/
theorem witness_XactReadChecksInOrder :
    State.reset.xstate ≠ .ackRead
      ∧ (let s := { State.reset with xstate := .ackRead, strategy := .status };
        s.xstate = .ackRead ∧ checkWaitConfig s.strategy s.transport s.armed = .error .badStrategy) := by
  decide

/-- One state for each strategy. -/
theorem witness_XactReadBegins :
    (let s := { State.reset with xstate := .ackRead };
      s.xstate = .ackRead ∧ s.strategy = .gpio)
      ∧ (let s := { State.reset with xstate := .ackRead, strategy := .irq, armed := true };
        s.xstate = .ackRead ∧ s.strategy = .irq ∧ s.armed = true)
      ∧ (let s := { State.reset with xstate := .ackRead, strategy := .status, transport := .i2c };
        s.xstate = .ackRead ∧ s.strategy = .status ∧ s.transport = .i2c) := by decide

/-- A good header, a sentinel of each kind, and a header that fails each check (XR-4 to XR-7's reads). -/
theorem witness_ResponseHeaderChecked :
    ∀ b ∈ [respR.take 6, Config.ack, Config.nack, [0x00, 0x00, 0x00, 0xFF, 0x06, 0xFA],
        [0x00, 0x00, 0xFF, 0x06, 0xFB, 0xD5], [0x00, 0x00, 0xFF, 0x00, 0x00, 0xD5]],
      let s := turn (.env (.rx (.ok b))) (running .awaitingReadyResponse .idle (.readHead 1000 .uart))
      s.turns = .env (.rx (.ok b)) :: [] ∧ s.rst = false ∧ s.act = .readHead 1000 .uart
        ∧ b.length = 6 := by decide

/-- XR-1's, XR-3's and XR-2's second read, and MAXLEN = 5 and 4, each side of the cut of R's five bytes;
on UART, and on I2C, where XR-18 and XR-19 are the two values of the open parameter. -/
theorem witness_ResponseDecoded :
    ∀ tr ∈ [Transport.uart, .i2c], ∀ m ∈ [(16 : Byte), 5, 4, 2], ∀ b ∈ [respR, respBad],
      let s := { turn (.env (.rx (.ok (b.drop 6)))) readingRest with
        act := .readRest 0x06 1000 tr, maxLen := m }
      s.turns = .env (.rx (.ok (b.drop 6))) :: [] ∧ s.rst = false
        ∧ s.act = .readRest 0x06 1000 tr ∧ s.status.sent = .other
        ∧ s.mem.readBytes? 0x300 6 = some (respR.take 6)
        ∧ (respR.take 6).take 3 = [0x00, 0x00, 0xFF] ∧ (respR.take 6).getD 3 0 = 0x06
        ∧ (0x06 : Byte) + (respR.take 6).getD 4 0 = 0 ∧ (0x06 : Byte) ≠ 0
        ∧ (b.drop 6).length = (0x06 : Byte).toNat + 1 := by decide

/-- XR-2: MAXLEN = 2; and MAXLEN = 4, the largest that truncates. -/
theorem witness_TruncatedResponseTrusted :
    ∀ m ∈ [(2 : Byte), 4],
      let s := { readingRest with
        maxLen := m
        turns := [.env (.rx (.ok (respBad.drop 6))), .block] }
      s.turns = .env (.rx (.ok (respBad.drop 6))) :: .block :: [] ∧ s.rst = false
        ∧ s.act = .readRest 0x06 1000 .uart
        ∧ s.mem.readBytes? 0x300 6 = some [0x00, 0x00, 0xFF, 0x06, 0 - 0x06, 0xD5]
        ∧ (respBad.drop 6).length = (0x06 : Byte).toNat + 1
        ∧ s.maxLen.toNat < (0x06 : Byte).toNat - 1 := by decide

/-- D5, and XR-8's D4. -/
theorem witness_DirectionChecked :
    ∀ f ∈ [(0xE8D5FA06 : Word), 0xF7D4FD03],
      let s := turn .block { running .responseRead .idle .readDir with frameInfo := f }
      s.turns = .block :: [] ∧ s.rst = false ∧ s.act = .readDir :=
  fun _ _ => ⟨rfl, rfl, rfl⟩

theorem witness_XactSendRunsToAckRead :
    let s := { cmdTurn 0x20 (payload [0x02]) with
      pin := false
      turns := [.controller, .env (.tx .ok), .block, .env (.tick 0xFFFFFFFF), .block,
        .env (.rx (.ok Config.ack))] }
    s.rst = false ∧ s.held = none ∧ s.status.busy = false ∧ s.bus = .write 0x000 0x20 :: []
      ∧ s.turns = [.controller, .env (.tx .ok), .block, .env (.tick 0xFFFFFFFF), .block,
        .env (.rx (.ok Config.ack))] ++ []
      ∧ s.strategy = .gpio ∧ s.pin = false ∧ Config.settleMs ≤ 0xFFFFFFFF
      ∧ s.txLen.toNat ≤ 63 ∧ s.mem.readBytes? 0x100 s.txLen.toNat = some [0x02] :=
  ⟨rfl, rfl, rfl, rfl, rfl, rfl, rfl, settle_le, by decide, by decide⟩

/-- XR-12: R with MAXLEN = 5, its payload's length. -/
theorem witness_XactReadRunsToIdle :
    let s := { cmdTurn 0x21 State.reset with
      pin := false
      xstate := .ackRead
      maxLen := 5
      turns := [.controller, .env (.tick 0xFFFFFFFF), .block,
        .env (.rx (.ok [0x00, 0x00, 0xFF, 0x06, 0xFA, 0xD5])),
        .env (.rx (.ok ([0x03, 0x32, 0x01, 0x06, 0x07] ++ [0xE8, 0x00]))), .block] }
    (Instr.infoFrame 0x06 0xFA (Config.tfiC2h :: [0x03, 0x32, 0x01, 0x06, 0x07]) 0xE8 0x00).wellFormed
        = true
      ∧ [0x03, 0x32, 0x01, 0x06, 0x07].length ≤ s.maxLen.toNat
      ∧ s.rst = false ∧ s.held = none ∧ s.status.busy = false ∧ s.bus = .write 0x000 0x21 :: []
      ∧ s.turns = [.controller, .env (.tick 0xFFFFFFFF), .block,
        .env (.rx (.ok [0x00, 0x00, 0xFF, 0x06, 0xFA, 0xD5])),
        .env (.rx (.ok ([0x03, 0x32, 0x01, 0x06, 0x07] ++ [0xE8, 0x00]))), .block] ++ []
      ∧ s.xstate = .ackRead ∧ s.strategy = .gpio ∧ s.pin = false ∧ Config.settleMs ≤ 0xFFFFFFFF :=
  ⟨by decide, by decide, rfl, rfl, rfl, rfl, rfl, rfl, rfl, rfl, settle_le⟩

/-- Idle; each of the two reads of six bytes, the wire empty; and with the rest of R read, a wire that
holds none of the seven bytes asked for, and one that holds the first of them. -/
theorem witness_SentinelFramesArrive :
    State.reset.act.rxDemand = none
      ∧ (let s := running .awaitingReadyAck .idle (.sendRx 1000);
        s.wireIn = [] ∧ s.act = .sendRx 1000)
      ∧ (let s := running .awaitingReadyResponse .idle (.readHead 1000 .uart);
        s.wireIn = [] ∧ s.act = .readHead 1000 .uart)
      ∧ (let s := readingRest;
        s.act.rxDemand = some (.xactRead, 7) ∧ s.rst = false ∧ (s.wireIn ++ Config.ack).length < 7)
      ∧ (let s := { readingRest with wireIn := [0x03] };
        s.act.rxDemand = some (.xactRead, 7) ∧ s.rst = false
          ∧ 7 ≤ (s.wireIn ++ Config.ack).length) := by decide

/-- Idle; each of the two reads of six bytes, the wire empty; the rest of R read, with R behind what the
wire holds; a read of 256 bytes, for which R is too short; and the environment's move, with no read
outstanding, with six of seven bytes on the wire and with all seven. -/
theorem witness_InfoFrameArrives :
    (Instr.infoFrame 0x06 0xFA [0xD5, 0x03, 0x32, 0x01, 0x06, 0x07] 0xE8 0x00).wellFormed = true
      ∧ State.reset.act.rxDemand = none
      ∧ (let s := running .awaitingReadyAck .idle (.sendRx 1000);
        s.wireIn = [] ∧ s.act = .sendRx 1000)
      ∧ (let s := running .awaitingReadyResponse .idle (.readHead 1000 .uart);
        s.wireIn = [] ∧ s.act = .readHead 1000 .uart)
      ∧ (let s := { readingRest with wireIn := [0x03] };
        s.act.rxDemand = some (.xactRead, 7) ∧ s.rst = false ∧ 7 ≤ (s.wireIn ++ respR).length)
      ∧ (let s := running .awaitingReadyResponse .idle (.readRest 0xFF 1000 .uart);
        s.act.rxDemand = some (.xactRead, 256) ∧ s.rst = false ∧ (s.wireIn ++ respR).length < 256)
      ∧ (let s := turn (.env .rxWire) State.reset;
        s.turns = .env .rxWire :: [] ∧ s.rst = false ∧ s.act.rxDemand = none)
      ∧ (let s := turn (.env .rxWire) { readingRest with wireIn := respR.drop 7 };
        s.turns = .env .rxWire :: [] ∧ s.rst = false ∧ s.act.rxDemand = some (.xactRead, 7)
          ∧ s.wireIn.length = 6)
      ∧ (let s := turn (.env .rxWire) { readingRest with wireIn := respR.drop 6 };
        s.turns = .env .rxWire :: [] ∧ s.rst = false ∧ s.act.rxDemand = some (.xactRead, 7)
          ∧ s.wireIn.length = 7) := by decide

/-- DSP-9 to DSP-11's offsets. -/
theorem witness_BusErrorChangesNothing_offsets :
    ∀ off ∈ [(0x002 : BitVec 12), 0x030, 0x140, 0x248, 0x408, 0x600, 0xFFF],
      off.toNat % 4 ≠ 0
        ∨ ¬(off.toNat ≤ 0x02F ∨ 0x100 ≤ off.toNat ∧ off.toNat ≤ 0x13F
          ∨ 0x200 ≤ off.toNat ∧ off.toNat ≤ 0x247 ∨ 0x300 ≤ off.toNat ∧ off.toNat ≤ 0x407
          ∨ 0x500 ≤ off.toNat ∧ off.toNat ≤ 0x5FF) := by simp

/-- A read, a write and a held write of each of them. -/
theorem witness_BusErrorChangesNothing :
    ∀ off ∈ [(0x002 : BitVec 12), 0x030, 0x140, 0x248, 0x408, 0x600, 0xFFF],
      (let s := busTurn (.read off) State.reset;
        s.turns = .controller :: [] ∧ s.rst = false ∧ s.held = none ∧ s.bus = .read off :: [])
      ∧ (let s := busTurn (.write off 1) State.reset;
        s.turns = .controller :: [] ∧ s.rst = false ∧ s.held = none ∧ s.bus = .write off 1 :: []
          ∧ s.status.busy = false)
      ∧ (let s := { turn .controller State.reset with held := some (off, 1) };
        s.turns = .controller :: [] ∧ s.rst = false ∧ s.held = some (off, 1)
          ∧ s.status.busy = false)
      ∧ (off.toNat % 4 ≠ 0
        ∨ ¬(off.toNat ≤ 0x02F ∨ 0x100 ≤ off.toNat ∧ off.toNat ≤ 0x13F
          ∨ 0x200 ≤ off.toNat ∧ off.toNat ≤ 0x247 ∨ 0x300 ≤ off.toNat ∧ off.toNat ≤ 0x407
          ∨ 0x500 ≤ off.toNat ∧ off.toNat ≤ 0x5FF)) :=
  fun off h => ⟨⟨rfl, rfl, rfl, rfl⟩, ⟨rfl, rfl, rfl, rfl, rfl⟩, ⟨rfl, rfl, rfl, rfl⟩,
    witness_BusErrorChangesNothing_offsets off h⟩

/-- Each register, and the first and last word of each buffer, with BUSY = 0. -/
theorem witness_ReadsGiveRegisters :
    ∀ off ∈ [(0x000 : BitVec 12), 0x004, 0x008, 0x00C, 0x010, 0x014, 0x018, 0x01C, 0x020, 0x024, 0x028,
        0x02C, 0x100, 0x13C, 0x200, 0x244, 0x300, 0x404, 0x500, 0x5FC],
      let s := busTurn (.read off) State.reset
      s.turns = .controller :: [] ∧ s.rst = false ∧ s.held = none ∧ s.bus = .read off :: []
        ∧ s.status.busy = false :=
  fun _ _ => ⟨rfl, rfl, rfl, rfl, rfl⟩

/-- DSP-15, the held write still held, and then let through. -/
theorem witness_WritesHeldWhileBusy :
    (let s := { running .awaitingReadyAck .poll (.waiting .send 0 (.poll 0 0)) with
        turns := [.controller], bus := [.write 0x00C 5] };
      s.turns = .controller :: [] ∧ s.rst = false ∧ s.status.busy = true ∧ s.held = none
        ∧ s.bus = .write 0x00C 5 :: [])
      ∧ (let s := { running .awaitingReadyAck .poll (.waiting .send 0 (.poll 0 0)) with
          turns := [.controller], held := some (0x00C, 5) };
        s.turns = .controller :: [] ∧ s.status.busy = true ∧ s.held = some (0x00C, 5))
      ∧ (let s := { turn .controller State.reset with held := some (0x00C, 5) };
        s.turns = .controller :: [] ∧ s.rst = false ∧ s.status.busy = false
          ∧ s.held = some (0x00C, 5)) := by decide

/-- Each register, the first and last words of TXBUF and RXBUF, and RXBUF's last, padded word. -/
theorem witness_PortReadsBackWrites :
    ∀ off ∈ [(0x008 : BitVec 12), 0x00C, 0x010, 0x014, 0x018, 0x100, 0x13C, 0x300, 0x400, 0x404],
      let s := { State.reset with
        turns := [.controller, .controller], bus := [.write off 0xAABBCCDD, .read off] }
      s.turns = .controller :: .controller :: [] ∧ s.rst = false ∧ s.held = none
        ∧ s.status.busy = false ∧ s.bus = .write off 0xAABBCCDD :: .read off :: [] :=
  fun _ _ => ⟨rfl, rfl, rfl, rfl, rfl⟩

/-- Each read-only register, and the first and last words of FRAMEBUF and PAYBUF. -/
theorem witness_ReadOnlyIgnoresWrites :
    ∀ off ∈ [(0x004 : BitVec 12), 0x01C, 0x020, 0x024, 0x028, 0x02C, 0x200, 0x244, 0x500, 0x5FC],
      let s := busTurn (.write off 0xFFFFFFFF) State.reset
      s.turns = .controller :: [] ∧ s.rst = false ∧ s.held = none ∧ s.status.busy = false
        ∧ s.bus = .write off 0xFFFFFFFF :: [] :=
  fun _ _ => ⟨rfl, rfl, rfl, rfl, rfl⟩

/-- DSP-16; and, while `rst` is asserted, a turn of the block's, `rst` asserted again and `rst`
deasserted, from a state that is not the reset state. -/
theorem witness_ResetTakesEveryElement :
    (let s := turn (.env (.rst true))
        { running .awaitingReadyAck .poll (.waiting .send 0 (.poll 0 0)) with held := some (0x00C, 5) };
      s.turns = .env (.rst true) :: [] ∧ s.rst = false)
      ∧ ∀ x ∈ [Turn.block, .env (.rst true), .env (.rst false)],
        let s := turn x { received respR with rst := true, armed := true }
        s.turns = x :: [] ∧ s.rst = true := by decide

/-- A state that meets the invariant with the slot full and XACT_READ's header read. -/
theorem witness_StepKeepsInvariant :
    let s := turn (.env (.rx (.ok (respR.drop 6)))) { readingRest with armed := true, pending := true }
    s.inv = true ∧ nextIs (step s) (fun t => t.inv && t.act == .readDir) = true := by decide

/-- States whose step faults, one for each of the six commands; and one whose operation ends. -/
theorem witness_OnlyCommandsFault :
    (∀ w ∈ [(0x01 : Word), 0x03, 0x04, 0x05, 0x06, 0x20],
      let s := cmdTurn w { State.reset with txLen := 1, rxLen := 6 }
      s.inv = true ∧ faults (step s) = true)
      ∧ (let s := turn (.env (.rx (.ok (respBad.drop 6)))) readingRest;
        s.inv = true ∧ s.status.busy = true ∧ nextIs (step s) (fun t => !t.status.busy) = true) := by
  refine ⟨fun w hw => ?_, by decide⟩
  simp only [List.mem_cons, List.not_mem_nil, or_false] at hw
  obtain rfl | rfl | rfl | rfl | rfl | rfl := hw <;> decide

/-- A write while BUSY = 1, a turn of the block's, a read, and a command. -/
theorem witness_InputsStableWhileBusy :
    (let s := { running .awaitingReadyAck .poll (.waiting .send 0 (.poll 0 0)) with
        turns := [.controller], bus := [.write 0x00C 5] };
      s.rst = false ∧ (∀ off v, WriteAt s off v → off = 0x000) ∧ ∃ t, step s = .next t ∧ t.rst = false)
      ∧ (let s := turn .block (received respR);
        s.rst = false ∧ (∀ off v, WriteAt s off v → off = 0x000) ∧ ∃ t, step s = .next t ∧ t.rst = false)
      ∧ (let s := busTurn (.read 0x00C) State.reset;
        s.rst = false ∧ (∀ off v, WriteAt s off v → off = 0x000) ∧ ∃ t, step s = .next t ∧ t.rst = false)
      ∧ (let s := cmdTurn 0x02 State.reset;
        s.rst = false ∧ (∀ off v, WriteAt s off v → off = 0x000)
          ∧ ∃ t, step s = .next t ∧ t.rst = false) := by
  refine ⟨⟨rfl, ?_, _, rfl, rfl⟩, ⟨rfl, ?_, _, rfl, rfl⟩, ⟨rfl, ?_, _, rfl, rfl⟩, rfl, ?_, _, rfl, rfl⟩
  · rintro _ _ ⟨-, h, -⟩; cases h
  · rintro _ _ ⟨⟨_, h⟩, -⟩; cases h
  · rintro _ _ ⟨-, -, h | ⟨-, _, h⟩⟩ <;> cases h
  · rintro _ _ ⟨-, -, h | ⟨-, _, h⟩⟩ <;> cases h; rfl

/-- One state for each row of R116's table. -/
theorem witness_XstateTransitions :
    ∀ p ∈ [(cmdTurn 0x20 { payload [0x02] with xstate := .ackRead }, XState.idle),
        (turn (.env (.tx .ok)) (running .idle .idle (.sendTx [0x00] 0 .gpio)), .commandSent),
        (turn .block (running .commandSent .idle (.sendSent 0 .gpio)), .awaitingReadyAck),
        (turn (.env (.rx (.ok Config.ack))) (running .awaitingReadyAck .idle (.sendRx 0)), .ackRead),
        (cmdTurn 0x21 { State.reset with xstate := .ackRead }, .awaitingReadyResponse),
        (turn (.env (.rx (.ok (respR.drop 6)))) readingRest, .responseRead),
        (turn .block { running .responseRead .idle .readDir with frameInfo := 0xE8D5FA06 }, .idle),
        (turn (.env (.rx .tmo)) (running .awaitingReadyAck .idle (.sendRx 0)), .idle),
        (turn (.env (.rst true)) (running .commandSent .idle (.sendSent 0 .gpio)), .idle)],
      p.1.inv = true
        ∧ nextIs (step p.1) (fun t => t.xstate != p.1.xstate && t.xstate == p.2) = true := by
  decide

/-- The errors of an operation under DONE = 1, and none. -/
theorem witness_ErrorCodesDistinct :
    Err.nack.cls = Err.nack.cls ∧ Err.nack.sub = Err.nack.sub
      ∧ ({ State.reset.status with err := some .nack } : Status).err = some .nack := by decide

end Sys2Proof.Tests
end

/-! PROOFS. The state's own rules (10_state.md): reset, unwritten inputs, and what no step but its own
event changes. -/

namespace Sys2Proof.Machine

/-! ### The reset state -/

/-- Settles O54: the words of R37 are computed, and the memory has no cell. -/
theorem resetState : Obligations.ResetState :=
  ⟨by decide, by decide, rfl, rfl, rfl, rfl, rfl, rfl, rfl, by decide, by decide, rfl, fun _ => rfl⟩

/-- Settles O55: computed. -/
theorem resetMeetsInvariant : Obligations.ResetMeetsInvariant := by
  unfold Obligations.ResetMeetsInvariant
  decide

/-! ### Unwritten inputs -/

theorem State.classifyRx_of_none {s : State} {n : Nat} (hn : 6 ≤ n)
    (h : s.mem.readBytes? rxBase 6 = none) (k : Sent → Out) :
    s.classifyRx n k = .fault .unwrittenRead := by
  unfold State.classifyRx
  rw [if_pos hn, State.need_of_none h]

/-- A decode of six to 262 bytes needs the six of the sentinel comparison. -/
theorem State.decodeBody_of_none {s : State} (cut : Option Byte) (h6 : 6 ≤ s.rxLen.toNat)
    (hn : s.rxLen.toNat ≤ 262) (h : s.mem.readBytes? rxBase 6 = none)
    (k : State → Option Err → Out) : s.decodeBody cut k = .fault .unwrittenRead := by
  unfold State.decodeBody
  dsimp only
  rw [if_neg (show ¬Config.rxBufCap < s.rxLen.toNat from Nat.not_lt.mpr hn)]
  exact State.classifyRx_of_none (s := s.clearDecode) h6 h _

theorem execEncode_of_none {s : State} (hn : s.txLen.toNat ≤ 63)
    (h : s.mem.readBytes? txBase s.txLen.toNat = none) : execEncode s = .fault .unwrittenRead :=
  (if_neg (show ¬Config.maxPayload < s.txLen.toNat from Nat.not_lt.mpr hn)).trans
    (State.need_of_none (s := s.accept) h _)

theorem execXactSend_of_none {s : State} {kind : WaitKind} (hn : s.txLen.toNat ≤ 63)
    (h : s.mem.readBytes? txBase s.txLen.toNat = none)
    (hk : checkWaitConfig s.strategy s.transport s.armed = .ok kind) :
    execXactSend s = .fault .unwrittenRead := by
  refine (if_neg (show ¬Config.maxPayload < s.txLen.toNat from Nat.not_lt.mpr hn)).trans ?_
  have hk' : checkWaitConfig (State.setSent .none s.accept).strategy
    (State.setSent .none s.accept).transport (State.setSent .none s.accept).armed = .ok kind := hk
  rw [hk']
  exact State.need_of_none (s := { s.accept.setSent .none with xstate := .idle }) h _

theorem execClassify_of_none {s : State} (h6 : 6 ≤ s.rxLen.toNat) (hn : s.rxLen.toNat ≤ 262)
    (h : s.mem.readBytes? rxBase 6 = none) : execClassify s = .fault .unwrittenRead :=
  (if_neg (show ¬Config.rxBufCap < s.rxLen.toNat from Nat.not_lt.mpr hn)).trans
    (State.classifyRx_of_none (s := s.accept) h6 h _)

theorem execCheckAck_of_none {s : State} (h6 : 6 ≤ s.rxLen.toNat) (hn : s.rxLen.toNat ≤ 262)
    (h : s.mem.readBytes? rxBase 6 = none) : execCheckAck s = .fault .unwrittenRead :=
  (if_neg (show ¬Config.rxBufCap < s.rxLen.toNat from Nat.not_lt.mpr hn)).trans <|
    (if_neg (Nat.not_lt.mpr h6)).trans (State.classifyRx_of_none (s := s.accept) h6 h _)

/-- Settles O19: each command's first read that finds an unwritten cell is the fault; for the decodes
that is `State.decodeBody_unwritten`. -/
theorem unwrittenInputFaults : Obligations.UnwrittenInputFaults := by
  refine ⟨fun s hn h => ⟨execEncode_of_none hn h, fun ⟨_, hk⟩ => execXactSend_of_none hn h hk⟩,
    fun s h6 hn h => ⟨execClassify_of_none h6 hn h, execCheckAck_of_none h6 hn h,
      State.decodeBody_of_none (s := s.accept) none h6 hn h _,
      State.decodeBody_of_none (s := s.accept) (some s.maxLen) h6 hn h _⟩, ?_⟩
  intro s i cut b k hi hl hb hk hu
  have stops : s.accept.decodeBody cut State.endCodec = .fault .unwrittenRead :=
    State.decodeBody_unwritten (s := s.accept) cut hl hb hk hu _
  obtain ⟨rfl, rfl⟩ | ⟨rfl, rfl⟩ := hi
  · exact stops
  · exact stops

/-! ### What a step keeps -/

theorem irqChange_keeps (v : Bool) (s : State) :
    SameArgs s (s.irqChange v) ∧ (s.irqChange v).mem = s.mem ∧ (s.irqChange v).armed = s.armed := by
  unfold State.irqChange
  split <;> exact ⟨⟨rfl, rfl, rfl, rfl, rfl⟩, rfl, rfl⟩

/-- Where no write to another offset than CMD proceeds, a step keeps the controller's registers and
the cells below 0x200, TXBUF's among them. -/
theorem StepDoes.keeps_inputs {s t : State} (h : StepDoes s t)
    (hw : ∀ off v, WriteAt s off v → off = 0x000) :
    SameArgs s t ∧ ∀ a, a < 0x200 → t.mem.read? a = s.mem.read? a := by
  cases h with
  | op h => exact ⟨h.kept.args, h.kept.low⟩
  | edge ts v _ ht =>
    subst ht
    obtain ⟨ha, hm, -⟩ := irqChange_keeps v { s with turns := ts }
    exact ⟨ha, fun _ _ => by rw [hm]⟩
  | idle h => exact ⟨h.kept.args, h.kept.low⟩
  | port _ hc =>
    obtain ⟨off, v, hc, hne⟩ := hc
    exact absurd (hw off v hc) hne
  | command _ _ _ _ _ h => exact ⟨h.kept.args, h.kept.low⟩
  | illegal _ _ _ hk => exact ⟨hk.args, hk.low⟩

/-- Settles O58, from what every kind of step keeps. -/
theorem inputsStableWhileBusy : Obligations.InputsStableWhileBusy := by
  intro s t h hr hr' hw
  obtain ⟨hargs, hlow⟩ := (step_does h hr hr').keeps_inputs hw
  exact ⟨hargs, fun a _ ha => hlow a (by omega)⟩

/-! ### The event slot -/

/-- A command word is its operation's encoding (R54). -/
theorem encode_of_decode_cmd {w : Word} {i : Instr} (h : Sys2Proof.decode (.cmd w) = .ok i) :
    encode i = .cmd w := by
  have hop : ∀ op : Byte, decodeOp op = some i → encode i = .cmd (op.setWidth 32) := by
    intro op h
    unfold decodeOp at h
    split_ifs at h <;> (cases h; subst op; rfl)
  simp only [Sys2Proof.decode, decodeCmd] at h
  split at h
  · rename_i hw
    split at h
    · rename_i i' hd
      cases h
      rw [hop _ hd]
      congr 1
      apply BitVec.eq_of_toNat_eq
      have hz : (w.extractLsb' 8 24).toNat = 0 := by rw [hw]; rfl
      have hlt := w.isLt
      simp only [BitVec.extractLsb'_toNat, Nat.shiftRight_eq_div_pow, BitVec.toNat_setWidth,
        Nat.reducePow] at hz ⊢
      omega
    · cases h
  · cases h

theorem irqChange_pending_rises {v : Bool} {s : State} (h : s.pending = false)
    (h' : (s.irqChange v).pending = true) : s.armed = true ∧ s.prevIrq = true ∧ v = false := by
  unfold State.irqChange at h'
  split at h'
  · rw [h] at h'; cases h'
  · simp only [h, Bool.false_or, Bool.and_eq_true, Bool.not_eq_true'] at h'
    obtain ⟨⟨hq, hv⟩, ha⟩ := h'
    exact ⟨ha, hq, hv⟩

theorem irqChange_pending_stays {v : Bool} {s : State} (h : s.pending = true) :
    (s.irqChange v).pending = true := by
  unfold State.irqChange
  split
  · exact h
  · simp only [h, Bool.true_or]

/-- What a command does to IRQSTAT: IRQ_ARM, whose word is 0x11, arms the slot and empties it (R111);
every other one leaves it. -/
theorem CommandDoes.irqStat {i : Instr} {w : Word} {s t : State} (h : CommandDoes i s t)
    (hc : CommandAt s w) (hd : Sys2Proof.decode (.cmd w) = .ok i) :
    t.armed = s.armed ∧ t.pending = s.pending
      ∨ t.armed = true ∧ t.pending = false ∧ CommandAt s 0x11 := by
  obtain ⟨hp, ha⟩ := h.irq
  by_cases hi : i = .irqArm
  · subst hi
    cases encode_of_decode_cmd hd
    exact .inr ⟨ha, hp, hc⟩
  · rw [if_neg hi] at hp ha
    exact .inl ⟨ha, hp⟩

/-- ARMED stays, or IRQ_ARM sets it. -/
theorem StepDoes.armed {s t : State} (h : StepDoes s t) :
    t.armed = s.armed ∨ t.armed = true ∧ CommandAt s 0x11 := by
  cases h with
  | op h => exact .inl h.armed
  | edge ts v _ ht =>
    subst ht
    exact .inl (irqChange_keeps v { s with turns := ts }).2.2
  | idle h => exact .inl h.armed
  | port _ _ _ ha => exact .inl ha
  | command _ i w hc hd h =>
    exact (h.irqStat hc hd).imp And.left fun ⟨ha, _, hw⟩ => ⟨ha, hw⟩
  | illegal _ _ _ _ ha => exact .inl ha

/-- PENDING stays, or `irq_n` changes, or the event is taken: by IRQ_ARM, or by an IRQ wait that ends in
ready. -/
theorem StepDoes.pending {s t : State} (h : StepDoes s t) :
    t.pending = s.pending
      ∨ (∃ ts v, s.turns = .env (.irq v) :: ts ∧ t = State.irqChange v { s with turns := ts })
      ∨ t.pending = false ∧ (CommandAt s 0x11
          ∨ ∃ ts why tmo start, s.turns = .block :: ts ∧ s.act = .waiting why tmo (.block start)
              ∧ WaitReady why tmo t) := by
  cases h with
  | op _ hp =>
    obtain hp | ⟨ts, why, tmo, start, hts, ha, hp, hr⟩ := hp
    · exact .inl hp
    · exact .inr (.inr ⟨hp, .inr ⟨ts, why, tmo, start, hts, ha, hr⟩⟩)
  | edge ts v hts ht => exact .inr (.inl ⟨ts, v, hts, ht⟩)
  | idle h => exact .inl h.pending
  | port _ _ _ _ hp => exact .inl hp
  | command _ i w hc hd h =>
    exact (h.irqStat hc hd).imp And.right fun ⟨_, hp, hw⟩ => .inr ⟨hp, .inl hw⟩
  | illegal _ _ _ _ _ hp => exact .inl hp

/-- Settles O32, from how every kind of step changes ARMED and PENDING. -/
theorem onlyTheseChangeIrqstat : Obligations.OnlyTheseChangeIrqstat := by
  intro s t h hr hr'
  have hstep := step_does h hr hr'
  refine ⟨fun hs => ?_, fun hs ht => ?_, fun hs ht => ?_, fun hs ht => ?_⟩
  · exact hstep.armed.elim (·.trans hs) And.left
  · obtain ha | ⟨-, hc⟩ := hstep.armed
    · rw [ha, hs] at ht; cases ht
    · exact hc
  · obtain hp | ⟨ts, v, hts, rfl⟩ | ⟨hp, -⟩ := hstep.pending
    · rw [hp, hs] at ht; cases ht
    · obtain ⟨ha, hq, rfl⟩ := irqChange_pending_rises (s := { s with turns := ts }) hs ht
      exact ⟨ha, hq, ts, hts⟩
    · rw [hp] at ht; cases ht
  · obtain hp | ⟨ts, v, -, rfl⟩ | ⟨-, hc⟩ := hstep.pending
    · rw [hp, hs] at ht; cases ht
    · rw [irqChange_pending_stays (s := { s with turns := ts }) hs] at ht; cases ht
    · exact hc

end Sys2Proof.Machine


/-! PROOFS. The register port's reads. -/

namespace Sys2Proof.Machine

/-! ### The fields of the registers' words -/

theorem statusWord_flags (st : Status) :
    (statusWord st).getLsbD 0 = st.busy ∧ (statusWord st).getLsbD 1 = st.done
      ∧ (statusWord st).getLsbD 2 = st.trunc := by
  unfold statusWord bit
  simp only [BitVec.getLsbD_append]
  simp

theorem statusWord_fields (st : Status) :
    (statusWord st).extractLsb' 3 2 = st.sent.code ∧ (statusWord st).extractLsb' 5 3 = 0
      ∧ (statusWord st).extractLsb' 8 3 = st.errClass.code ∧ (statusWord st).extractLsb' 11 5 = 0
      ∧ (statusWord st).extractLsb' 16 8 = st.errSub ∧ (statusWord st).extractLsb' 24 8 = 0 := by
  unfold statusWord
  simp (disch := decide) only [BitVec.extractLsb'_append_eq_of_le,
    BitVec.extractLsb'_append_eq_of_add_le]
  simp

theorem seqStateWord_fields (x : XState) (w : WState) :
    (seqStateWord x w).extractLsb' 0 3 = x.code ∧ (seqStateWord x w).getLsbD 3 = false
      ∧ (seqStateWord x w).extractLsb' 4 3 = w.code ∧ (seqStateWord x w).extractLsb' 7 25 = 0 := by
  unfold seqStateWord
  simp (disch := decide) only [BitVec.extractLsb'_append_eq_of_le,
    BitVec.extractLsb'_append_eq_of_add_le, BitVec.getLsbD_append]
  simp

theorem configWord_fields (tr : Transport) (st : Strategy) :
    (configWord tr st).extractLsb' 0 1 = tr.code ∧ (configWord tr st).extractLsb' 1 2 = st.code
      ∧ (configWord tr st).extractLsb' 3 29 = 0 := by
  unfold configWord
  simp (disch := decide) only [BitVec.extractLsb'_append_eq_of_le,
    BitVec.extractLsb'_append_eq_of_add_le]
  simp

theorem irqStatWord_fields (armed pending : Bool) :
    (irqStatWord armed pending).getLsbD 0 = armed ∧ (irqStatWord armed pending).getLsbD 1 = pending
      ∧ (irqStatWord armed pending).extractLsb' 2 30 = 0 := by
  unfold irqStatWord bit
  simp (disch := decide) only [BitVec.extractLsb'_append_eq_of_le, BitVec.getLsbD_append]
  simp

/-! ### A buffer's word -/

/-- Byte j of a packed word, as R43 counts them. -/
theorem packWord_byte (f : Nat → Byte) (a : Nat) {j : Nat} (hj : j < 4) :
    (packWord (f a) (f (a + 1)) (f (a + 2)) (f (a + 3))).extractLsb' (8 * j) 8 = f (a + j) := by
  obtain ⟨h0, h1, h2, h3⟩ := packWord_bytes (f a) (f (a + 1)) (f (a + 2)) (f (a + 3))
  match j with
  | 0 => exact h0
  | 1 => exact h1
  | 2 => exact h2
  | 3 => exact h3

theorem State.busByte_padding (s : State) {a : Nat} (h : isCell a = false) : s.busByte a = 0 := by
  simp only [State.busByte, h, Bool.false_eq_true, if_false]

theorem State.busByte_written {s : State} {a : Nat} {b : Byte} (h : isCell a = true)
    (hb : s.mem.read? a = some b) : s.busByte a = b := by
  simp only [State.busByte, h, hb, if_true]

/-- The buffers' words of R40. -/
theorem portReg_buffer {off : BitVec 12} (h4 : off.toNat % 4 = 0)
    (h : 0x100 ≤ off.toNat ∧ off.toNat < 0x140 ∨ 0x200 ≤ off.toNat ∧ off.toNat < 0x248
      ∨ 0x300 ≤ off.toNat ∧ off.toNat < 0x408 ∨ 0x500 ≤ off.toNat ∧ off.toNat < 0x600) :
    portReg off = some (.rwBuf off.toNat) ∨ portReg off = some (.roBuf off.toNat) := by
  unfold portReg
  generalize off.toNat = n at *
  dsimp only
  have hlow : 0x100 ≤ n := by omega
  rcases h with h | h | h | h <;> simp (disch := omega) only [if_neg, if_pos, true_or, or_true]

/-! ### A read cycle -/

/-- With BUSY = 0 a mapped offset is answered with its register's word. -/
theorem State.portRead_of_free {s : State} {off : BitVec 12} {r : PortReg} (h : portReg off = some r)
    (hb : s.status.busy = false) : s.portRead off = .data (s.regWord r) := by
  simp only [State.portRead, h, hb, Bool.false_eq_true, false_and, if_false]

/-- STATUS is given at any time (R46). -/
theorem State.portRead_status (s : State) : s.portRead 0x004 = .data (statusWord s.status) :=
  if_neg fun ⟨_, hne, _⟩ => hne rfl

/-- SEQSTATE is given at any time (R46). -/
theorem State.portRead_seqState (s : State) :
    s.portRead 0x02C = .data (seqStateWord s.xstate s.wstate) :=
  if_neg fun ⟨_, _, hne⟩ => hne rfl

/-- A read cycle at the controller's turn. -/
theorem step_read {s : State} {ts : List Turn} {as : List Access} {off : BitVec 12}
    (h : s.turns = .controller :: ts) (hr : s.rst = false) (hh : s.held = none)
    (hb : s.bus = .read off :: as) :
    step s = .next { s with
      turns := ts, bus := as, resp := some (s.portRead off), draws := s.draws + 1 } := by
  rw [step_eq_move h hr]
  exact controllerMove_read (s := { s with turns := ts }) hh hb

/-- A buffer word read with BUSY = 0: byte j is the bus byte of its cell. -/
theorem State.portRead_buffer {s : State} {off : BitVec 12} (h4 : off.toNat % 4 = 0)
    (h : 0x100 ≤ off.toNat ∧ off.toNat < 0x140 ∨ 0x200 ≤ off.toNat ∧ off.toNat < 0x248
      ∨ 0x300 ≤ off.toNat ∧ off.toNat < 0x408 ∨ 0x500 ≤ off.toNat ∧ off.toNat < 0x600)
    (hb : s.status.busy = false) :
    ∃ w, s.portRead off = .data w
      ∧ ∀ j, j < 4 → w.extractLsb' (8 * j) 8 = s.busByte (off.toNat + j) := by
  obtain e | e := portReg_buffer h4 h <;>
    exact ⟨_, State.portRead_of_free e hb, fun j hj => packWord_byte s.busByte off.toNat hj⟩

/-- Settles O49: the answer is `portRead`'s; each register's word is taken apart by the lemma on its
fields, and a buffer's word byte by byte. -/
theorem readsGiveRegisters : Obligations.ReadsGiveRegisters := by
  intro s ts as off h hr hh hbus
  refine ⟨s.portRead off, step_read h hr hh hbus, ?_, ?_,
    fun hb => ⟨?_, ?_, ?_, ?_, ?_, ?_, ?_, ?_, ?_, ?_, ?_⟩⟩
  · rintro rfl
    obtain ⟨h0, h1, h2⟩ := statusWord_flags s.status
    exact ⟨_, s.portRead_status, h0, h1, h2, statusWord_fields s.status⟩
  · rintro rfl; exact ⟨_, s.portRead_seqState, seqStateWord_fields s.xstate s.wstate⟩
  · rintro rfl; exact State.portRead_of_free (r := .cmd) rfl hb
  · rintro rfl
    exact ⟨_, State.portRead_of_free (r := .config) rfl hb, configWord_fields s.transport s.strategy⟩
  · rintro rfl; exact State.portRead_of_free (r := .timeout) rfl hb
  · rintro rfl; exact State.portRead_of_free (r := .txLen) rfl hb
  · rintro rfl; exact State.portRead_of_free (r := .maxLen) rfl hb
  · rintro rfl; exact State.portRead_of_free (r := .rxLen) rfl hb
  · rintro rfl; exact State.portRead_of_free (r := .frameLen) rfl hb
  · rintro rfl; exact State.portRead_of_free (r := .frameInfo) rfl hb
  · rintro rfl; exact State.portRead_of_free (r := .pLen) rfl hb
  · rintro rfl
    exact ⟨_, State.portRead_of_free (r := .irqStat) rfl hb, irqStatWord_fields s.armed s.pending⟩
  · intro h4 hrange
    obtain ⟨w, hw, hbyte⟩ := State.portRead_buffer h4 hrange hb
    refine ⟨w, hw, fun j hj => ⟨fun hpad => ?_, fun n1 n2 n3 n4 b hcell => ?_⟩⟩
    · have hno : isCell (off.toNat + j) = false := by
        rw [Bool.eq_false_iff, Ne, isCell_iff]; omega
      rw [hbyte j hj, s.busByte_padding hno]
    · have hyes : isCell (off.toNat + j) = true := by rw [isCell_iff]; omega
      rw [hbyte j hj, State.busByte_written hyes hcell]

end Sys2Proof.Machine


/-! PROOFS. What can stop the machine, and how a running operation ends. -/

namespace Sys2Proof.Machine

/-- Where a step ends a running operation, its error is not INCOMPLETE. -/
def EndsWhole (s t : State) : Prop :=
  s.status.busy = true → t.status.busy = false → t.status.err ≠ some .incomplete

/-- The controller's turn brings the word of one of the six commands that read cells it fills. -/
def ReadingCommandAt (s : State) : Prop :=
  ∃ w i, CommandAt s w ∧ Sys2Proof.decode (.cmd w) = .ok i
    ∧ i ∈ [.encode, .decode, .decodeTrunc, .classify, .checkAck, .xactSend]

/-! ### Ends that are whole -/

theorem endsWhole_of_busy {s t : State} (h : t.status.busy = s.status.busy) : EndsWhole s t :=
  fun hs ht => by rw [h, hs] at ht; cases ht

theorem endsWhole_of_completed {s t : State} {r : Option Err} (h : Completed t r)
    (hr : r ≠ some .incomplete) : EndsWhole s t :=
  fun _ _ => by obtain ⟨-, -, he, -⟩ := h; rwa [he]

theorem endsWhole_blockReset (s u : State) : EndsWhole s u.blockReset := fun _ _ => nofun

/-- A running operation's step ends whole; at XACT_READ's second read this asks for the step itself. -/
theorem OpStep.endsWhole {s t : State} (h : OpStep s t)
    (hn : (∃ len tmo tr, s.act = .readRest len tmo tr) → EndsWhole s t) : EndsWhole s t := by
  cases h with
  | stays _ hs => exact endsWhole_of_busy (by rw [hs])
  | waits _ _ _ _ _ _ hs => exact endsWhole_of_busy (by rw [hs])
  | ready why tmo w _ hr _ hs =>
    cases why with
    | waitReady => exact endsWhole_of_completed hr.2 nofun
    | send | read => exact endsWhole_of_busy (by rw [hs nofun])
  | expires _ _ _ _ _ he => exact endsWhole_of_completed he nofun
  | sent _ _ _ _ _ hs => exact endsWhole_of_busy (by rw [hs])
  | begins _ _ _ _ _ hs => exact endsWhole_of_busy (by rw [hs])
  | acked _ _ hc => exact endsWhole_of_completed hc nofun
  | header _ _ _ _ _ _ hs => exact endsWhole_of_busy (by rw [hs])
  | decoded _ _ _ _ _ hb => exact endsWhole_of_busy hb
  | checked _ hc => exact endsWhole_of_completed hc nofun
  | fails e hc _ _ _ he =>
    obtain he | he := he
    · exact endsWhole_of_completed hc fun h => he (Option.some.inj h)
    · exact hn he

/-! ### XACT_READ's own decode -/

theorem headerHeld_readRest {s : State} {len : Byte} {tmo : Word} {tr : Transport}
    (hh : s.headerHeld = true) (h : s.act = .readRest len tmo tr) :
    ∃ b, s.mem.readBytes? rxBase 6 = some b ∧ b.take 3 = Config.preamble ∧ b.getD 3 0 = len
      ∧ len + b.getD 4 0 = 0 ∧ len ≠ 0 := by
  simp only [State.headerHeld, h] at hh
  split at hh
  · rename_i b hb
    simp only [Bool.and_eq_true, beq_iff_eq, bne_iff_ne, lcsOk] at hh
    obtain ⟨⟨⟨⟨hp, hl⟩, hs⟩, h0⟩, -⟩ := hh
    exact ⟨b, hb, hp, hl, hs, h0⟩
  · cases hh

/-- A store behind the six header bytes leaves them, and the two runs are one. -/
theorem readBytes?_header_rest {m : Memory} {hd b : List Byte} (h : m.readBytes? rxBase 6 = some hd) :
    (m.writeBytes (rxBase + 6) b).readBytes? rxBase (6 + b.length) = some (hd ++ b) := by
  refine Memory.readBytes?_append ?_ (Memory.readBytes?_writeBytes m (rxBase + 6) b)
  rw [← h]
  exact Memory.readBytes?_congr fun i hi => Memory.read?_writeBytes_outside m (by omega)

/-- A whole frame behind a valid header is never INCOMPLETE. -/
theorem decoded_whole_err {cut : Option Byte} {b : List Byte} {len : Byte}
    (hl : b.length = len.toNat + 7) (h3 : b.take 3 = Config.preamble) (hlen : b.getD 3 0 = len)
    (hs : len + b.getD 4 0 = 0) (h0 : len ≠ 0) : (decoded cut b).err ≠ some .incomplete := by
  rw [decoded_whole hl h3 hlen hs h0]
  cases cut with
  | none => dsimp only; split <;> nofun
  | some m =>
    dsimp only
    split
    · nofun
    · split <;> nofun

/-- Under the header that was checked the rest of the frame is decoded: no cell is missing, and the
operation goes on or ends whole. -/
theorem State.takeRest_ends {s : State} {len : Byte} {tmo : Word} {tr : Transport} {b : List Byte}
    (hh : s.headerHeld = true) (h : s.act = .readRest len tmo tr) (hb : b.length = len.toNat + 1) :
    ∃ t, s.takeRest len tr b = .next t ∧ EndsWhole s t := by
  obtain ⟨hd, hread, h3, hlen, hsum, h0⟩ := headerHeld_readRest hh h
  have hlt := len.isLt
  have h6 := Memory.length_of_readBytes? hread
  obtain ⟨v, hv⟩ : ∃ v : State,
      v = { s.store (rxBase + 6) b with rxLen := BitVec.ofNat 9 (len.toNat + 7) } := ⟨_, rfl⟩
  have hn : v.rxLen.toNat = len.toNat + 7 := by
    rw [hv]; exact (BitVec.toNat_ofNat _ _).trans (Nat.mod_eq_of_lt (by omega))
  have hrx : v.mem.readBytes? rxBase v.rxLen.toNat = some (hd ++ b) := by
    rw [hn, hv, show len.toNat + 7 = 6 + b.length by omega]
    exact readBytes?_header_rest hread
  have hbusy : v.status = s.status := by rw [hv]; rfl
  have whole : ∀ cut, (Machine.decoded cut (hd ++ b)).err ≠ some .incomplete := fun cut =>
    decoded_whole_err (by simp; omega) (by rwa [List.take_append_of_le_length (by omega)])
      (by rwa [List.getD_append _ _ _ _ (by omega)]) (by rwa [List.getD_append _ _ _ _ (by omega)]) h0
  have main : ∀ cut, ∃ t, v.decodeBody cut State.endDecode = .next t ∧ EndsWhole s t := by
    intro cut
    rw [State.decodeBody_eq cut (by omega) hrx]
    cases he : (Machine.decoded cut (hd ++ b)).err with
    | none => exact ⟨_, rfl, endsWhole_of_busy (by rw [← hbusy]; rfl)⟩
    | some e => exact ⟨_, rfl, endsWhole_of_completed (completed_raise _ _ _) (he ▸ whole cut)⟩
  unfold State.takeRest
  simp only [← hv]
  split
  · exact main _
  split
  · exact ⟨_, rfl, endsWhole_of_completed (completed_raise _ _ _) nofun⟩
  · exact main _

/-! ### The turns of the block, the peer and the environment -/

theorem State.rxBytes_ends {s : State} {k : OpKind} {n : Nat} {b : List Byte}
    (hh : s.headerHeld = true) (hd : s.act.rxDemand = some (k, n)) (hb : b.length = n) :
    ∃ t, s.rxBytes b = .next t ∧ EndsWhole s t := by
  have other : ∀ t, s.rxBytes b = .next t → (∀ len tmo tr, s.act ≠ .readRest len tmo tr) →
      ∃ t, s.rxBytes b = .next t ∧ EndsWhole s t := fun t ht hr =>
    ⟨t, ht, (rxBytes_moves hd hb ht).1.step.endsWhole fun ⟨_, _, _, h⟩ => absurd h (hr _ _ _)⟩
  cases ha : s.act with
  | sendRx tmo => exact other (s.takeAck b) (by simp only [State.rxBytes, ha]) (by rw [ha]; nofun)
  | readHead tmo tr =>
    exact other (s.takeHeader tmo tr b) (by simp only [State.rxBytes, ha]) (by rw [ha]; nofun)
  | readRest len tmo tr =>
    simp only [ha, Activity.rxDemand, Option.some.injEq, Prod.mk.injEq] at hd
    simp only [State.rxBytes, ha]
    exact State.takeRest_ends hh ha (hb.trans hd.2.symm)
  | idle | waiting | sendTx | sendSent | readDir => simp [ha, Activity.rxDemand] at hd

theorem State.rxAnswer_ends {s : State} (hh : s.headerHeld = true) (r : RxResult) :
    ∃ t, s.rxAnswer r = .next t ∧ EndsWhole s t := by
  unfold State.rxAnswer
  split
  · exact ⟨_, rfl, endsWhole_of_busy rfl⟩
  rename_i k n hd
  split
  · exact ⟨_, rfl, endsWhole_of_completed (completed_raise _ _ _) nofun⟩
  · exact ⟨_, rfl, endsWhole_of_completed (completed_raise _ _ _) nofun⟩
  · split
    · rename_i hb; exact State.rxBytes_ends hh hd hb
    · exact ⟨_, rfl, endsWhole_of_busy rfl⟩

theorem State.deliver_ends {s : State} (hh : s.headerHeld = true) :
    ∃ t, s.deliver = .next t ∧ EndsWhole s t := by
  unfold State.deliver
  split
  · exact ⟨_, rfl, endsWhole_of_busy rfl⟩
  rename_i k n hd
  split
  · rename_i hn
    exact State.rxBytes_ends (s := { s with wireIn := s.wireIn.drop n }) hh hd
      (List.length_take_of_le hn)
  · exact ⟨_, rfl, endsWhole_of_busy rfl⟩

theorem State.peerMove_ends {s : State} (hh : s.headerHeld = true) :
    ∃ t, s.peerMove = .next t ∧ EndsWhole s t := by
  obtain ⟨p, f, e⟩ := peerMove_eq s
  rw [e]
  exact State.deliver_ends (s := { s with peer := p, wireIn := s.wireIn ++ f }) hh

theorem State.blockMove_ends (s : State) : ∃ t, s.blockMove = .next t ∧ EndsWhole s t := by
  obtain ⟨t, ht⟩ : ∃ t, s.blockMove = .next t := by
    unfold State.blockMove
    split <;> exact ⟨_, rfl⟩
  refine ⟨t, ht, (blockMove_moves ht).1.step.endsWhole fun ⟨_, _, _, ha⟩ => ?_⟩
  simp only [State.blockMove, ha] at ht
  cases ht
  exact endsWhole_of_busy rfl

theorem State.envMove_ends {s : State} (hh : s.headerHeld = true) (m : EnvMove) :
    ∃ t, s.envMove m = .next t ∧ EndsWhole s t := by
  cases m with
  | tick d => exact ⟨_, rfl, endsWhole_of_busy rfl⟩
  | irq v =>
    refine ⟨_, rfl, endsWhole_of_busy ?_⟩
    unfold State.irqChange
    split <;> rfl
  | rst v =>
    refine ⟨_, rfl, ?_⟩
    split
    · exact endsWhole_of_busy rfl
    · exact endsWhole_blockReset _ _
  | tx r =>
    refine ⟨_, rfl, (txAnswer_moves r s).1.step.endsWhole fun ⟨_, _, _, ha⟩ => ?_⟩
    simp only [State.txAnswer, ha]
    exact endsWhole_of_busy rfl
  | rx r => exact State.rxAnswer_ends hh r
  | rxWire => exact State.deliver_ends hh
  | statusByte r =>
    refine ⟨_, rfl, (statusAnswer_moves r s).1.step.endsWhole fun ⟨_, _, _, ha⟩ => ?_⟩
    simp only [State.statusAnswer, ha]
    exact endsWhole_of_busy rfl

/-! ### The controller's turn -/

/-- A write cycle stops the machine only as a reading command's word at CMD. -/
theorem State.busWrite_outcome (off : BitVec 12) (v : Word) (s : State) :
    (∃ t, s.busWrite off v = .next t)
      ∨ s.busWrite off v = .fault .unwrittenRead ∧ off = 0x000
        ∧ ∃ i, Sys2Proof.decode (.cmd v) = .ok i
          ∧ i ∈ [.encode, .decode, .decodeTrunc, .classify, .checkAck, .xactSend] := by
  unfold State.busWrite
  split
  · exact .inl ⟨_, rfl⟩
  · rename_i hoff
    unfold State.command
    split
    · rename_i i hd
      exact (exec_outcome i _ (isCommand_of_decode hd)).imp_right
        fun ⟨hf, hi⟩ => ⟨hf, portReg_cmd hoff, i, hd, hi⟩
    · exact .inl ⟨_, rfl⟩
  · exact .inl ⟨_, rfl⟩

theorem State.controllerMove_of_busy {s : State} (hb : s.status.busy = true) :
    ∃ t, s.controllerMove = .next t ∧ t.status = s.status := by
  simp only [State.controllerMove, hb, if_true]
  split
  · exact ⟨_, rfl, rfl⟩
  · split <;> exact ⟨_, rfl, rfl⟩

/-- With BUSY = 0 the controller's turn is no write cycle, or the one its held write or its next access
is. -/
theorem State.controllerMove_of_free {s : State} (hb : s.status.busy = false) :
    (∃ t, s.controllerMove = .next t)
      ∨ ∃ off v u, s.controllerMove = State.busWrite off v u
        ∧ (s.held = some (off, v) ∨ s.held = none ∧ ∃ as, s.bus = .write off v :: as) := by
  cases hh : s.held with
  | some w => exact .inr ⟨w.1, w.2, _, controllerMove_held hh hb, .inl rfl⟩
  | none =>
    cases hbus : s.bus with
    | nil => exact .inl ⟨s, by simp only [State.controllerMove, hh, hbus]⟩
    | cons a as =>
      cases a with
      | read off => exact .inl ⟨_, controllerMove_read hh hbus⟩
      | write off v =>
        exact .inr ⟨off, v, _, controllerMove_write hh hbus hb, .inr ⟨rfl, as, rfl⟩⟩

theorem State.controllerMove_outcome {s : State} {ts : List Turn} (ht : s.turns = .controller :: ts) :
    (∃ t, State.controllerMove { s with turns := ts } = .next t ∧ EndsWhole s t)
      ∨ State.controllerMove { s with turns := ts } = .fault .unwrittenRead
        ∧ ReadingCommandAt s := by
  cases hb : s.status.busy with
  | true =>
    obtain ⟨t, e, hs⟩ := State.controllerMove_of_busy (s := { s with turns := ts }) hb
    exact .inl ⟨t, e, endsWhole_of_busy (by rw [hs])⟩
  | false =>
    have free : ∀ t, EndsWhole s t := fun t hs => by rw [hb] at hs; cases hs
    obtain ⟨t, e⟩ | ⟨off, v, u, e, hw⟩ :=
      State.controllerMove_of_free (s := { s with turns := ts }) hb
    · exact .inl ⟨t, e, free t⟩
    rw [e]
    obtain ⟨t, e⟩ | ⟨e, rfl, i, hd, hi⟩ := u.busWrite_outcome off v
    · exact .inl ⟨t, e, free t⟩
    · exact .inr ⟨e, v, i, ⟨⟨ts, ht⟩, hb, hw⟩, hd, hi⟩

/-! ### Every step -/

/-- Under the header that was checked, every step answers a next state and ends a running operation
whole, but for the fault of a reading command. -/
theorem step_outcome {s : State} (hh : s.headerHeld = true) :
    (∃ t, step s = .next t ∧ EndsWhole s t)
      ∨ step s = .fault .unwrittenRead ∧ s.rst = false ∧ ReadingCommandAt s := by
  obtain ⟨-, e⟩ | ⟨x, ts, hts, ⟨hr, e⟩ | ⟨-, e⟩⟩ := step_cases s
  · exact .inl ⟨s, e, endsWhole_of_busy rfl⟩
  · rw [e]
    cases x with
    | controller =>
      exact (State.controllerMove_outcome hts).imp_right fun ⟨hf, hc⟩ => ⟨hf, hr, hc⟩
    | block => exact .inl (State.blockMove_ends { s with turns := ts })
    | peer => exact .inl (State.peerMove_ends (s := { s with turns := ts }) hh)
    | env m => exact .inl (State.envMove_ends (s := { s with turns := ts }) hh m)
  · obtain ⟨u, hu, -⟩ := moveInReset_eq x { s with turns := ts }
    exact .inl ⟨u.blockReset, e.trans hu, endsWhole_blockReset s u⟩

/-- Settles O57, from the outcomes of a step under the invariant's header. -/
theorem onlyCommandsFault : Obligations.OnlyCommandsFault := by
  intro s hinv
  have hh : s.headerHeld = true := by
    simp only [State.inv, Bool.and_eq_true] at hinv
    obtain ⟨⟨-, hh⟩, -⟩ := hinv
    exact hh
  obtain ⟨u, e, hu⟩ | ⟨e, hr, w, i, hc, hd, hi⟩ := step_outcome hh <;> rw [e]
  · refine ⟨nofun, nofun, fun t ht => ?_⟩
    cases ht
    exact hu
  · refine ⟨fun f hf => ?_, nofun, fun t ht => by cases ht⟩
    cases hf
    exact ⟨rfl, hr, w, i, hc, hd, hi⟩

end Sys2Proof.Machine


/-! PROOFS. The register port's map and its writes, held writes (20_memory.md), and the steps that run a
command or a frame. -/

namespace Sys2Proof.Machine

/-! ### The steps that run an instruction -/

/-- Settles O7: a write to CMD of a word that decodes. -/
theorem stepRunsDecodedCommand : Obligations.StepRunsDecodedCommand :=
  fun _ _ _ _ _ h hr hh hy hb hd => step_command h hr hh hy hb hd

/-- A whole frame in front of the peer's queue is run as its row. -/
theorem peerMove_of_decodeWire {s : State} {i : Instr} {rest : List Byte}
    (h : decodeWire s.peer = .ok (i, rest)) : s.peerMove = exec i { s with peer := rest } := by
  simp only [State.peerMove, h]

/-- Settles O8: the peer's turn is its move, and that runs the frame. -/
theorem stepRunsDecodedFrame : Obligations.StepRunsDecodedFrame := by
  intro s ts i rest h hr hd
  rw [step_eq_move h hr]
  exact peerMove_of_decodeWire (s := { s with turns := ts }) hd

/-! ### The port's map (R40) -/

/-- A misaligned offset, or one outside the map, is no element. -/
theorem portReg_of_refused {off : BitVec 12}
    (h : off.toNat % 4 ≠ 0
      ∨ ¬(off.toNat ≤ 0x02F ∨ 0x100 ≤ off.toNat ∧ off.toNat ≤ 0x13F
          ∨ 0x200 ≤ off.toNat ∧ off.toNat ≤ 0x247 ∨ 0x300 ≤ off.toNat ∧ off.toNat ≤ 0x407
          ∨ 0x500 ≤ off.toNat ∧ off.toNat ≤ 0x5FF)) : portReg off = none := by
  unfold portReg
  generalize off.toNat = n at *
  dsimp only
  by_cases h4 : n % 4 = 0
  · replace h := h.resolve_left (not_not.mpr h4)
    simp (disch := omega) only [if_neg]
  · exact if_pos h4

/-- TXBUF's and RXBUF's words are read and written. -/
theorem portReg_of_rwRange {off : BitVec 12} (h4 : off.toNat % 4 = 0)
    (h : 0x100 ≤ off.toNat ∧ off.toNat < 0x140 ∨ 0x300 ≤ off.toNat ∧ off.toNat < 0x408) :
    portReg off = some (.rwBuf off.toNat) := by
  unfold portReg
  generalize off.toNat = n at *
  dsimp only
  rcases h with h | h <;> simp (disch := omega) only [if_neg, if_pos]

/-- FRAMEBUF's and PAYBUF's words are read only. -/
theorem portReg_of_roRange {off : BitVec 12} (h4 : off.toNat % 4 = 0)
    (h : 0x200 ≤ off.toNat ∧ off.toNat < 0x248 ∨ 0x500 ≤ off.toNat ∧ off.toNat < 0x600) :
    portReg off = some (.roBuf off.toNat) := by
  refine (portReg_buffer h4 (by omega)).resolve_left fun e => ?_
  obtain ⟨-, -, hrange⟩ := portReg_rwBuf e
  omega

/-! ### Write cycles -/

/-- A write to no element of the port is refused. -/
theorem busWrite_of_refused {off : BitVec 12} (h : portReg off = none) (v : Word) (s : State) :
    s.busWrite off v = .next { s with resp := some .busError } := by
  simp only [State.busWrite, h]

/-- A write to an element other than CMD is that register's write. -/
theorem busWrite_of_reg {off : BitVec 12} {r : PortReg} (h : portReg off = some r) (hc : r ≠ .cmd)
    (v : Word) (s : State) :
    s.busWrite off v = .next (State.regWrite r v { s with resp := some .written }) := by
  unfold State.busWrite
  split
  case h_1 hn => rw [h] at hn; cases hn
  case h_2 hcmd => exact absurd (Option.some.inj (h.symm.trans hcmd)) hc
  case h_3 r' hr' => cases h.symm.trans hr'; rfl

/-- A read of no element of the port is refused, with BUSY = 1 too. -/
theorem State.portRead_of_refused {off : BitVec 12} (h : portReg off = none) (s : State) :
    s.portRead off = .busError := by
  simp only [State.portRead, h]

section
variable {s : State} {ts : List Turn} {as : List Access} {off : BitVec 12} {v : Word}

/-- A write with BUSY = 0 at the controller's turn. -/
theorem step_write (h : s.turns = .controller :: ts) (hr : s.rst = false) (hh : s.held = none)
    (hy : s.status.busy = false) (hb : s.bus = .write off v :: as) :
    step s = State.busWrite off v { s with turns := ts, bus := as } := by
  rw [step_eq_move h hr]
  exact controllerMove_write (s := { s with turns := ts }) hh hb hy

/-- A held write with BUSY = 0 at the controller's turn. -/
theorem step_held (h : s.turns = .controller :: ts) (hr : s.rst = false)
    (hh : s.held = some (off, v)) (hy : s.status.busy = false) :
    step s = State.busWrite off v { s with turns := ts, held := none } := by
  rw [step_eq_move h hr]
  exact controllerMove_held (s := { s with turns := ts }) hh hy

/-- A write with BUSY = 0 to an element other than CMD, at the controller's turn. -/
theorem step_regWrite {r : PortReg} (h : s.turns = .controller :: ts) (hr : s.rst = false)
    (hh : s.held = none) (hy : s.status.busy = false) (hb : s.bus = .write off v :: as)
    (hp : portReg off = some r) (hc : r ≠ .cmd) :
    step s = .next (State.regWrite r v { s with turns := ts, bus := as, resp := some .written }) := by
  rw [step_write h hr hh hy hb, busWrite_of_reg hp hc]

end

/-- While BUSY = 1 a held write stays held. -/
theorem controllerMove_stillHeld {s : State} {w : BitVec 12 × Word} (hh : s.held = some w)
    (hy : s.status.busy = true) : s.controllerMove = .next s := by
  simp only [State.controllerMove, hh, hy, if_true]

/-- Settles O48: the offset is no element, so each of the three cycles is refused. -/
theorem busErrorChangesNothing : Obligations.BusErrorChangesNothing := by
  intro s ts as off h hr hoff
  have hp : portReg off = none := portReg_of_refused hoff
  refine ⟨fun hh hb => ?_, fun v hy => ⟨fun hh hb => ?_, fun hh => ?_⟩⟩
  · rw [step_read h hr hh hb, State.portRead_of_refused hp]
  · rw [step_write h hr hh hy hb, busWrite_of_refused hp]
  · rw [step_held h hr hh hy, busWrite_of_refused hp]

/-- Settles O50: held, still held, and let through as the access that would have come first. -/
theorem writesHeldWhileBusy : Obligations.WritesHeldWhileBusy := by
  intro s ts off v h hr
  refine ⟨fun as hy hh hb => ?_, fun hy hh => ?_, fun hy hh => ?_⟩
  · rw [step_eq_move h hr]
    exact controllerMove_hold (s := { s with turns := ts }) hh hb hy
  · rw [step_eq_move h hr]
    exact controllerMove_stillHeld (s := { s with turns := ts }) hh hy
  · rw [step_held h hr hh hy]
    exact (step_write (s := { s with held := none, bus := .write off v :: s.bus })
      h hr rfl hy rfl).symm

/-- Settles O52: each of these offsets is an element whose write stores nothing. -/
theorem readOnlyIgnoresWrites : Obligations.ReadOnlyIgnoresWrites := by
  intro s ts as off v h hr hh hy hb hoff
  obtain rfl | rfl | rfl | rfl | rfl | rfl | ⟨h4, hrange⟩ := hoff
  · exact step_regWrite (r := .status) h hr hh hy hb rfl nofun
  · exact step_regWrite (r := .frameLen) h hr hh hy hb rfl nofun
  · exact step_regWrite (r := .frameInfo) h hr hh hy hb rfl nofun
  · exact step_regWrite (r := .pLen) h hr hh hy hb rfl nofun
  · exact step_regWrite (r := .irqStat) h hr hh hy hb rfl nofun
  · exact step_regWrite (r := .seqState) h hr hh hy hb rfl nofun
  · exact step_regWrite h hr hh hy hb (portReg_of_roRange h4 hrange) nofun

/-! ### What a register write stores -/

/-- The low `n` bits of a word are what a field of `n` bits keeps of it. -/
theorem and_lowMask (v : Word) {n : Nat} (hn : n ≤ 32) :
    v &&& BitVec.ofNat 32 (2 ^ n - 1) = (v.setWidth n).setWidth 32 := by
  have hle : 2 ^ n ≤ 2 ^ 32 := Nat.pow_le_pow_right (by decide) hn
  have hpos : 0 < 2 ^ n := Nat.two_pow_pos n
  have hlt : v.toNat % 2 ^ n < 2 ^ 32 := (Nat.mod_lt _ hpos).trans_le hle
  apply BitVec.eq_of_toNat_eq
  rw [BitVec.toNat_and, BitVec.toNat_ofNat, Nat.mod_eq_of_lt (a := 2 ^ n - 1) (by omega),
    Nat.and_two_pow_sub_one_eq_mod, BitVec.toNat_setWidth, BitVec.toNat_setWidth, Nat.mod_eq_of_lt hlt]

theorem transportOf_code (v : Word) : (transportOf v).code = v.extractLsb' 0 1 := by
  have hbit : v.extractLsb' 0 1 = bit (v.getLsbD 0) := by
    ext i hi
    cases (show i = 0 by omega)
    simp [bit]
  rw [hbit, transportOf]
  cases v.getLsbD 0 <;> rfl

theorem strategyOf_code (v : Word) : (strategyOf v).code = v.extractLsb' 1 2 := by
  have hbits : v.extractLsb' 1 2 = bit (v.getLsbD 2) ++ bit (v.getLsbD 1) := by
    ext i hi
    obtain rfl | rfl : i = 0 ∨ i = 1 := by omega
    · rw [BitVec.getElem_append]
      simp [bit]
    · rw [BitVec.getElem_append]
      simp [bit]
  rw [hbits, strategyOf]
  cases v.getLsbD 1 <;> cases v.getLsbD 2 <;> rfl

/-- CONFIG keeps a word's low three bits (R21). -/
theorem configWord_of_word (v : Word) :
    configWord (transportOf v) (strategyOf v) = v &&& 0x00000007 := by
  rw [configWord, transportOf_code, strategyOf_code, BitVec.append_assoc,
    BitVec.extractLsb'_append_extractLsb'_eq_extractLsb' (show 1 = 0 + 1 from rfl)]
  refine .trans ?_ (and_lowMask v (n := 3) (by decide)).symm
  rw [BitVec.setWidth_eq_extractLsb' (x := v) (by decide), BitVec.setWidth_eq_append (by decide)]

/-- RXBUF's last word keeps the low two bytes of a word, and its padding reads 0 (R43). -/
theorem packWord_padded (v : Word) :
    packWord (v.extractLsb' 0 8) (v.extractLsb' 8 8) 0 0 = v &&& 0x0000FFFF := by
  rw [packWord, BitVec.append_assoc,
    BitVec.extractLsb'_append_extractLsb'_eq_extractLsb' (show 8 = 0 + 8 from rfl)]
  refine .trans ?_ (and_lowMask v (n := 16) (by decide)).symm
  rw [BitVec.setWidth_eq_extractLsb' (x := v) (by decide), BitVec.setWidth_eq_append (by decide)]
  rfl

/-- The bus byte of a cell that a store has written. -/
theorem State.busByte_store (s : State) (a : Nat) (bs : List Byte) {i : Nat} (hi : i < bs.length)
    (hc : isCell (a + i) = true) : (s.store a bs).busByte (a + i) = bs[i] := by
  apply State.busByte_written hc
  rw [State.store_mem, Memory.read?_writeBytes, if_pos (by omega), Nat.add_sub_cancel_left,
    List.getElem?_eq_getElem hi]

/-- A whole buffer word reads back. -/
theorem regWord_store {a : Nat} (hc : ∀ i, i < 4 → isCell (a + i) = true) (v : Word) (s : State) :
    (s.store a (unpackWord v)).regWord (.rwBuf a) = v := by
  have hb (i : Nat) (hi : i < 4) := s.busByte_store a (unpackWord v) hi (hc i hi)
  refine .trans ?_ (packWord_unpack v)
  show packWord _ _ _ _ = _
  rw [hb 1 (by decide), hb 2 (by decide), hb 3 (by decide)]
  exact congrArg (packWord · _ _ _) (hb 0 (by decide))

/-- RXBUF's last word reads back its two cells. -/
theorem regWord_store_padded (v : Word) (s : State) :
    (s.store 0x404 ((unpackWord v).take 2)).regWord (.rwBuf 0x404) = v &&& 0x0000FFFF := by
  have hb (i : Nat) (hi : i < 2) (hc) := s.busByte_store 0x404 ((unpackWord v).take 2) hi hc
  refine .trans ?_ (packWord_padded v)
  show packWord _ _ _ _ = _
  rw [hb 1 (by decide) rfl, State.busByte_padding _ (a := 0x404 + 2) rfl,
    State.busByte_padding _ (a := 0x404 + 3) rfl]
  exact congrArg (packWord · _ _ _) (hb 0 (by decide) rfl)

/-- The elements a write stores, with the bits of a word that each keeps (R21 to R23, R31, R33, R43,
R44). -/
theorem regWord_regWrite {off : BitVec 12} {mask : Word}
    (h : off = 0x008 ∧ mask = 0x00000007 ∨ off = 0x00C ∧ mask = 0xFFFFFFFF
      ∨ off = 0x010 ∧ mask = 0x000000FF ∨ off = 0x014 ∧ mask = 0x000000FF
      ∨ off = 0x018 ∧ mask = 0x000001FF
      ∨ off.toNat % 4 = 0 ∧ (0x100 ≤ off.toNat ∧ off.toNat < 0x140
          ∨ 0x300 ≤ off.toNat ∧ off.toNat < 0x404) ∧ mask = 0xFFFFFFFF
      ∨ off = 0x404 ∧ mask = 0x0000FFFF) :
    ∃ r, portReg off = some r ∧ r ≠ .cmd
      ∧ ∀ (v : Word) (s : State), (s.regWrite r v).regWord r = v &&& mask := by
  obtain ⟨rfl, rfl⟩ | ⟨rfl, rfl⟩ | ⟨rfl, rfl⟩ | ⟨rfl, rfl⟩ | ⟨rfl, rfl⟩ | ⟨h4, hrange, rfl⟩
    | ⟨rfl, rfl⟩ := h
  · exact ⟨.config, rfl, nofun, fun v _ => configWord_of_word v⟩
  · exact ⟨.timeout, rfl, nofun, fun _ _ => BitVec.and_allOnes.symm⟩
  · exact ⟨.txLen, rfl, nofun, fun v _ => (and_lowMask v (n := 8) (by decide)).symm⟩
  · exact ⟨.maxLen, rfl, nofun, fun v _ => (and_lowMask v (n := 8) (by decide)).symm⟩
  · exact ⟨.rxLen, rfl, nofun, fun v _ => (and_lowMask v (n := 9) (by decide)).symm⟩
  · refine ⟨_, portReg_of_rwRange h4 (by omega), nofun, fun v s => ?_⟩
    have hcells : ∀ i, i < 4 → isCell (off.toNat + i) = true := fun i hi => by
      rw [isCell_iff]; omega
    rw [State.regWrite, if_neg (by omega), regWord_store hcells]
    exact BitVec.and_allOnes.symm
  · exact ⟨.rwBuf 0x404, rfl, nofun, fun v s => regWord_store_padded v s⟩

/-! ### What a register write leaves -/

/-- `s` with the elements a register write can store taken from `u`: CONFIG, TIMEOUT, TXLEN, MAXLEN,
RXLEN and the cells. -/
def State.withWritten (s u : State) : State :=
  { s with
    transport := u.transport
    strategy := u.strategy
    timeout := u.timeout
    txLen := u.txLen
    maxLen := u.maxLen
    rxLen := u.rxLen
    mem := u.mem }

/-- A register write changes no other element, and does not look at the turns, the controller's list or
its answer. -/
theorem regWrite_eq_withWritten (r : PortReg) (v : Word) (s : State) (ts : List Turn)
    (as : List Access) (x : Option BusResp) :
    State.regWrite r v { s with turns := ts, bus := as, resp := x }
      = State.withWritten { s with turns := ts, bus := as, resp := x } (s.regWrite r v) := by
  cases r <;> rfl

/-- The element written answers its stored word, whatever turns, list and answer there are. -/
theorem portRead_withWritten {off : BitVec 12} {r : PortReg} (hp : portReg off = some r) (v : Word)
    {s : State} (hy : s.status.busy = false) (ts : List Turn) (as : List Access)
    (x : Option BusResp) :
    (State.withWritten { s with turns := ts, bus := as, resp := x } (s.regWrite r v)).portRead off
      = .data ((s.regWrite r v).regWord r) := by
  refine (State.portRead_of_free hp (by exact hy)).trans ?_
  cases r <;> rfl

section
variable {off : BitVec 12} {r : PortReg} (hp : portReg off = some r) (v : Word) (s : State)
include hp

/-- Of the five registers a write stores, it changes at most the one at its offset. -/
theorem regWrite_other_regs :
    (off ≠ 0x008 → (s.regWrite r v).transport = s.transport
        ∧ (s.regWrite r v).strategy = s.strategy)
      ∧ (off ≠ 0x00C → (s.regWrite r v).timeout = s.timeout)
      ∧ (off ≠ 0x010 → (s.regWrite r v).txLen = s.txLen)
      ∧ (off ≠ 0x014 → (s.regWrite r v).maxLen = s.maxLen)
      ∧ (off ≠ 0x018 → (s.regWrite r v).rxLen = s.rxLen) := by
  obtain ⟨hconfig, htimeout, htx, hmax, hrx⟩ := portReg_writable off
  rw [hp] at hconfig htimeout htx hmax hrx
  refine ⟨fun hne => ?_, fun hne => ?_, fun hne => ?_, fun hne => ?_, fun hne => ?_⟩
  · cases r with
    | config => exact absurd (hconfig rfl) hne
    | _ => exact ⟨rfl, rfl⟩
  · cases r with
    | timeout => exact absurd (htimeout rfl) hne
    | _ => rfl
  · cases r with
    | txLen => exact absurd (htx rfl) hne
    | _ => rfl
  · cases r with
    | maxLen => exact absurd (hmax rfl) hne
    | _ => rfl
  · cases r with
    | rxLen => exact absurd (hrx rfl) hne
    | _ => rfl

/-- Below the buffers no write changes a cell. -/
theorem regWrite_mem_of_low (hlow : off.toNat < 0x100) : (s.regWrite r v).mem = s.mem := by
  cases r with
  | rwBuf a =>
    obtain ⟨rfl, -, hrange⟩ := portReg_rwBuf hp
    omega
  | _ => rfl

/-- A write changes the cells of its own word only, and of the padded word its two. -/
theorem regWrite_sameCellsBut :
    SameCellsBut off.toNat (if off = 0x404 then 2 else 4) s (s.regWrite r v) := by
  intro a ha
  cases r with
  | rwBuf b =>
    obtain ⟨rfl, -, -⟩ := portReg_rwBuf hp
    apply Memory.read?_writeBytes_outside
    by_cases h : off = 0x404
    · subst h; exact ha
    · rw [if_neg h] at ha
      rw [if_neg (show ¬off.toNat = 0x404 from fun e => h (BitVec.eq_of_toNat_eq e))]
      exact ha
  | _ => rfl

end

theorem run_two {s t u : State} (h : step s = .next t) (h' : step t = .next u) :
    core.run 2 s = .next u := (run_succ h).trans (run_succ (n := 0) h')

/-- A write with BUSY = 0 to an element other than CMD, and then a read of it: the element's word is
answered, and the two cycles leave the register write. -/
theorem run_write_read {s : State} {ts : List Turn} {as : List Access} {off : BitVec 12} {v : Word}
    {r : PortReg} (h : s.turns = .controller :: .controller :: ts) (hr : s.rst = false)
    (hh : s.held = none) (hy : s.status.busy = false) (hb : s.bus = .write off v :: .read off :: as)
    (hp : portReg off = some r) (hc : r ≠ .cmd) :
    core.run 2 s = .next { s.withWritten (s.regWrite r v) with
      turns := ts, bus := as
      resp := some (.data ((s.regWrite r v).regWord r)), draws := s.draws + 1 } := by
  have hwrite := step_regWrite h hr hh hy hb hp hc
  rw [regWrite_eq_withWritten] at hwrite
  refine run_two hwrite ((step_read rfl (by exact hr) (by exact hh) rfl).trans ?_)
  rw [portRead_withWritten hp v hy]
  rfl

/-- Settles O51: the two cycles are a register write, with its word as the answer; that word is the
stored bits, and the rest is what a register write leaves. -/
theorem portReadsBackWrites : Obligations.PortReadsBackWrites := by
  intro s ts as off v mask h hr hh hy hb hoff
  obtain ⟨r, hp, hc, hword⟩ := regWord_regWrite hoff
  obtain ⟨hconfig, htimeout, htx, hmax, hrx⟩ := regWrite_other_regs hp v s
  refine ⟨_, run_write_read h hr hh hy hb hp hc, by rw [hword], ?_⟩
  exact ⟨rfl, ⟨rfl, rfl, rfl⟩, ⟨rfl, rfl, rfl⟩, rfl, rfl, rfl, hh, hconfig, htimeout, htx, hmax, hrx,
    regWrite_mem_of_low hp v s, regWrite_sameCellsBut hp v s, rfl, rfl, rfl, rfl, rfl, rfl, rfl, rfl⟩

end Sys2Proof.Machine


/-! PROOFS. The checksums, the sentinel class, and the encodings read back. -/

namespace Sys2Proof.Machine

/-! ### Checksums -/

/-- `u8(~x + 1)` and `u8(0x100 - x)` are the negative of `x` (R11). -/
theorem dcsOf_eq_neg (tfi : Byte) (pd : List Byte) : dcsOf tfi pd = -dsum (tfi :: pd) :=
  (BitVec.neg_eq_not_add _).symm

theorem lcs_eq_neg (len : Byte) : lcs len = -len := BitVec.zero_sub len

/-- Settles O1: the checksum is the negative of LEN. -/
theorem lengthChecksum : Obligations.LengthChecksum := by
  intro len
  rw [lcs_eq_neg]
  refine ⟨rfl, add_neg_cancel len, fun h0 => ?_⟩
  have hlt := len.isLt
  have hne : len.toNat ≠ 0 := fun h => h0 (BitVec.eq_of_toNat_eq h)
  have hneg : (-len).toNat = 256 - len.toNat := by
    rw [BitVec.toNat_neg]
    omega
  omega

/-- A byte behind a byte string adds itself to the sum. -/
theorem dsum_concat (s : List Byte) (d : Byte) : dsum (s ++ [d]) = dsum s + d := by
  rw [dsum_append]
  exact congrArg (dsum s + ·) (BitVec.add_zero d)

/-- Settles O2: DCS is the negative of the sum, and so the one byte that makes it 0. -/
theorem dataChecksum : Obligations.DataChecksum := by
  intro tfi pd
  refine ⟨rfl, fun d => ?_, fun h => ?_, dcsOf_eq_neg tfi pd⟩
  · rw [dsum_concat, dcsOf_eq_neg, add_eq_zero_iff_neg_eq, eq_comm]
  · rw [dcsOf_eq_neg, h]
    rfl

/-! ### The sentinel class -/

/-- What R57 asks of an information frame. -/
theorem infoFrame_wellFormed {len l dcs post : Byte} {body : List Byte}
    (h : (Instr.infoFrame len l body dcs post).wellFormed = true) :
    len ≠ 0 ∧ body.length = len.toNat ∧ len + l = 0 := by
  simp only [Instr.wellFormed, Bool.and_eq_true, bne_iff_ne, beq_iff_eq, lcsOk] at h
  obtain ⟨⟨⟨⟨⟨h0, hlen⟩, hsum⟩, -⟩, -⟩, -⟩ := h
  exact ⟨h0, hlen, hsum⟩

/-- Six bytes that start a string are there. -/
theorem take_six_eq_iff {s c : List Byte} (hc : c.length = 6) :
    s.take 6 = c ↔ 6 ≤ s.length ∧ s.take 6 = c := by
  refine ⟨fun h => ⟨?_, h⟩, And.right⟩
  rw [← h, List.length_take] at hc
  omega

theorem sentinelClass_infoFrame {len l dcs post : Byte} {body : List Byte}
    (h : (Instr.infoFrame len l body dcs post).wellFormed = true) :
    sentinelClass (infoFrameBytes len l body dcs post) = .other := by
  obtain ⟨h0, -, hsum⟩ := infoFrame_wellFormed h
  exact sentinelClass_header (len := len) rfl hsum h0

/-- Settles O3: the six bytes of a sentinel are all there, and a frame's LEN and LCS are neither one's. -/
theorem sentinelClasses : Obligations.SentinelClasses :=
  ⟨fun _ => sentinelClass_eq_ack.trans (take_six_eq_iff rfl),
    fun _ => sentinelClass_eq_nack.trans (take_six_eq_iff rfl),
    sentinelClass_ne_none, fun _ _ _ _ _ => sentinelClass_infoFrame⟩

/-! ### Encodings -/

/-- A well-formed information frame is taken off the wire whole: it is no sentinel (R66), and LEN says
where it ends (R68). -/
theorem decodeWire_infoFrameBytes {len l dcs post : Byte} {body : List Byte}
    (h : (Instr.infoFrame len l body dcs post).wellFormed = true) :
    decodeWire (infoFrameBytes len l body dcs post) = .ok (.infoFrame len l body dcs post, []) := by
  obtain ⟨-, hlen, -⟩ := infoFrame_wellFormed h
  have hc := sentinelClass_infoFrame h
  have hack : (infoFrameBytes len l body dcs post).take 6 ≠ Config.ack := fun e => by
    rw [sentinelClass_eq_ack.mpr e] at hc; cases hc
  have hnack : (infoFrameBytes len l body dcs post).take 6 ≠ Config.nack := fun e => by
    rw [sentinelClass_eq_nack.mpr e] at hc; cases hc
  unfold decodeWire
  rw [if_neg hack, if_neg hnack]
  simp only [infoFrameBytes, Config.preamble, List.cons_append, List.nil_append, if_true, ← hlen,
    List.drop_left, List.take_left]

/-- Settles O4: a command's word and a sentinel's bytes are computed, and an information frame is
`decodeWire_infoFrameBytes`. -/
theorem decodeOfEncode : Obligations.DecodeOfEncode := by
  intro i h
  cases i with
  | infoFrame len l body dcs post =>
    simp only [encode, Sys2Proof.decode, decodeWire_infoFrameBytes h]
  | _ => rfl

/-- Settles O5. -/
theorem commandWordsAreExact : Obligations.CommandWordsAreExact :=
  fun _ _ h => ⟨isCommand_of_decode h, encode_of_decode_cmd h⟩

/-- Settles O6: computed. -/
theorem tableWordsDecode : Obligations.TableWordsDecode := by
  unfold Obligations.TableWordsDecode
  decide

/-! ### Illegal command words -/

/-- A word with a reserved bit set, or with an unassigned OP, is no operation's (R56). -/
theorem decode_cmd_of_illegal {w : Word}
    (h : w.extractLsb' 8 24 ≠ 0 ∨
      (w.extractLsb' 0 8).toNat ∉ [0x01, 0x02, 0x03, 0x04, 0x05, 0x06, 0x10, 0x11, 0x20, 0x21]) :
    ∃ e, Sys2Proof.decode (.cmd w) = .error e := by
  cases hd : Sys2Proof.decode (.cmd w) with
  | error e => exact ⟨e, rfl⟩
  | ok i =>
    have hw := encode_of_decode_cmd hd
    cases i with
    | ackFrame | nackFrame | infoFrame => cases hw
    | _ => cases hw; exact absurd h (by decide)

/-- Settles O9: the word does not decode, so the command is completed with ILLEGAL_OP, which writes
STATUS's error, BUSY and DONE only. -/
theorem illegalCommandRefused : Obligations.IllegalCommandRefused := by
  intro s ts as w h hr hh hy hb hw
  obtain ⟨e, he⟩ := decode_cmd_of_illegal hw
  have hstep : step s = .next (State.raise .other .illegalOp
      (State.accept { s with turns := ts, bus := as, resp := some .written })) := by
    rw [step_write h hr hh hy hb, busWrite_cmd, State.command, he]
  exact ⟨_, hstep, completed_raise _ _ _, rfl, rfl, rfl, rfl, rfl, ⟨rfl, rfl, rfl, rfl, rfl⟩,
    ⟨rfl, rfl, rfl⟩, ⟨rfl, rfl, rfl⟩, rfl, rfl, fun hi => hi.symm⟩

end Sys2Proof.Machine


/-! PROOFS. Frames that arrive on the wire: what the operation that reads them does with them. -/

namespace Sys2Proof.Machine

/-! ### Six bytes read -/

/-- What both XACT operations do first with the six bytes they read (R121, R126): RXBUF[0..5], SENT and
RXLEN. How `takeAck` and `takeHeader` go on from there, by the class of the bytes, is said once below. -/
def State.withSix (b : List Byte) (s : State) : State :=
  { (s.store rxBase b).setSent (sentinelClass b) with rxLen := 6 }

section
variable {b : List Byte} (s : State)

theorem State.takeAck_of_ack (h : sentinelClass b = .ack) :
    s.takeAck b = State.finish { s.withSix b with xstate := .ackRead } := by
  simp only [State.takeAck, State.withSix, h]

theorem State.takeAck_of_nack (h : sentinelClass b = .nack) :
    s.takeAck b = (s.withSix b).raise .xactSend .nack := by
  simp only [State.takeAck, State.withSix, h]

theorem State.takeAck_of_other (h : sentinelClass b = .other) :
    s.takeAck b = (s.withSix b).raise .xactSend .notAck := by
  simp only [State.takeAck, State.withSix, h]

theorem State.takeHeader_of_ack (tmo : Word) (tr : Transport) (h : sentinelClass b = .ack) :
    s.takeHeader tmo tr b = (s.withSix b).raise .xactRead .unexpectedAck :=
  if_pos h

theorem State.takeHeader_of_nack (tmo : Word) (tr : Transport) (h : sentinelClass b = .nack) :
    s.takeHeader tmo tr b = (s.withSix b).raise .xactRead .nack :=
  (if_neg (by rw [h]; nofun)).trans (if_pos h)

/-- A valid header is no sentinel, and the read of the rest begins. -/
theorem State.takeHeader_of_valid (tmo : Word) (tr : Transport) (hp : b.take 3 = Config.preamble)
    (hs : b.getD 3 0 + b.getD 4 0 = 0) (h0 : b.getD 3 0 ≠ 0) :
    s.takeHeader tmo tr b = { s.withSix b with act := .readRest (b.getD 3 0) tmo tr } := by
  have hc := sentinelClass_header rfl hs h0
  have hok : (!lcsOk (b.getD 3 0) (b.getD 4 0)) ≠ true := by rw [lcsOk, hs]; decide
  refine (if_neg (by rw [hc]; nofun)).trans <| (if_neg (by rw [hc]; nofun)).trans <|
    (if_neg (not_not.mpr hp)).trans <| (if_neg hok).trans <| if_neg h0

end

/-- `t` has taken the six bytes `b`, and of everything else the two operations leave these as in `s`. -/
structure SixTaken (b : List Byte) (s t : State) : Prop where
  bytes : t.mem.readBytes? rxBase 6 = some b
  cells : SameCellsBut rxBase 6 s t
  rxLen : t.rxLen = 6
  sent : t.status.sent = sentinelClass b
  args : SameArgs s t
  irq : SameIrq s t
  frameLen : t.frameLen = s.frameLen
  wireIn : t.wireIn = s.wireIn

theorem sixTaken_withSix {b : List Byte} (hb : b.length = 6) (s : State) :
    SixTaken b s (s.withSix b) where
  bytes := hb ▸ Memory.readBytes?_writeBytes s.mem rxBase b
  cells _ ha := Memory.read?_writeBytes_outside s.mem (hb ▸ ha)
  rxLen := rfl
  sent := rfl
  args := ⟨rfl, rfl, rfl, rfl, rfl⟩
  irq := ⟨rfl, rfl, rfl⟩
  frameLen := rfl
  wireIn := rfl

theorem SixTaken.raise {b : List Byte} {s t : State} (h : SixTaken b s t) (k : OpKind) (e : Err) :
    SixTaken b s (t.raise k e) := by
  cases k <;> exact { h with }

theorem sixTaken_takeAck {b : List Byte} (hb : b.length = 6) (s : State) :
    SixTaken b s (s.takeAck b) := by
  have six := sixTaken_withSix hb s
  cases h : sentinelClass b with
  | none => exact absurd h (sentinelClass_ne_none b)
  | ack => rw [s.takeAck_of_ack h]; exact { six with }
  | nack => rw [s.takeAck_of_nack h]; exact six.raise _ _
  | other => rw [s.takeAck_of_other h]; exact six.raise _ _

theorem sixTaken_takeHeader {b : List Byte} (hb : b.length = 6) (tmo : Word) (tr : Transport)
    (s : State) : SixTaken b s (s.takeHeader tmo tr b) := by
  have six := sixTaken_withSix hb s
  have fails (e : Err) : SixTaken b s ((s.withSix b).raise .xactRead e) := six.raise _ e
  unfold State.takeHeader
  dsimp only
  split_ifs
  · exact fails .unexpectedAck
  · exact fails .nack
  · exact fails .badPreamble
  · exact fails .lcsMismatch
  · exact fails .badLength
  · exact { six with }

/-- XACT_SEND's read leaves FRAMELEN, FRAMEINFO, PLEN and TRUNC (R117; log entry 11). -/
theorem takeAck_sameResults (b : List Byte) (s : State) :
    SameResults s (s.takeAck b) ∧ (s.takeAck b).status.trunc = s.status.trunc := by
  cases h : sentinelClass b with
  | none => exact absurd h (sentinelClass_ne_none b)
  | ack => rw [s.takeAck_of_ack h]; exact ⟨⟨rfl, rfl, rfl⟩, rfl⟩
  | nack => rw [s.takeAck_of_nack h]; exact ⟨⟨rfl, rfl, rfl⟩, rfl⟩
  | other => rw [s.takeAck_of_other h]; exact ⟨⟨rfl, rfl, rfl⟩, rfl⟩

/-! ### Bytes received -/

section
variable {s : State} {f : List Byte} {k : OpKind} {n : Nat}

theorem receive_short (hd : s.act.rxDemand = some (k, n)) (hn : (s.wireIn ++ f).length < n) :
    s.receive f = .next { s with wireIn := s.wireIn ++ f } :=
  deliver_short (s := { s with wireIn := s.wireIn ++ f }) hd hn

theorem receive_eq_step (hr : s.rst = false) (hd : s.act.rxDemand = some (k, n))
    (hn : n ≤ (s.wireIn ++ f).length) :
    s.receive f = step { s with
      turns := .env (.rx (.ok ((s.wireIn ++ f).take n))) :: s.turns
      wireIn := (s.wireIn ++ f).drop n } :=
  deliver_eq_step (s := { s with wireIn := s.wireIn ++ f }) hr rfl hd hn

/-- With the wire empty a frame answers the outstanding read with its first bytes; the others stay. -/
theorem receive_on_empty (hw : s.wireIn = []) (hd : s.act.rxDemand = some (k, n))
    (hn : n ≤ f.length) :
    s.receive f = State.rxBytes (f.take n) { s with wireIn := f.drop n } := by
  simp only [State.receive, State.deliver, hd, hw, List.nil_append, if_pos hn]

theorem receive_sendRx {tmo : Word} (hw : s.wireIn = []) (ha : s.act = .sendRx tmo)
    (hn : 6 ≤ f.length) :
    s.receive f = .next (State.takeAck (f.take 6) { s with wireIn := f.drop 6 }) := by
  rw [receive_on_empty hw (by rw [ha]; rfl) hn]
  simp only [State.rxBytes, ha]

theorem receive_readHead {tmo : Word} {tr : Transport} (hw : s.wireIn = [])
    (ha : s.act = .readHead tmo tr) (hn : 6 ≤ f.length) :
    s.receive f = .next (State.takeHeader tmo tr (f.take 6) { s with wireIn := f.drop 6 }) := by
  rw [receive_on_empty hw (by rw [ha]; rfl) hn]
  simp only [State.rxBytes, ha]

end

/-! ### Sentinels -/

/-- A sentinel's six bytes, all of them, are the answer to XACT_SEND's read. -/
theorem sentinel_to_sendRx {s : State} {f : List Byte} {tmo : Word} (hw : s.wireIn = [])
    (ha : s.act = .sendRx tmo) (hl : f.length = 6) :
    s.receive f = .next (State.takeAck f { s with wireIn := [] }) := by
  rw [receive_sendRx hw ha hl.ge, List.take_of_length_le hl.le, List.drop_of_length_le hl.le]

/-- And to XACT_READ's first read. -/
theorem sentinel_to_readHead {s : State} {f : List Byte} {tmo : Word} {tr : Transport}
    (hw : s.wireIn = []) (ha : s.act = .readHead tmo tr) (hl : f.length = 6) :
    s.receive f = .next (State.takeHeader tmo tr f { s with wireIn := [] }) := by
  rw [receive_readHead hw ha hl.ge, List.take_of_length_le hl.le, List.drop_of_length_le hl.le]

/-- Settles O46: either frame is bytes received, and its six bytes are what `takeAck` or `takeHeader`
does with bytes of its class. -/
theorem sentinelFramesArrive : Obligations.SentinelFramesArrive := by
  intro s f i hi
  have hexec : exec i s = s.receive f := by
    obtain ⟨rfl, rfl⟩ | ⟨rfl, rfl⟩ := hi <;> rfl
  have hl : f.length = 6 := by
    obtain ⟨-, rfl⟩ | ⟨-, rfl⟩ := hi <;> rfl
  have hclass : i = .ackFrame ∧ sentinelClass f = .ack ∨ i = .nackFrame ∧ sentinelClass f = .nack :=
    hi.imp (And.imp_right (congrArg sentinelClass)) (And.imp_right (congrArg sentinelClass))
  rw [hexec]
  refine ⟨receive_of_none f, ?_, fun k n hd hr => ⟨receive_short hd, receive_eq_step hr hd⟩⟩
  rintro hw (⟨tmo, ha⟩ | ⟨tmo, tr, ha⟩)
  · have hno : ¬∃ tmo tr, s.act = .readHead tmo tr := by simp [ha]
    obtain ⟨hbytes, hcells, hrx, hsent, hargs, hirq, hlen, hwire⟩ :=
      sixTaken_takeAck hl { s with wireIn := [] }
    refine ⟨_, sentinel_to_sendRx hw ha hl, hbytes, hcells, hrx, hwire, hargs, hirq, hlen,
      fun _ => takeAck_sameResults f _, ?_⟩
    obtain ⟨rfl, hc⟩ | ⟨rfl, hc⟩ := hclass
    · rw [hsent, hc, State.takeAck_of_ack _ hc]
      exact ⟨fun _ => ⟨rfl, fun _ => ⟨completed_finish _, rfl⟩, fun h => absurd h hno⟩, nofun⟩
    · rw [hsent, hc, State.takeAck_of_nack _ hc]
      exact ⟨nofun, fun _ => ⟨rfl, completed_raise _ _ _, rfl⟩⟩
  · have hno : ¬∃ tmo, s.act = .sendRx tmo := by simp [ha]
    obtain ⟨hbytes, hcells, hrx, hsent, hargs, hirq, hlen, hwire⟩ :=
      sixTaken_takeHeader hl tmo tr { s with wireIn := [] }
    refine ⟨_, sentinel_to_readHead hw ha hl, hbytes, hcells, hrx, hwire, hargs, hirq, hlen,
      fun h => absurd h hno, ?_⟩
    obtain ⟨rfl, hc⟩ | ⟨rfl, hc⟩ := hclass
    · rw [hsent, hc, State.takeHeader_of_ack _ tmo tr hc]
      exact ⟨fun _ => ⟨rfl, fun h => absurd h hno, fun _ => ⟨completed_raise _ _ _, rfl⟩⟩, nofun⟩
    · rw [hsent, hc, State.takeHeader_of_nack _ tmo tr hc]
      exact ⟨nofun, fun _ => ⟨rfl, completed_raise _ _ _, rfl⟩⟩

/-! ### Information frames -/

theorem infoFrameBytes_length (len l : Byte) (body : List Byte) (dcs post : Byte) :
    (infoFrameBytes len l body dcs post).length = body.length + 7 := by
  simp [infoFrameBytes, Config.preamble]

/-- The environment's move that takes bytes from the wire. -/
theorem step_rxWire {s : State} {ts : List Turn} (h : s.turns = .env .rxWire :: ts)
    (hr : s.rst = false) : step s = State.deliver { s with turns := ts } :=
  step_eq_move h hr

theorem deliver_of_none {s : State} (h : s.act.rxDemand = none) : s.deliver = .next s := by
  simp only [State.deliver, h]

/-- The bytes on the wire are all that the outstanding read asks for: taking them is the transport's
answer OK of them, and leaves none. -/
theorem step_rxWire_all {s : State} {ts : List Turn} {k : OpKind} {n : Nat} (hr : s.rst = false)
    (hd : s.act.rxDemand = some (k, n)) (hn : s.wireIn.length = n) :
    step { s with turns := .env .rxWire :: ts }
      = step { s with turns := .env (.rx (.ok s.wireIn)) :: ts, wireIn := [] } := by
  rw [step_rxWire (s := { s with turns := .env .rxWire :: ts }) rfl hr,
    deliver_eq_step (s := { s with turns := ts }) hr rfl hd hn.ge]
  simp only [List.take_of_length_le hn.le, List.drop_of_length_le hn.le]

/-- The first six bytes of a well-formed information frame are a valid header: XACT_READ takes them and
goes on to the read of LEN + 1 bytes more. -/
theorem takeHeader_infoFrame {len l dcs post : Byte} {body : List Byte}
    (h : (Instr.infoFrame len l body dcs post).wellFormed = true) (tmo : Word) (tr : Transport)
    (s : State) :
    s.takeHeader tmo tr ((infoFrameBytes len l body dcs post).take 6)
      = { s.withSix ((infoFrameBytes len l body dcs post).take 6) with
          act := .readRest len tmo tr } := by
  obtain ⟨h0, -, hsum⟩ := infoFrame_wellFormed h
  exact s.takeHeader_of_valid tmo tr rfl hsum h0

/-- Settles O47: the frame is bytes received; its first six are a valid header for XACT_READ, and for
XACT_SEND bytes of the class OTHER. -/
theorem infoFrameArrives : Obligations.InfoFrameArrives := by
  refine ⟨fun s len l dcs post body h => ?_, fun s ts ht hr => ?_⟩
  · obtain ⟨-, hlen, -⟩ := infoFrame_wellFormed h
    show let f := infoFrameBytes len l body dcs post; _
    intro f
    have hf : f.length = len.toNat + 7 := by rw [infoFrameBytes_length, hlen]
    have h6 : 6 ≤ f.length := by rw [hf]; omega
    have hl : (f.take 6).length = 6 := List.length_take_of_le h6
    have hrest : (f.drop 6).length = len.toNat + 1 := by rw [List.length_drop, hf]; rfl
    have hc : sentinelClass (f.take 6) = .other := by
      rw [sentinelClass_take, sentinelClass_infoFrame h]
    refine ⟨receive_of_none f, fun hw tmo tr ha => ?_, fun hw tmo ha => ?_,
      fun k n hd hr => ⟨receive_short hd, receive_eq_step hr hd⟩⟩
    · obtain ⟨hbytes, hcells, hrx, hsent, hargs, hirq, -, hwire⟩ :=
        sixTaken_withSix hl { s with wireIn := f.drop 6 }
      have hrecv := receive_readHead hw ha h6
      rw [takeHeader_infoFrame h] at hrecv
      exact ⟨_, hrecv, rfl, hwire, hrest, hsent.trans hc, hrx, hbytes, rfl, hcells, hargs, hirq,
        ⟨rfl, rfl, rfl⟩, fun hr ts => step_rxWire_all hr rfl hrest⟩
    · obtain ⟨-, hcells, -, hsent, -⟩ := sixTaken_takeAck hl { s with wireIn := f.drop 6 }
      refine ⟨_, receive_sendRx hw ha h6, ?_, hsent.trans hc, ?_, hcells⟩
      · rw [State.takeAck_of_other _ hc]
        exact completed_raise _ _ _
      · rw [State.takeAck_of_other _ hc]
        rfl
  · rw [step_rxWire ht hr]
    exact ⟨deliver_of_none (s := { s with turns := ts }), fun k n hd =>
      ⟨deliver_short (s := { s with turns := ts }) hd,
        deliver_eq_step (s := { s with turns := ts }) hr rfl hd⟩⟩

end Sys2Proof.Machine


/-! PROOFS. The frame encoder (40_frame_encode.md): what ENCODE and EMIT_ACK place in FRAMEBUF, and the
decode of ENCODE's frame. -/

namespace Sys2Proof.Machine

/-! ### Stores to FRAMEBUF -/

/-- Where the memory is as before but for one store, every cell outside it reads as before. -/
theorem sameCellsBut_of_store {s t : State} {a : Nat} {bs : List Byte}
    (h : t.mem = s.mem.writeBytes a bs) : SameCellsBut a bs.length s t := fun x hx => by
  rw [h, Memory.read?_writeBytes_outside _ hx]

/-- Settles O13: the sentinel's six bytes are stored, and nothing else but the two result registers is
written. -/
theorem emitAckPlacesSentinel : Obligations.EmitAckPlacesSentinel := fun s =>
  ⟨_, rfl, completed_finish _, s.mem.readBytes?_writeBytes frameBase Config.ack,
    sameCellsBut_of_store (bs := Config.ack) rfl, rfl, rfl, rfl, rfl, ⟨rfl, rfl, rfl, rfl, rfl⟩,
    ⟨rfl, rfl, rfl⟩, ⟨rfl, rfl, rfl, rfl, rfl, rfl, rfl, rfl, rfl, rfl, rfl⟩, rfl, rfl, rfl⟩

/-! ### ENCODE -/

theorem execEncode_ok {s : State} {pd : List Byte} (hn : s.txLen.toNat ≤ 63)
    (hp : s.mem.readBytes? txBase s.txLen.toNat = some pd) :
    execEncode s = .next (s.accept.putFrame pd).finish :=
  (if_neg (show ¬Config.maxPayload < s.txLen.toNat from Nat.not_lt.mpr hn)).trans
    (State.need_of_some (s := s.accept) hp _)

theorem execEncode_refused {s : State} (hn : 63 < s.txLen.toNat) :
    execEncode s =
      .next (State.raise .other .payloadTooLong { s.accept with frameLen := 0, frameInfo := 0 }) :=
  if_pos hn

/-- Settles O11: R71's check fails before TXBUF is read or FRAMEBUF written. -/
theorem encodeRefusesLongPayload : Obligations.EncodeRefusesLongPayload := fun _ hn =>
  ⟨_, execEncode_refused (Nat.lt_of_succ_lt_succ hn), completed_raise _ _ _, rfl, rfl, rfl, rfl, rfl,
    rfl, ⟨rfl, rfl, rfl, rfl, rfl⟩, ⟨rfl, rfl, rfl⟩,
    ⟨rfl, rfl, rfl, rfl, rfl, rfl, rfl, rfl, rfl, rfl, rfl⟩, rfl, rfl, rfl⟩

/-- LEN as ENCODE computes it from TXLEN (R58). -/
theorem ofNat_length_succ {n : Byte} {pd : List Byte} (h : pd.length = n.toNat) :
    BitVec.ofNat 8 (pd.length + 1) = n + 1 := by
  rw [h, BitVec.ofNat_add, BitVec.ofNat_toNat, BitVec.setWidth_eq]
  rfl

/-- The frame that was placed is read back. -/
theorem readBytes?_putFrame (pd : List Byte) (s : State) :
    (s.putFrame pd).mem.readBytes? frameBase (pd.length + 8) = some (hostFrame pd) := by
  rw [State.putFrame_mem, ← hostFrame_length]
  exact Memory.readBytes?_writeBytes _ _ _

/-- Settles O10: a payload that passes R71's check is read whole and its frame placed. -/
theorem encodeBuildsFrame : Obligations.EncodeBuildsFrame := by
  intro s pd hn hp
  have hl : pd.length = s.txLen.toNat := Memory.length_of_readBytes? hp
  have hbytes := readBytes?_putFrame pd s.accept
  have hcells : SameCellsBut frameBase (hostFrame pd).length s (s.accept.putFrame pd).finish :=
    sameCellsBut_of_store rfl
  have hlen : (BitVec.ofNat 8 (pd.length + 8)).toNat = s.txLen.toNat + 8 := by
    rw [BitVec.toNat_ofNat, hl]
    omega
  have hinfo := State.putFrame_frameInfo pd s.accept
  rw [ofNat_length_succ hl] at hinfo
  rw [hostFrame_length, hl] at hcells
  rw [hostFrame_eq hl, hl] at hbytes
  exact ⟨_, execEncode_ok hn hp, completed_finish _, hbytes, hcells, hlen, hinfo, rfl, rfl,
    ⟨rfl, rfl, rfl, rfl, rfl⟩, ⟨rfl, rfl, rfl⟩,
    ⟨rfl, rfl, rfl, rfl, rfl, rfl, rfl, rfl, rfl, rfl, rfl⟩, rfl, rfl, rfl⟩

/-! ### The decode of an information frame -/

section
variable {len l dcs post : Byte} {body : List Byte}
  (h : (Instr.infoFrame len l body dcs post).wellFormed = true)
include h

/-- The last but one byte of a frame is DCS (R57). -/
theorem infoFrame_getD_dcs (d : Byte) :
    (infoFrameBytes len l body dcs post).getD (5 + len.toNat) d = dcs := by
  obtain ⟨-, hl, -⟩ := infoFrame_wellFormed h
  rw [← hl, Nat.add_comm]
  show (body ++ [dcs, post]).getD body.length d = dcs
  rw [List.getD_append_right _ _ _ _ le_rfl, Nat.sub_self]
  rfl

/-- The last byte of a frame is POSTAMBLE (R57). -/
theorem infoFrame_getD_post (d : Byte) :
    (infoFrameBytes len l body dcs post).getD (len.toNat + 6) d = post := by
  obtain ⟨-, hl, -⟩ := infoFrame_wellFormed h
  rw [← hl]
  show (body ++ [dcs, post]).getD (body.length + 1) d = post
  rw [List.getD_append_right _ _ _ _ (Nat.le_add_right _ 1), Nat.add_sub_cancel_left]
  rfl

/-- TFI, PD and DCS sum to 0 (R62), as R84 takes them from the frame. -/
theorem infoFrame_dsum :
    dsum (((infoFrameBytes len l body dcs post).drop 5).take (len.toNat + 1)) = 0 := by
  obtain ⟨-, hl, -⟩ := infoFrame_wellFormed h
  simp only [Instr.wellFormed, Bool.and_eq_true, dsumOk, beq_iff_eq] at h
  obtain ⟨⟨-, hsum⟩, -⟩ := h
  have hbytes : (body ++ [dcs, post]).take (len.toNat + 1) = body ++ [dcs] := by
    rw [← hl, List.take_length_add_append]
    rfl
  exact (congrArg dsum hbytes).trans hsum

end

/-- DECODE of a well-formed information frame gives its fields and its payload (R85). -/
theorem decoded_infoFrame {len l tfi dcs post : Byte} {pd : List Byte}
    (h : (Instr.infoFrame len l (tfi :: pd) dcs post).wellFormed = true) :
    decoded none (infoFrameBytes len l (tfi :: pd) dcs post) =
      { sent := .other, err := none, trunc := false, pLen := len - 1
        frameInfo := frameInfoWord len l tfi dcs, payload := pd } := by
  obtain ⟨h0, hl, hs⟩ := infoFrame_wellFormed h
  have hpay : ((infoFrameBytes len l (tfi :: pd) dcs post).drop 6).take (len.toNat - 1) = pd := by
    rw [← hl]
    exact List.take_left
  have hlen : (infoFrameBytes len l (tfi :: pd) dcs post).length = len.toNat + 7 := by
    rw [infoFrameBytes_length, hl]
  rw [decoded_whole (len := len) hlen rfl rfl hs h0]
  dsimp only
  rw [if_pos (infoFrame_dsum h), infoFrame_getD_dcs h, hpay]
  rfl

/-- DECODE of RXLEN written bytes (R77). -/
theorem execDecode_ok {u : State} {b : List Byte} (hn : u.rxLen.toNat ≤ 262)
    (hb : u.mem.readBytes? rxBase u.rxLen.toNat = some b) :
    execDecode u = .next ((u.accept.afterDecode (decoded none b)).close (decoded none b).err) :=
  (State.decodeBody_eq (s := u.accept) none hn hb _).trans (State.endCodec_eq _ _)

/-! ### The decode of ENCODE's frame -/

section
variable {n : Byte} {pd : List Byte} (hl : pd.length = n.toNat)
include hl

/-- ENCODE's frame is an information frame from host to chip (R57, R60). -/
theorem hostFrame_eq_infoFrameBytes :
    hostFrame pd = infoFrameBytes (n + 1) (lcs (n + 1)) (Config.tfiH2c :: pd)
      (dcsOf Config.tfiH2c pd) Config.postamble := by
  rw [← ofNat_length_succ hl]
  rfl

/-- ENCODE's frame is well formed (R73 (a) to (d)); (b) and (c) are what R59 and R62 make LCS and DCS. -/
theorem wellFormed_hostFrame (hn : n.toNat ≤ 63) :
    (Instr.infoFrame (n + 1) (lcs (n + 1)) (Config.tfiH2c :: pd) (dcsOf Config.tfiH2c pd)
      Config.postamble).wellFormed = true := by
  have hn1 : (n + 1).toNat = n.toNat + 1 := by bv_omega
  have h0 : n + 1 ≠ 0 := by bv_omega
  have hlen : (Config.tfiH2c :: pd).length = (n + 1).toNat := by rw [List.length_cons, hl, hn1]
  obtain ⟨-, hlcs, -⟩ := lengthChecksum (n + 1)
  obtain ⟨-, hsum, -⟩ := dataChecksum Config.tfiH2c pd
  have hdcs := (hsum _).mpr rfl
  simp only [Instr.wellFormed, lcsOk, dsumOk, hlen, hlcs, hdcs, bne_iff_ne.mpr h0, beq_self_eq_true,
    List.head?_cons, Bool.true_or, Bool.and_self]

end

/-- DECODE of ENCODE's frame completes with what ENCODE was given (R73). -/
theorem execDecode_hostFrame {u : State} {n : Byte} {pd : List Byte} (hl : pd.length = n.toNat)
    (hn : n.toNat ≤ 63) (hr : u.rxLen.toNat = n.toNat + 8)
    (hb : u.mem.readBytes? rxBase (n.toNat + 8) = some (hostFrame pd)) :
    ∃ v, execDecode u = .next v ∧ Completed v none
      ∧ v.frameInfo = frameInfoWord (n + 1) (lcs (n + 1)) Config.tfiH2c (dcsOf Config.tfiH2c pd)
      ∧ v.pLen = n ∧ v.mem.readBytes? payBase n.toNat = some pd := by
  have hd := decoded_infoFrame (wellFormed_hostFrame hl hn)
  rw [← hostFrame_eq_infoFrameBytes hl] at hd
  have hx := execDecode_ok (u := u) (by omega) (hr ▸ hb)
  rw [hd] at hx
  exact ⟨_, hx, ⟨rfl, rfl, rfl, rfl, rfl⟩, rfl, BitVec.add_sub_cancel n 1,
    hl ▸ Memory.readBytes?_writeBytes _ payBase pd⟩

/-- Settles O12: ENCODE's frame is a well-formed information frame, and `execDecode_hostFrame` decodes
it. -/
theorem encodedFrameDecodes : Obligations.EncodedFrameDecodes := by
  intro s pd hn hp
  have hl : pd.length = s.txLen.toNat := Memory.length_of_readBytes? hp
  have hw := wellFormed_hostFrame hl hn
  obtain ⟨-, -, hlcs⟩ := infoFrame_wellFormed hw
  have hlen : (s.txLen + 1).toNat = s.txLen.toNat + 1 := by bv_omega
  have hbytes := readBytes?_putFrame pd s.accept
  rw [hl, hostFrame_eq_infoFrameBytes hl] at hbytes
  have hpost := infoFrame_getD_post hw 0xFF
  have hsum := infoFrame_dsum hw
  rw [hlen] at hpost hsum
  refine ⟨_, _, execEncode_ok hn hp, hbytes, rfl, hpost, hlcs, hsum, hlen, sentinelClass_infoFrame hw,
    fun u hr hb => ?_⟩
  rw [← hostFrame_eq_infoFrameBytes hl] at hb
  obtain ⟨v, hx, hc, hinfo, hplen, hpay⟩ := execDecode_hostFrame hl hn hr hb
  refine ⟨v, hx, hc, ?_, ?_, hplen, hpay⟩
  · rw [hinfo, frameInfoWord_len, hlen]
  · rw [hinfo, frameInfoWord_dir]
    rfl

end Sys2Proof.Machine


/-! PROOFS. The frame decoder (41_frame_decode.md): what DECODE and DECODE_TRUNC complete with, the order
of their checks, and what they depend on. -/

namespace Sys2Proof.Machine

/-! ### The state a decode completes in -/

/-- DECODE and DECODE_TRUNC have completed with the decode `d`. -/
def State.completeDecode (s : State) (d : Decoded) : State := (s.accept.afterDecode d).close d.err

theorem completed_completeDecode (s : State) (d : Decoded) : Completed (s.completeDecode d) d.err :=
  ⟨rfl, rfl, rfl, rfl, rfl⟩

/-- The payload is in PAYBUF. -/
theorem readBytes?_completeDecode (s : State) (d : Decoded) :
    (s.completeDecode d).mem.readBytes? payBase d.payload.length = some d.payload :=
  Memory.readBytes?_writeBytes _ _ _

theorem sameCellsBut_completeDecode (s : State) (d : Decoded) :
    SameCellsBut payBase d.payload.length s (s.completeDecode d) := sameCellsBut_of_store rfl

theorem decodesTo_completeDecode (s : State) (d : Decoded) : DecodesTo s (s.completeDecode d) d :=
  ⟨completed_completeDecode s d, rfl, rfl, rfl, rfl, readBytes?_completeDecode s d,
    sameCellsBut_completeDecode s d⟩

/-! ### The two instructions -/

/-- `i` is DECODE or DECODE_TRUNC, and `cut` is where it cuts a payload (R77, R86). -/
def CutOf (s : State) (i : Instr) (cut : Option Byte) : Prop :=
  i = .decode ∧ cut = none ∨ i = .decodeTrunc ∧ cut = some s.maxLen

theorem cutOf_ite (s : State) (trunc : Bool) :
    CutOf s (if trunc then .decodeTrunc else .decode) (if trunc then some s.maxLen else none) := by
  cases trunc with
  | false => exact .inl ⟨rfl, rfl⟩
  | true => exact .inr ⟨rfl, rfl⟩

/-- States with one MAXLEN cut alike. -/
theorem exists_cutOf {i : Instr} (s : State) (hi : i = .decode ∨ i = .decodeTrunc) :
    ∃ cut, ∀ u : State, u.maxLen = s.maxLen → CutOf u i cut := by
  obtain rfl | rfl := hi
  · exact ⟨none, fun _ _ => .inl ⟨rfl, rfl⟩⟩
  · exact ⟨some s.maxLen, fun _ hu => .inr ⟨rfl, congrArg some hu.symm⟩⟩

section
variable {s : State} {i : Instr} {cut : Option Byte} (hi : CutOf s i cut)
include hi

theorem exec_decodeOp : exec i s = s.accept.decodeBody cut State.endCodec := by
  obtain ⟨rfl, rfl⟩ | ⟨rfl, rfl⟩ := hi <;> rfl

/-- Where RXLEN fits, the instruction completes with the decode of the string whose read cells are held. -/
theorem exec_decodeOp_reads {b : List Byte} (hn : s.rxLen.toNat ≤ 262) (hl : b.length = s.rxLen.toNat)
    (hb : RxHolds s b (decodeReads cut b)) :
    exec i s = .next (s.completeDecode (decoded cut b)) := by
  rw [exec_decodeOp hi, State.decodeBody_reads (s := s.accept) cut hn hl hb, State.endCodec_eq]
  rfl

/-- R90 (1). -/
theorem exec_decodeOp_long (hn : 262 < s.rxLen.toNat) :
    exec i s = .next (s.completeDecode (.empty .none (some .lengthRange))) := by
  rw [exec_decodeOp hi, State.decodeBody_long (s := s.accept) cut hn]
  rfl

end

/-- Settles O14: either way the instruction completes with one decode, and `State.completeDecode` writes
only that decode's outputs. -/
theorem decodeGivesDecoded : Obligations.DecodeGivesDecoded := by
  intro s i cut b d hi hd
  have next : exec i s = .next (s.completeDecode d) := by
    obtain ⟨hn, hl, hb, rfl⟩ | ⟨hn, rfl⟩ := hd
    · exact exec_decodeOp_reads hi hn hl hb
    · exact exec_decodeOp_long hi hn
  exact ⟨_, next, decodesTo_completeDecode s d, ⟨rfl, rfl, rfl, rfl, rfl⟩, ⟨rfl, rfl, rfl⟩,
    ⟨rfl, rfl, rfl, rfl, rfl, rfl, rfl, rfl, rfl, rfl, rfl⟩, rfl, rfl, rfl⟩

/-! ### The order of the checks (R90) -/

/-- One check of the order: a guard said in other words, and the error of either side. -/
theorem Decoded.err_ite {p q : Prop} [Decidable p] [Decidable q] {x y : Decoded} {e f : Option Err}
    (h : p ↔ q) (hx : x.err = e) (hy : y.err = f) :
    (if p then x else y).err = if q then e else f := by
  rw [apply_ite Decoded.err, hx, hy]
  exact if_congr h rfl rfl

/-- R90 from its point (2) on, on the whole string. -/
theorem decoded_err (trunc : Bool) (m : Byte) (b : List Byte) :
    (decoded (if trunc then some m else none) b).err =
      if b.take 6 = Config.ack ∨ b.take 6 = Config.nack then none
      else if b.length < 5 then some .incomplete
      else if b.take 3 ≠ Config.preamble then some .badPreamble
      else if b.getD 3 0 + b.getD 4 0 ≠ 0 then some .lcsMismatch
      else if (b.getD 3 0).toNat = 0 then some .badLength
      else if ((trunc = true ∧ m.toNat < (b.getD 3 0).toNat - 1) ∧ b.length < m.toNat + 6)
          ∨ (¬(trunc = true ∧ m.toNat < (b.getD 3 0).toNat - 1)
            ∧ b.length < (b.getD 3 0).toNat + 6) then some .incomplete
      else if ¬(trunc = true ∧ m.toNat < (b.getD 3 0).toNat - 1)
          ∧ dsum ((b.drop 5).take ((b.getD 3 0).toNat + 1)) ≠ 0 then some .dcsMismatch
      else none := by
  have sent := or_congr (sentinelClass_eq_ack (s := b)) (sentinelClass_eq_nack (s := b))
  have zero : b.getD 3 0 = 0 ↔ (b.getD 3 0).toNat = 0 := BitVec.toNat_eq
  refine Decoded.err_ite sent rfl <| Decoded.err_ite Iff.rfl rfl <| Decoded.err_ite Iff.rfl rfl <|
    Decoded.err_ite lcsOk_eq_false rfl <| Decoded.err_ite zero rfl ?_
  by_cases ht : trunc = true ∧ m.toNat < (b.getD 3 0).toNat - 1
  · obtain ⟨rfl, hm⟩ := ht
    simp only [if_true, if_neg (Nat.not_le.mpr hm), hm, and_self, not_true, false_and, or_false,
      true_and, if_false]
    exact Decoded.err_ite Iff.rfl rfl rfl
  · simp only [ht, false_and, not_false_eq_true, true_and, false_or]
    -- the last two checks, which DECODE and DECODE_TRUNC's full path share
    have full {x : Decoded} (hx : x.err = none) :=
      Decoded.err_ite (Iff.rfl (a := b.length < (b.getD 3 0).toNat + 6))
        (x := .empty (sentinelClass b) (some .incomplete)) rfl
        (Decoded.err_ite (dsumOk_eq_false (s := (b.drop 5).take ((b.getD 3 0).toNat + 1)))
          (x := .empty (sentinelClass b) (some .dcsMismatch)) rfl hx)
    cases trunc with
    | false => exact full rfl
    | true =>
      have hm : (b.getD 3 0).toNat - 1 ≤ m.toNat := Nat.not_lt.mp fun h => ht ⟨rfl, h⟩
      simp only [if_true, if_pos hm]
      exact full rfl

/-- Settles O15: R90 (1) is `exec_decodeOp_long`, the other points are `decoded_err`. -/
theorem decodeCheckOrder : Obligations.DecodeCheckOrder := by
  intro s trunc b i n len m truncated
  have hi := cutOf_ite s trunc
  refine ⟨fun hn => ⟨_, exec_decodeOp_long hi hn, completed_completeDecode _ _⟩, fun hn hl hb => ?_⟩
  have done := completed_completeDecode s (decoded (if trunc then some s.maxLen else none) b)
  rw [decoded_err, hl] at done
  exact ⟨_, exec_decodeOp_reads hi hn hl hb, done⟩

/-! ### Strings of which only the first bytes are written -/

/-- Bytes that are read from RXBUF, with any others behind them, are held. -/
theorem rxHolds_append {s : State} {p : List Byte} {k : Nat} (h : s.mem.readBytes? rxBase k = some p)
    (r : List Byte) : RxHolds s (p ++ r) k := by
  obtain ⟨hl, hr⟩ := (Memory.readBytes?_eq_some _ _ _ _).mp h
  intro j hj
  rw [List.getElem?_append_left (by omega)]
  exact hr j hj

/-- Bytes that are read from RXBUF are the first of a string of RXLEN bytes. -/
theorem exists_rxHolds {s : State} {p : List Byte} {k n : Nat}
    (h : s.mem.readBytes? rxBase k = some p) (hk : k ≤ n) :
    ∃ r, (p ++ r).length = n ∧ RxHolds s (p ++ r) k := by
  have hl := Memory.length_of_readBytes? h
  exact ⟨List.replicate (n - k) 0, by rw [List.length_append, List.length_replicate]; omega,
    rxHolds_append h _⟩

/-- A decode of a sentinel reads its six bytes only (R78). -/
theorem decodeReads_sentinel {cut : Option Byte} {b : List Byte} (h6 : 6 ≤ b.length)
    (hn : b.length ≤ 262) (hc : sentinelClass b = .ack ∨ sentinelClass b = .nack) :
    decodeReads cut b = 6 := by
  unfold decodeReads
  rw [if_neg (by omega), if_neg (by omega), if_pos]
  exact or_assoc.mp (.inl hc)

theorem decoded_sentinel {cut : Option Byte} {b : List Byte}
    (hc : sentinelClass b = .ack ∨ sentinelClass b = .nack) :
    decoded cut b = .empty (sentinelClass b) none := if_pos hc

/-- Settles O16: whatever stands behind the six bytes, the string is of their class. -/
theorem sentinelEndsDecode : Obligations.SentinelEndsDecode := by
  intro s i c hi h6 hn hc
  obtain ⟨p, hp, hpc, hcs⟩ : ∃ p, s.mem.readBytes? rxBase 6 = some p ∧ sentinelClass p = c
      ∧ (c = .ack ∨ c = .nack) := by
    obtain ⟨rfl, hp⟩ | ⟨rfl, hp⟩ := hc
    · exact ⟨_, hp, rfl, .inl rfl⟩
    · exact ⟨_, hp, rfl, .inr rfl⟩
  have hp6 := Memory.length_of_readBytes? hp
  obtain ⟨r, hl, hb⟩ := exists_rxHolds hp h6
  have hbc : sentinelClass (p ++ r) = c := by
    rw [← sentinelClass_take, List.take_append_of_le_length hp6.ge, sentinelClass_take, hpc]
  have hbs := hbc.symm ▸ hcs
  obtain ⟨cut, hcut⟩ := exists_cutOf s hi
  have next := exec_decodeOp_reads (hcut s rfl) hn hl
    ((decodeReads_sentinel (by omega) (by omega) hbs).symm ▸ hb)
  rw [decoded_sentinel hbs, hbc] at next
  exact ⟨_, next, completed_completeDecode _ _, rfl, rfl, rfl, rfl, rfl⟩

/-! ### The truncated path (R86) -/

/-- The decode of a valid header with more payload than MAXLEN, where the payload's first MAXLEN bytes are
there. -/
theorem decoded_truncated {m len : Byte} {b : List Byte} (hl : m.toNat + 6 ≤ b.length)
    (hm : m.toNat < len.toNat - 1) (h3 : b.take 3 = Config.preamble) (hlen : b.getD 3 0 = len)
    (hs : len + b.getD 4 0 = 0) (h0 : len ≠ 0) :
    decoded (some m) b =
      { sent := .other, err := none, trunc := true, pLen := m
        frameInfo := frameInfoWord len (b.getD 4 0) (b.getD 5 0) 0
        payload := (b.drop 6).take m.toNat } := by
  unfold decoded
  rw [hlen, sentinelClass_header hlen hs h0]
  dsimp only
  rw [if_neg (by decide), if_neg (show ¬b.length < 5 by omega), if_neg (not_not.mpr h3),
    if_neg fun h => lcsOk_eq_false.mp h hs, if_neg h0, if_neg (Nat.not_le.mpr hm),
    if_neg (Nat.not_lt.mpr hl)]

/-- On the truncated path no byte behind the last payload byte is read. -/
theorem decodeReads_truncated {m len : Byte} {b : List Byte} (hl : m.toNat + 6 ≤ b.length)
    (hn : b.length ≤ 262) (hm : m.toNat < len.toNat - 1) (h3 : b.take 3 = Config.preamble)
    (hlen : b.getD 3 0 = len) (hs : len + b.getD 4 0 = 0) (h0 : len ≠ 0) :
    decodeReads (some m) b = m.toNat + 6 := by
  subst hlen
  have needs : decodeNeeds (some m) (b.getD 3 0) = m.toNat + 6 := if_neg (Nat.not_le.mpr hm)
  rw [decodeReads_valid (by omega) hn (by rw [sentinelClass_header rfl hs h0]; decide) h3
    (beq_iff_eq.mpr hs) h0 (needs.trans_le hl), needs]

/-- Settles O17: the header and the payload as far as MAXLEN are all that the truncated path reads. -/
theorem truncationSkipsDataChecksum : Obligations.TruncationSkipsDataChecksum := by
  intro s len tfi pd hn hl hm hp
  have hpd : pd.length = s.maxLen.toNat :=
    Nat.add_right_cancel (m := 6) (Memory.length_of_readBytes? hp)
  have h0 : len ≠ 0 := by rintro rfl; exact absurd hm (Nat.not_lt_zero _)
  obtain ⟨-, hs, -⟩ := lengthChecksum len
  obtain ⟨r, hbl, hb⟩ := exists_rxHolds hp hl
  have reads := decodeReads_truncated (len := len) (hl.trans_eq hbl.symm) (hbl.trans_le hn) hm rfl rfl
    hs h0
  have next := exec_decodeOp_reads (.inr ⟨rfl, rfl⟩) hn hbl (reads.symm ▸ hb)
  have hpay : (([0x00, 0x00, 0xFF, len, 0 - len, tfi] ++ pd ++ r).drop 6).take s.maxLen.toNat = pd :=
    List.take_left' hpd
  rw [decoded_truncated (len := len) (hl.trans_eq hbl.symm) hm rfl rfl hs h0, hpay] at next
  refine ⟨_, next, completed_completeDecode _ _, rfl, rfl, rfl, ?_, ?_, rfl⟩
  · rw [← hpd]
    exact readBytes?_completeDecode s _
  · rw [← hpd]
    exact sameCellsBut_of_store rfl

/-! ### What a decode depends on (R91) -/

/-- Settles O18: `State.decodeBody_agree`, with the payload read back from PAYBUF. -/
theorem decodeReadsOnlyItsInputs : Obligations.DecodeReadsOnlyItsInputs := by
  intro s u i hi hn hm hcells
  obtain ⟨cut, hcut⟩ := exists_cutOf s hi
  rw [exec_decodeOp (hcut s rfl), exec_decodeOp (hcut u hm)]
  obtain ⟨d, hl, -, es, eu⟩ | ⟨es, eu⟩ := State.decodeBody_agree s.accept u.accept cut hn hcells
    State.endCodec State.endCodec
  · rw [es, eu, State.endCodec_eq, State.endCodec_eq]
    refine ⟨rfl, rfl, rfl, ?_⟩
    show (s.completeDecode d).mem.readBytes? payBase d.pLen.toNat
      = (u.completeDecode d).mem.readBytes? payBase d.pLen.toNat
    rw [← hl, readBytes?_completeDecode, readBytes?_completeDecode]
  · rw [es, eu]

end Sys2Proof.Machine


/-! PROOFS. The sentinels (42_sentinel.md): what CLASSIFY and CHECK_ACK complete with. -/

namespace Sys2Proof.Machine

/-! ### The state CLASSIFY and CHECK_ACK complete in -/

/-- CLASSIFY or CHECK_ACK has completed with the class `c` and the result `r`. -/
def State.completeSentinel (s : State) (c : Sent) (r : Option Err) : State :=
  (s.accept.setSent c).close r

theorem completed_completeSentinel (s : State) (c : Sent) (r : Option Err) :
    Completed (s.completeSentinel c r) r := ⟨rfl, rfl, rfl, rfl, rfl⟩

/-- Neither command writes anything but SENT and what completion writes (R93, R94). -/
theorem completeSentinel_frame (s : State) (c : Sent) (r : Option Err) :
    (s.completeSentinel c r).status.trunc = s.status.trunc ∧ (s.completeSentinel c r).mem = s.mem
      ∧ SameArgs s (s.completeSentinel c r) ∧ SameIrq s (s.completeSentinel c r)
      ∧ SameAgents s (s.completeSentinel c r) ∧ SameResults s (s.completeSentinel c r)
      ∧ (s.completeSentinel c r).rxLen = s.rxLen ∧ (s.completeSentinel c r).xstate = s.xstate :=
  ⟨rfl, rfl, ⟨rfl, rfl, rfl, rfl, rfl⟩, ⟨rfl, rfl, rfl⟩,
    ⟨rfl, rfl, rfl, rfl, rfl, rfl, rfl, rfl, rfl, rfl, rfl⟩, ⟨rfl, rfl, rfl⟩, rfl, rfl⟩

/-! ### The class of six bytes -/

theorem sentinelClass_of_length_six {b : List Byte} (h : b.length = 6) :
    sentinelClass b = if b = Config.ack then .ack else if b = Config.nack then .nack else .other := by
  rw [sentinelClass, List.take_of_length_le h.le]

/-- What CHECK_ACK raises on a string of each class (R94). -/
def ackErr : Sent → Option Err
  | .ack => none
  | .nack => some .nack
  | .other | .none => some .notAck

/-- Where the string's class is `d`, CHECK_ACK has completed with the result of `d`. -/
theorem completeSentinel_ackErr (s : State) {c d : Sent} (h : c = d) :
    Completed (s.completeSentinel c (ackErr c)) (ackErr d)
      ∧ (s.completeSentinel c (ackErr c)).status.sent = d := by
  subst h
  exact ⟨completed_completeSentinel _ _ _, rfl⟩

/-! ### The two instructions -/

section
variable {s : State} {b : List Byte}

theorem execClassify_long (hn : 262 < s.rxLen.toNat) :
    exec .classify s = .next (s.completeSentinel .none (some .lengthRange)) := if_pos hn

theorem execClassify_short (h6 : s.rxLen.toNat < 6) :
    exec .classify s = .next (s.completeSentinel .other none) :=
  (if_neg (show ¬262 < s.rxLen.toNat by omega)).trans (State.classifyRx_short (s := s.accept) h6 _)

theorem execClassify_six (h6 : 6 ≤ s.rxLen.toNat) (hn : s.rxLen.toNat ≤ 262)
    (hb : s.mem.readBytes? rxBase 6 = some b) :
    exec .classify s = .next (s.completeSentinel (sentinelClass b) none) :=
  (if_neg (Nat.not_lt.mpr hn)).trans (State.classifyRx_of_six (s := s.accept) h6 hb _)

theorem execCheckAck_long (hn : 262 < s.rxLen.toNat) :
    exec .checkAck s = .next (s.completeSentinel .none (some .lengthRange)) := if_pos hn

theorem execCheckAck_short (h6 : s.rxLen.toNat < 6) :
    exec .checkAck s = .next (s.completeSentinel .other (some .ackShort)) :=
  (if_neg (show ¬262 < s.rxLen.toNat by omega)).trans (if_pos h6)

theorem execCheckAck_six (h6 : 6 ≤ s.rxLen.toNat) (hn : s.rxLen.toNat ≤ 262)
    (hb : s.mem.readBytes? rxBase 6 = some b) :
    exec .checkAck s
      = .next (s.completeSentinel (sentinelClass b) (ackErr (sentinelClass b))) := by
  refine (if_neg (Nat.not_lt.mpr hn)).trans <| (if_neg (Nat.not_lt.mpr h6)).trans <|
    (State.classifyRx_of_six (s := s.accept) h6 hb _).trans ?_
  cases sentinelClass b <;> rfl

end

/-- Settles O20, by the range of RXLEN: too long, too short for a sentinel, or six bytes to compare. -/
theorem classifyReportsClass : Obligations.ClassifyReportsClass := by
  intro s b h
  refine ⟨rfl, ?_⟩
  by_cases hn : 262 < s.rxLen.toNat
  · simp only [if_pos hn]
    exact ⟨_, execClassify_long hn, completed_completeSentinel _ _ _, rfl,
      completeSentinel_frame _ _ _⟩
  by_cases h6 : s.rxLen.toNat < 6
  · simp only [if_neg hn, if_pos h6]
    exact ⟨_, execClassify_short h6, completed_completeSentinel _ _ _, rfl,
      completeSentinel_frame _ _ _⟩
  · have hb := h (Nat.not_lt.mp h6) (Nat.not_lt.mp hn)
    have hc := sentinelClass_of_length_six (Memory.length_of_readBytes? hb)
    simp only [if_neg hn, if_neg h6]
    exact ⟨_, execClassify_six (Nat.not_lt.mp h6) (Nat.not_lt.mp hn) hb,
      completed_completeSentinel _ _ _, hc, completeSentinel_frame _ _ _⟩

/-- Settles O21, by the same ranges of RXLEN; six bytes are those of ACK, of NACK or neither's. -/
theorem checkAckResults : Obligations.CheckAckResults := by
  intro s b h
  refine ⟨rfl, ?_⟩
  by_cases hn : 262 < s.rxLen.toNat
  · simp only [if_pos hn]
    exact ⟨_, execCheckAck_long hn, ⟨completed_completeSentinel _ _ _, rfl⟩,
      completeSentinel_frame _ _ _⟩
  by_cases h6 : s.rxLen.toNat < 6
  · simp only [if_neg hn, if_pos h6]
    exact ⟨_, execCheckAck_short h6, ⟨completed_completeSentinel _ _ _, rfl⟩,
      completeSentinel_frame _ _ _⟩
  · have hb := h (Nat.not_lt.mp h6) (Nat.not_lt.mp hn)
    have hc := sentinelClass_of_length_six (Memory.length_of_readBytes? hb)
    simp only [if_neg hn, if_neg h6]
    refine ⟨_, execCheckAck_six (Nat.not_lt.mp h6) (Nat.not_lt.mp hn) hb, ?_,
      completeSentinel_frame _ _ _⟩
    split_ifs with hack hnack
    · exact completeSentinel_ackErr s (hc.trans (if_pos hack))
    · exact completeSentinel_ackErr s (hc.trans ((if_neg hack).trans (if_pos hnack)))
    · exact completeSentinel_ackErr s (hc.trans ((if_neg hack).trans (if_neg hnack)))

end Sys2Proof.Machine


/-! PROOFS. The ready-waiter (43_ready_waiter.md): IRQ_ARM, the beginning of WAIT_READY, the observations
of the three strategies, and how a wait ends. -/

namespace Sys2Proof.Machine

/-! ### The event slot -/

/-- Settles O30: IRQ_ARM writes the slot's two bits and completes. -/
theorem irqArmClearsAndArms : Obligations.IrqArmClearsAndArms := fun _ =>
  ⟨_, rfl, completed_finish _, rfl, rfl, rfl, rfl, rfl, rfl, ⟨rfl, rfl, rfl, rfl, rfl⟩,
    ⟨rfl, rfl, rfl, rfl, rfl, rfl, rfl, rfl, rfl, rfl, rfl⟩, ⟨rfl, rfl, rfl⟩, rfl, rfl⟩

/-- PENDING at a change of `irq_n` (R112). -/
theorem pending_or_edge (prev v armed pending : Bool) :
    (pending || (prev && !v && armed))
      = if prev = true ∧ v = false ∧ armed = true then true else pending := by
  have edge : (prev && !v && armed) = true ↔ prev = true ∧ v = false ∧ armed = true := by
    simp [and_assoc]
  split_ifs with h
  · rw [edge.mpr h, Bool.or_true]
  · rw [Bool.eq_false_iff.mpr (mt edge.mp h), Bool.or_false]

/-- The edge capture where the level changes. -/
theorem irqChange_of_ne {v : Bool} {s : State} (h : v ≠ s.pin) :
    s.irqChange v = { s with
      pin := v
      pending := if s.prevIrq = true ∧ v = false ∧ s.armed = true then true else s.pending
      prevIrq := v } := by
  rw [State.irqChange, if_neg h, pending_or_edge]

/-- Settles O31: the environment's move is the edge capture. -/
theorem edgeCapture : Obligations.EdgeCapture := by
  intro s ts v ht hr hv
  rw [step_eq_move ht hr]
  exact congrArg Host.Outcome.next (irqChange_of_ne (s := { s with turns := ts }) hv)

/-! ### The beginning of WAIT_READY -/

section
variable {s : State}

/-- A configuration that R100 refuses ends WAIT_READY at once. -/
theorem execWaitReady_refused {e : Err}
    (h : checkWaitConfig s.strategy s.transport s.armed = .error e) :
    exec .waitReady s = .next (s.accept.raise .other e) := by
  simp only [exec, execWaitReady, State.accept_strategy, State.accept_transport, State.accept_armed, h]

/-- A configuration that passes begins the wait of its strategy. -/
theorem execWaitReady_passed {kind : WaitKind}
    (h : checkWaitConfig s.strategy s.transport s.armed = .ok kind) :
    exec .waitReady s = .next (s.accept.beginWait .waitReady s.timeout kind) := by
  simp only [exec, execWaitReady, State.accept_strategy, State.accept_transport, State.accept_armed,
    State.accept_timeout, h]

end

/-- R100's three refusals, with the error of each. -/
theorem checkWaitConfig_refuses {st : Strategy} {tr : Transport} {armed : Bool}
    (h : st = .reserved ∨ st = .status ∧ tr = .uart ∨ st = .irq ∧ armed = false) :
    checkWaitConfig st tr armed = .error (if st = .irq then .irqNotArmed else .badStrategy) := by
  obtain rfl | ⟨rfl, rfl⟩ | ⟨rfl, rfl⟩ := h <;> rfl

/-- Every other configuration passes. -/
theorem checkWaitConfig_passes {st : Strategy} {tr : Transport} {armed : Bool}
    (h : ¬(st = .reserved ∨ st = .status ∧ tr = .uart ∨ st = .irq ∧ armed = false)) :
    ∃ kind, checkWaitConfig st tr armed = .ok kind := by
  cases hc : checkWaitConfig st tr armed with
  | ok kind => exact ⟨kind, rfl⟩
  | error e =>
    obtain ⟨hr | hs, -⟩ | ⟨hi, ha, -⟩ := checkWaitConfig_error.mp hc
    · exact absurd (.inl hr) h
    · exact absurd (.inr (.inl hs)) h
    · exact absurd (.inr (.inr ⟨hi, ha⟩)) h

/-- Settles O22, by whether R100 refuses the configuration. -/
theorem waitConfigurationChecked : Obligations.WaitConfigurationChecked := by
  intro s
  by_cases h : s.strategy = .reserved ∨ s.strategy = .status ∧ s.transport = .uart
      ∨ s.strategy = .irq ∧ s.armed = false
  · have hc := checkWaitConfig_refuses h
    rw [if_pos h]
    exact ⟨hc, _, execWaitReady_refused hc, completed_raise _ _ _, rfl, rfl, rfl,
      ⟨rfl, rfl, rfl, rfl, rfl⟩, ⟨rfl, rfl, rfl⟩,
      ⟨rfl, rfl, rfl, rfl, rfl, rfl, rfl, rfl, rfl, rfl, rfl⟩, ⟨rfl, rfl, rfl⟩, rfl, rfl⟩
  · obtain ⟨kind, hc⟩ := checkWaitConfig_passes h
    rw [if_neg h]
    obtain ⟨w, hw, -⟩ := beginWait_act .waitReady s.timeout kind s.accept
    exact ⟨⟨kind, hc⟩, _, w, execWaitReady_passed hc, hw⟩

/-- What the beginning of a wait leaves: all but WSTATE and where the operation stands. -/
structure BeginsOnly (s t : State) : Prop where
  status : t.status = s.status
  mem : t.mem = s.mem
  args : SameArgs s t
  irq : SameIrq s t
  agents : SameAgents s t
  results : SameResults s t
  rxLen : t.rxLen = s.rxLen
  xstate : t.xstate = s.xstate

theorem beginsOnly_beginWait (why : WaitFor) (tmo : Word) (kind : WaitKind) (s : State) :
    BeginsOnly s (s.beginWait why tmo kind) := by
  cases kind <;>
    exact ⟨rfl, rfl, ⟨rfl, rfl, rfl, rfl, rfl⟩, ⟨rfl, rfl, rfl⟩,
      ⟨rfl, rfl, rfl, rfl, rfl, rfl, rfl, rfl, rfl, rfl, rfl⟩, ⟨rfl, rfl, rfl⟩, rfl, rfl⟩

theorem waitBegun_beginWait (why : WaitFor) (tmo : Word) (kind : WaitKind) (s : State) :
    WaitBegun why tmo kind s.tick (s.beginWait why tmo kind) := by
  cases kind <;> exact ⟨rfl, rfl⟩

/-- Settles O23: the wait that begins is of the kind R100 answers, and the beginning changes nothing
else. -/
theorem waitReadyBegins : Obligations.WaitReadyBegins := by
  intro s h
  obtain ⟨kind, hc⟩ : ∃ kind, checkWaitConfig s.strategy s.transport s.armed = .ok kind := by
    obtain hs | ⟨hs, ha⟩ | ⟨hs, htr⟩ := h
    · exact ⟨.gpio, checkWaitConfig_ok.mpr (.inl ⟨hs, rfl⟩)⟩
    · exact ⟨.irq, checkWaitConfig_ok.mpr (.inr (.inl ⟨hs, ha, rfl⟩))⟩
    · exact ⟨.status, checkWaitConfig_ok.mpr (.inr (.inr ⟨hs, htr, rfl⟩))⟩
  have begun := waitBegun_beginWait .waitReady s.timeout kind s.accept
  obtain ⟨hst, hm, hargs, hirq, hag, hres, hrx, hx⟩ :=
    beginsOnly_beginWait .waitReady s.timeout kind s.accept
  refine ⟨_, execWaitReady_passed hc, by rw [hst]; rfl, by rw [hst]; rfl, ?_, ?_, ?_,
    by rw [hst]; rfl, by rw [hst]; rfl, by rw [hst]; rfl, hm, hargs, hirq, hag, hres, hrx, hx⟩
  all_goals
    intro hs
    have hkind := checkWaitConfig_ok.mp hc
    simp only [hs, reduceCtorEq, true_and, false_and, false_or, or_false] at hkind
  · obtain rfl := hkind
    exact begun
  · obtain ⟨-, rfl⟩ := hkind
    exact begun
  · obtain ⟨-, rfl⟩ := hkind
    exact begun

/-! ### Observations -/

/-- An observation made in `s`, of a wait that began at `start`, that reads the tick `now` and ends in
`t`: ready where the condition `ready` holds, else a timeout past a nonzero bound, else the wait goes on in
`u` (R101). -/
def Observed (why : WaitFor) (tmo start now : Word) (ready : Prop) (s u t : State) : Prop :=
  (ready → WaitReady why tmo t ∧ WaitKeeps why s t)
    ∧ (¬ready → tmo ≠ 0 → tmo ≤ now - start → WaitExpired t ∧ WaitErrorLeaves why s t)
    ∧ (¬ready → (tmo = 0 ∨ now - start < tmo) → t = u)

/-- The condition first, then expiry, which is an observation. -/
theorem observed_ite {why : WaitFor} {tmo start now : Word} {ready : Prop} [Decidable ready]
    {s v u : State} (hv : WaitKeeps why s (v.endWait why tmo)) :
    Observed why tmo start now ready s u
      (if ready then v.endWait why tmo
        else if expired tmo start now then s.expireWait why else u) := by
  refine ⟨fun h => ?_, fun h h0 hle => ?_, fun h hgo => ?_⟩
  · rw [if_pos h]
    exact ⟨waitReady_endWait why tmo v, hv⟩
  · rw [if_neg h, if_pos (expired_eq_true.mpr ⟨h0, hle⟩)]
    exact waitExpired_expireWait why s
  · rw [if_neg h, expired_eq_false.mpr hgo, if_neg Bool.false_ne_true]

theorem gpioSample_observed (why : WaitFor) (tmo start : Word) (s : State) :
    Observed why tmo start s.tick (s.pin = false) s
      { s with wstate := .poll, act := .waiting why tmo (.poll start s.tick) }
      (s.gpioSample why tmo start) :=
  observed_ite (waitKeeps_endWait why tmo s)

theorem irqObserve_observed (why : WaitFor) (tmo start : Word) (s : State) :
    Observed why tmo start s.tick (s.pending = true) s s (s.irqObserve why tmo start) :=
  observed_ite (waitKeeps_endWait why tmo { s with pending := false })

theorem statusObserve_observed (why : WaitFor) (tmo start asked : Word) (r : StatusResult) (s : State) :
    Observed why tmo start asked (r = .ok 0x01) s
      { s with act := .waiting why tmo (.statusDue start (some asked)) }
      (s.statusObserve why tmo start asked r) :=
  observed_ite (ready := r = .ok Config.i2cReady) (waitKeeps_endWait why tmo s)

/-- What no observation changes: everything outside the block, the buffers, the controller's registers
and IRQSTAT. -/
def ObservationKeeps (s t : State) : Prop :=
  SameAgents s t ∧ t.mem = s.mem ∧ SameArgs s t ∧ SameIrq s t

theorem observationKeeps_endWait (why : WaitFor) (tmo : Word) (s : State) :
    ObservationKeeps s (s.endWait why tmo) := by
  cases why <;>
    exact ⟨⟨rfl, rfl, rfl, rfl, rfl, rfl, rfl, rfl, rfl, rfl, rfl⟩, rfl, ⟨rfl, rfl, rfl, rfl, rfl⟩,
      ⟨rfl, rfl, rfl⟩⟩

theorem observationKeeps_expireWait (why : WaitFor) (s : State) :
    ObservationKeeps s (s.expireWait why) := by
  cases why <;>
    exact ⟨⟨rfl, rfl, rfl, rfl, rfl, rfl, rfl, rfl, rfl, rfl, rfl⟩, rfl, ⟨rfl, rfl, rfl, rfl, rfl⟩,
      ⟨rfl, rfl, rfl⟩⟩

theorem observationKeeps_goOn (a : Activity) (w : WState) (s : State) :
    ObservationKeeps s { s with wstate := w, act := a } :=
  ⟨⟨rfl, rfl, rfl, rfl, rfl, rfl, rfl, rfl, rfl, rfl, rfl⟩, rfl, ⟨rfl, rfl, rfl, rfl, rfl⟩,
    ⟨rfl, rfl, rfl⟩⟩

theorem observationKeeps_gpioSample (why : WaitFor) (tmo start : Word) (s : State) :
    ObservationKeeps s (s.gpioSample why tmo start) := by
  unfold State.gpioSample
  split_ifs
  · exact observationKeeps_endWait why tmo s
  · exact observationKeeps_expireWait why s
  · exact observationKeeps_goOn _ _ s

/-- After an IRQ observation the slot is empty: it was, or the event is consumed (R106). -/
theorem observationKeeps_irqObserve (why : WaitFor) (tmo start : Word) (s : State) :
    ObservationKeeps { s with pending := false } (s.irqObserve why tmo start) := by
  unfold State.irqObserve
  split_ifs with hp
  · exact observationKeeps_endWait why tmo { s with pending := false }
  all_goals rw [show { s with pending := false } = s by rw [← Bool.eq_false_iff.mpr hp]]
  · exact observationKeeps_expireWait why s
  · exact observationKeeps_goOn s.act s.wstate s

theorem observationKeeps_statusObserve (why : WaitFor) (tmo start asked : Word) (r : StatusResult)
    (s : State) : ObservationKeeps s (s.statusObserve why tmo start asked r) := by
  unfold State.statusObserve
  split_ifs
  · exact observationKeeps_endWait why tmo s
  · exact observationKeeps_expireWait why s
  · exact observationKeeps_goOn _ s.wstate s

/-! ### The block's turn and the transport's answer in a wait -/

section
variable {s : State} {ts : List Turn} {why : WaitFor} {tmo start : Word}

theorem step_waitStep {w : Wait} (ht : s.turns = .block :: ts) (hr : s.rst = false)
    (ha : s.act = .waiting why tmo w) :
    step s = .next (State.waitStep why tmo w { s with turns := ts }) := by
  rw [step_eq_move ht hr]
  simp only [State.move, State.blockMove, ha]

theorem statusAnswer_of_call {asked : Word} (r : StatusResult)
    (ha : s.act = .waiting why tmo (.statusCall start asked)) :
    s.statusAnswer r = s.statusObserve why tmo start asked r := by
  simp only [State.statusAnswer, ha]

theorem step_statusByte {asked : Word} {r : StatusResult}
    (ht : s.turns = .env (.statusByte r) :: ts) (hr : s.rst = false)
    (ha : s.act = .waiting why tmo (.statusCall start asked)) :
    step s = .next (State.statusObserve why tmo start asked r { s with turns := ts }) := by
  rw [step_eq_move ht hr]
  exact congrArg Host.Outcome.next (statusAnswer_of_call (s := { s with turns := ts }) r ha)

theorem waitStep_statusDue (why : WaitFor) (tmo start last : Word) (s : State) :
    s.waitStep why tmo (.statusDue start (some last))
      = if elapsed Config.statusPollMs last s.tick then
          { s with act := .waiting why tmo (.statusCall start s.tick) }
        else s := rfl

theorem elapsed_eq_true {ms since now : Word} : elapsed ms since now = true ↔ ms ≤ now - since :=
  decide_eq_true_iff

theorem elapsed_eq_false {ms since now : Word} : elapsed ms since now = false ↔ now - since < ms := by
  rw [elapsed, decide_eq_false_iff_not, BitVec.not_le]

/-- The block's turn in a GPIO wait samples once the settle delay, or the time between two samples, has
passed (R103, R104). -/
theorem step_gpioWait {since ms : Word} (ht : s.turns = .block :: ts) (hr : s.rst = false)
    (ha : s.act = .waiting why tmo (.settle start) ∧ since = start ∧ ms = Config.settleMs
      ∨ s.act = .waiting why tmo (.poll start since) ∧ ms = 10) :
    step s = .next (if elapsed ms since s.tick
      then State.gpioSample why tmo start { s with turns := ts } else { s with turns := ts }) := by
  obtain ⟨ha, rfl, rfl⟩ | ⟨ha, rfl⟩ := ha <;> exact step_waitStep ht hr ha

end

/-- Settles O25: a turn before the time is up changes nothing, and one after it is a sample. -/
theorem gpioObservation : Obligations.GpioObservation := by
  intro s ts why tmo start since ms ht hr ha
  rw [step_gpioWait ht hr ha]
  refine ⟨fun hlt => by rw [elapsed_eq_false.mpr hlt, if_neg Bool.false_ne_true], fun hle => ?_⟩
  rw [if_pos (elapsed_eq_true.mpr hle)]
  obtain ⟨hag, hm, hargs, hirq⟩ := observationKeeps_gpioSample why tmo start { s with turns := ts }
  obtain ⟨hready, hexp, hgo⟩ := gpioSample_observed why tmo start { s with turns := ts }
  exact ⟨_, rfl, hag, hm, hargs, hirq, hready, fun hp => hexp (ne_false_of_eq_true hp),
    fun hp => hgo (ne_false_of_eq_true hp)⟩

/-- Settles O26: the block's turn is one observation of the slot. -/
theorem irqObservation : Obligations.IrqObservation := by
  intro s ts why tmo start ht hr ha
  obtain ⟨hag, hm, hargs, harm, hpend, hprev⟩ :=
    observationKeeps_irqObserve why tmo start { s with turns := ts }
  obtain ⟨hready, hexp, hgo⟩ := irqObserve_observed why tmo start { s with turns := ts }
  exact ⟨_, step_waitStep ht hr ha, hag, hm, hargs, harm, hprev, hpend, hready,
    fun hp => hexp (ne_true_of_eq_false hp), fun hp => hgo (ne_true_of_eq_false hp)⟩

/-- Settles O27: the block asks once the poll interval has passed, and the answer is one observation. -/
theorem statusObservation : Obligations.StatusObservation := by
  refine ⟨fun s ts why tmo start last ht hr ha => ?_, fun s ts why tmo start asked r ht hr ha => ?_⟩
  · rw [step_waitStep ht hr ha]
    refine ⟨?_, ?_⟩
    · rintro ⟨l, rfl, hlt⟩
      rw [waitStep_statusDue, elapsed_eq_false.mpr hlt, if_neg Bool.false_ne_true]
    · rintro (rfl | ⟨l, rfl, hle⟩)
      · exact ⟨_, rfl, rfl, rfl⟩
      · rw [waitStep_statusDue, elapsed_eq_true.mpr hle, if_pos rfl]
        exact ⟨_, rfl, rfl, rfl⟩
  · obtain ⟨hag, hm, hargs, hirq⟩ :=
      observationKeeps_statusObserve why tmo start asked r { s with turns := ts }
    exact ⟨_, step_statusByte ht hr ha, hag, hm, hargs, hirq,
      statusObserve_observed why tmo start asked r { s with turns := ts }⟩

/-! ### A whole WAIT_READY -/

section
variable {s : State} {ts : List Turn}

/-- The controller's write of WAIT_READY's word begins the wait. -/
theorem step_waitReady {as : List Access} {kind : WaitKind} (ht : s.turns = .controller :: ts)
    (hr : s.rst = false) (hh : s.held = none) (hy : s.status.busy = false)
    (hb : s.bus = .write 0x000 0x10 :: as)
    (hc : checkWaitConfig s.strategy s.transport s.armed = .ok kind) :
    step s = .next (State.beginWait .waitReady s.timeout kind
      (State.accept { s with turns := ts, bus := as, resp := some .written })) :=
  (step_command ht hr hh hy hb rfl).trans
    (execWaitReady_passed (s := { s with turns := ts, bus := as, resp := some .written }) hc)

theorem step_tick {d : Word} (ht : s.turns = .env (.tick d) :: ts) (hr : s.rst = false) :
    step s = .next { s with turns := ts, tick := s.tick + d } :=
  step_eq_move ht hr

/-- A low pin sampled behind the settle delay ends the wait in ready. -/
theorem step_settle_ready {why : WaitFor} {tmo start : Word} (ht : s.turns = .block :: ts)
    (hr : s.rst = false) (ha : s.act = .waiting why tmo (.settle start)) (hp : s.pin = false)
    (hd : Config.settleMs ≤ s.tick - start) :
    step s = .next (State.endWait why tmo { s with turns := ts }) := by
  rw [step_gpioWait ht hr (.inl ⟨ha, rfl, rfl⟩), elapsed_eq_true.mpr hd, if_pos rfl]
  exact congrArg Host.Outcome.next (if_pos hp)

/-- A pending event ends an IRQ wait in ready and is consumed (R106). -/
theorem step_block_ready {why : WaitFor} {tmo start : Word} (ht : s.turns = .block :: ts)
    (hr : s.rst = false) (ha : s.act = .waiting why tmo (.block start)) (hp : s.pending = true) :
    step s = .next (State.endWait why tmo { s with turns := ts, pending := false }) :=
  (step_waitStep ht hr ha).trans (congrArg Host.Outcome.next (if_pos hp))

/-- The byte 0x01 ends a status wait in ready. -/
theorem step_status_ready {why : WaitFor} {tmo start asked : Word}
    (ht : s.turns = .env (.statusByte (.ok 0x01)) :: ts) (hr : s.rst = false)
    (ha : s.act = .waiting why tmo (.statusCall start asked)) :
    step s = .next (State.endWait why tmo { s with turns := ts }) :=
  (step_statusByte ht hr ha).trans (congrArg Host.Outcome.next (if_pos rfl))

end

/-- Settles O24, step by step under each strategy; the last step is the end of the wait in ready. -/
theorem waitReadyRunsToReady : Obligations.WaitReadyRunsToReady := by
  intro s d ts as n hr hh hy hb h
  obtain ⟨hs, hp, hd, rfl, ht⟩ | ⟨hs, harm, hpend, rfl, ht⟩ | ⟨hs, htr, rfl, ht⟩ := h
  · have begins := step_waitReady ht hr hh hy hb (checkWaitConfig_ok.mpr (.inl ⟨hs, rfl⟩))
    have hpass : Config.settleMs ≤ s.tick + d - s.tick := by rwa [add_sub_cancel_left]
    have ends := (run_succ begins).trans
      (run_two (step_tick rfl hr) (step_settle_ready rfl hr rfl hp hpass))
    refine ⟨_, ends, completed_finish _, rfl, ⟨rfl, rfl, rfl, rfl, rfl⟩,
      ⟨rfl, rfl, rfl⟩, rfl, rfl, rfl, ?_, rfl, rfl⟩
    exact (if_neg (by rw [hs]; nofun)).symm
  · have begins := step_waitReady ht hr hh hy hb (checkWaitConfig_ok.mpr (.inr (.inl ⟨hs, harm, rfl⟩)))
    refine ⟨_, run_two begins (step_block_ready rfl hr rfl hpend), completed_finish _, rfl,
      ⟨rfl, rfl, rfl, rfl, rfl⟩, ⟨rfl, rfl, rfl⟩, rfl, rfl, rfl, ?_, rfl, rfl⟩
    exact (if_pos hs).symm
  · have begins := step_waitReady ht hr hh hy hb (checkWaitConfig_ok.mpr (.inr (.inr ⟨hs, htr, rfl⟩)))
    have ends := (run_succ begins).trans
      (run_two (step_waitStep rfl hr rfl) (step_status_ready rfl hr rfl))
    refine ⟨_, ends, completed_finish _, rfl, ⟨rfl, rfl, rfl, rfl, rfl⟩,
      ⟨rfl, rfl, rfl⟩, rfl, rfl, rfl, ?_, rfl, rfl⟩
    exact (if_neg (by rw [hs]; nofun)).symm

/-! ### How a wait ends -/

section
variable {s t : State} {why : WaitFor} {tmo : Word} {w : Wait}

theorem not_waitReady_of_waiting (h : ∃ w, t.act = .waiting why tmo w) : ¬WaitReady why tmo t := by
  obtain ⟨w, h⟩ := h
  rintro ⟨-, hr⟩
  cases why with
  | waitReady =>
    obtain ⟨-, -, -, -, hi⟩ := hr
    cases hi.symm.trans h
  | send => cases hr.symm.trans h
  | read tr => cases hr.symm.trans h

theorem not_waitReady_of_expired (h : WaitExpired t) : ¬WaitReady why tmo t := by
  obtain ⟨-, -, he, -, hi⟩ := h
  rintro ⟨-, hr⟩
  cases why with
  | waitReady =>
    obtain ⟨-, -, he', -⟩ := hr
    cases he.symm.trans he'
  | send => cases hi.symm.trans hr
  | read tr => cases hi.symm.trans hr

/-- An observation that ends in ready is one where its condition holds (R109). -/
theorem Observed.ready {start now : Word} {c : Prop} {u : State} (h : Observed why tmo start now c s u t)
    (hu : ∃ w, u.act = .waiting why tmo w) (ht : WaitReady why tmo t) : c := by
  obtain ⟨-, hexp, hgo⟩ := h
  by_contra hc
  cases he : expired tmo start now with
  | true =>
    obtain ⟨h0, hle⟩ := expired_eq_true.mp he
    obtain ⟨hx, -⟩ := hexp hc h0 hle
    exact not_waitReady_of_expired hx ht
  | false =>
    rw [hgo hc (expired_eq_false.mp he)] at ht
    exact not_waitReady_of_waiting hu ht

/-- A step in a wait: it goes on with STATUS as before, or it has ended in ready, or a nonzero bound has
expired. -/
theorem wait_outcome (ha : s.act = .waiting why tmo w) (hb : s.status.busy = true)
    (h : step s = .next t) (hr : s.rst = false) (hr' : t.rst = false) :
    ((∃ w', t.act = .waiting why tmo w') ∧ t.status = s.status)
      ∨ WaitReady why tmo t ∨ (tmo ≠ 0 ∧ WaitExpired t) := by
  have running : s.status.busy ≠ false := ne_false_of_eq_true hb
  cases step_does h hr hr' with
  | op m =>
    cases m.step with
    | stays hact hst => exact .inl ⟨⟨w, hact.trans ha⟩, hst⟩
    | waits _ _ _ w' hs hact hst => cases ha.symm.trans hs; exact .inl ⟨⟨w', hact⟩, hst⟩
    | ready _ _ _ hs hready => cases ha.symm.trans hs; exact .inr (.inl hready)
    | expires _ _ _ hs h0 hexp => cases ha.symm.trans hs; exact .inr (.inr ⟨h0, hexp⟩)
    | fails _ _ _ _ hw => exact absurd ha (hw why tmo w)
    | sent _ _ _ hs | begins _ _ _ hs | acked _ hs | header _ _ _ _ hs | decoded _ _ _ hs
    | checked hs => cases ha.symm.trans hs
  | edge ts v _ ht =>
    obtain ⟨hact, hst⟩ : t.act = s.act ∧ t.status = s.status := by
      rw [ht, State.irqChange]
      split_ifs <;> exact ⟨rfl, rfl⟩
    exact .inl ⟨⟨w, hact.trans ha⟩, hst⟩
  | idle m => exact .inl ⟨⟨w, m.act.trans ha⟩, m.status⟩
  | port hb' | command hb' | illegal hb' => exact absurd hb' running

/-- Only the block's turn and the transport's answer to `StatusRead` move a wait; every other agent leaves
the operation where it stands. -/
theorem move_of_waiting {x : Turn} (ha : s.act = .waiting why tmo w) (hb : s.status.busy = true)
    (hr : s.rst = false) (hr' : t.rst = false) (h : s.move x = .next t) :
    t.act = s.act ∨ x = .block ∨ ∃ r, x = .env (.statusByte r) := by
  have hd : s.act.rxDemand = none := by rw [ha]; rfl
  cases x with
  | block => exact .inr (.inl rfl)
  | controller =>
    left
    simp only [State.move, State.controllerMove, hb, if_true] at h
    split at h
    · cases h; rfl
    · split at h <;> (cases h; rfl)
  | peer =>
    obtain ⟨p, f, e⟩ := peerMove_eq s
    cases (e.trans (receive_of_none f hd)).symm.trans h
    exact .inl rfl
  | env m =>
    cases m with
    | statusByte r => exact .inr (.inr ⟨r, rfl⟩)
    | tick d => cases h; exact .inl rfl
    | irq v =>
      cases h
      left
      rw [State.irqChange]
      split_ifs <;> rfl
    | rst v =>
      have hv : v = s.rst := by
        by_contra hne
        simp only [State.move, State.envMove, if_neg hne] at h
        cases h
        exact hne (hr'.trans hr.symm)
      simp only [State.move, State.envMove, if_pos hv] at h
      cases h
      exact .inl rfl
    | tx r =>
      simp only [State.move, State.envMove, State.txAnswer, ha] at h
      cases h
      exact .inl rfl
    | rx r =>
      simp only [State.move, State.envMove, State.rxAnswer, hd] at h
      cases h
      exact .inl rfl
    | rxWire =>
      cases (deliver_of_none hd).symm.trans h
      exact .inl rfl

/-- A turn in a GPIO wait that ends it in ready is a sample that found the pin low. -/
theorem gpioWait_ready {ms since start : Word} (ha : s.act = .waiting why tmo w)
    (h : WaitReady why tmo
      (if elapsed ms since s.tick then s.gpioSample why tmo start else s)) : s.pin = false := by
  split_ifs at h
  · exact (gpioSample_observed why tmo start s).ready ⟨_, rfl⟩ h
  · exact absurd h (not_waitReady_of_waiting ⟨w, ha⟩)

/-- The block's turn ends a wait in ready only at a GPIO observation with the pin low, or at an IRQ
observation with the slot full. -/
theorem waitStep_ready (ha : s.act = .waiting why tmo w) (h : WaitReady why tmo (s.waitStep why tmo w)) :
    s.pin = false ∧ ((∃ start, w = .settle start) ∨ ∃ start last, w = .poll start last)
      ∨ s.pending = true ∧ ∃ start, w = .block start := by
  have stays : ¬WaitReady why tmo s := not_waitReady_of_waiting ⟨w, ha⟩
  cases w with
  | settle start => exact .inl ⟨gpioWait_ready ha h, .inl ⟨start, rfl⟩⟩
  | poll start last => exact .inl ⟨gpioWait_ready ha h, .inr ⟨start, last, rfl⟩⟩
  | block start => exact .inr ⟨(irqObserve_observed why tmo start s).ready ⟨_, ha⟩ h, start, rfl⟩
  | statusDue start last =>
    cases last with
    | none => exact absurd h (not_waitReady_of_waiting ⟨_, rfl⟩)
    | some last =>
      rw [waitStep_statusDue] at h
      split_ifs at h
      · exact absurd h (not_waitReady_of_waiting ⟨_, rfl⟩)
      · exact absurd h stays
  | statusCall start asked => exact absurd h stays

/-- A `StatusRead`'s answer ends a wait in ready only where the byte is 0x01. -/
theorem statusAnswer_ready {r : StatusResult} (ha : s.act = .waiting why tmo w)
    (h : WaitReady why tmo (s.statusAnswer r)) :
    r = .ok 0x01 ∧ ∃ start asked, w = .statusCall start asked := by
  have stays : ¬WaitReady why tmo s := not_waitReady_of_waiting ⟨w, ha⟩
  cases w with
  | statusCall start asked =>
    rw [statusAnswer_of_call r ha] at h
    exact ⟨(statusObserve_observed why tmo start asked r s).ready ⟨_, rfl⟩ h, start, asked, rfl⟩
  | settle | poll | block | statusDue =>
    simp only [State.statusAnswer, ha] at h
    exact absurd h stays

/-- A step that ends a wait in ready is the block's turn or the answer to `StatusRead`. -/
theorem step_ready (ha : s.act = .waiting why tmo w) (hb : s.status.busy = true)
    (h : step s = .next t) (hr : s.rst = false) (hr' : t.rst = false) (hready : WaitReady why tmo t) :
    (∃ ts, s.turns = .block :: ts
        ∧ WaitReady why tmo (State.waitStep why tmo w { s with turns := ts }))
      ∨ ∃ ts r, s.turns = .env (.statusByte r) :: ts
        ∧ WaitReady why tmo (State.statusAnswer r { s with turns := ts }) := by
  have moved : t.act ≠ s.act := fun e => not_waitReady_of_waiting ⟨w, e.trans ha⟩ hready
  cases hts : s.turns with
  | nil =>
    cases (step_of_no_turn hts).symm.trans h
    exact absurd rfl moved
  | cons x ts =>
    have hm := (step_eq_move hts hr).symm.trans h
    obtain hact | rfl | ⟨r, rfl⟩ := move_of_waiting (s := { s with turns := ts }) ha hb hr hr' hm
    · exact absurd hact moved
    · cases (step_waitStep hts hr ha).symm.trans h
      exact .inl ⟨ts, rfl, hready⟩
    · cases hm
      exact .inr ⟨ts, r, rfl, hready⟩

/-- While a wait runs BUSY = 1 (R16). -/
theorem busy_of_waiting (hi : s.inv = true) (ha : s.act = .waiting why tmo w) :
    s.status.busy = true := by
  simp only [State.inv, State.sequenced, ha, Bool.and_eq_true] at hi
  obtain ⟨⟨⟨-, ⟨⟨hb, -⟩, -⟩, -⟩, -⟩, -⟩ := hi
  exact hb

end

/-- Settles O29: of the ends of a step in a wait, only the timeout needs a nonzero bound. -/
theorem zeroTimeoutNeverExpires : Obligations.ZeroTimeoutNeverExpires := by
  intro s t why w ha hb hr h hr'
  obtain ⟨hw, hst⟩ | hready | ⟨h0, -⟩ := wait_outcome ha hb h hr hr'
  · obtain ⟨w', hw⟩ := hw
    exact .inl ⟨w', hw, by rw [hst, hb]⟩
  · exact .inr hready
  · exact absurd rfl h0

/-- Settles O28: what a step in a wait can come to, and then whose turn ends one in ready. -/
theorem readyNeverSpurious : Obligations.ReadyNeverSpurious := by
  intro s t why tmo w ha hi hr h hr'
  have hb := busy_of_waiting hi ha
  refine ⟨?_, fun hready => ?_⟩
  · obtain ⟨hw, -⟩ | hready | ⟨-, hexp⟩ := wait_outcome ha hb h hr hr'
    · exact .inl hw
    · exact .inr (.inl hready)
    · exact .inr (.inr hexp)
  · obtain ⟨ts, hts, hw⟩ | ⟨ts, r, hts, hw⟩ := step_ready ha hb h hr hr' hready
    · obtain ⟨hp, ⟨_, rfl⟩ | ⟨_, _, rfl⟩⟩ | ⟨hp, _, rfl⟩ :=
        waitStep_ready (s := { s with turns := ts }) ha hw
      all_goals exact ⟨hp, ts, hts⟩
    · obtain ⟨rfl, _, _, rfl⟩ := statusAnswer_ready (s := { s with turns := ts }) ha hw
      exact ⟨ts, hts⟩

end Sys2Proof.Machine


/-! PROOFS. The machine's invariant: its four parts, each kept by every kind of step. -/

namespace Sys2Proof.Machine

/-! ### The parts of the invariant -/

theorem inv_iff {s : State} :
    s.inv = true ↔
      s.mem.wf = true ∧ s.sequenced = true ∧ s.headerHeld = true ∧ s.slotOk = true := by
  simp only [State.inv, Bool.and_eq_true, and_assoc]

/-- XSTATE and WSTATE as R26, R110 and R116 give them for where the running operation stands. -/
def Activity.Fits : Activity → XState → WState → Prop
  | .idle, x, w => (x = .idle ∨ x = .ackRead) ∧ w = .idle
  | .waiting why _ wt, x, w => why.fits x = true ∧ w = wt.wstate
  | .sendTx _ _ _, x, w => x = .idle ∧ w = .idle
  | .sendSent _ _, x, w => x = .commandSent ∧ w = .idle
  | .sendRx _, x, w => x = .awaitingReadyAck ∧ w = .idle
  | .readHead _ _, x, w => x = .awaitingReadyResponse ∧ w = .idle
  | .readRest _ _ _, x, w => x = .awaitingReadyResponse ∧ w = .idle
  | .readDir, x, w => x = .responseRead ∧ w = .idle

/-- The sequencer's registers agree: with no operation BUSY = 0, with one BUSY = 1 and DONE = 0 (R16,
R17), and XSTATE and WSTATE fit where it stands. -/
theorem sequenced_iff {s : State} :
    s.sequenced = true ↔
      (s.act = .idle → s.status.busy = false)
        ∧ (s.act ≠ .idle → s.status.busy = true ∧ s.status.done = false)
        ∧ s.act.Fits s.xstate s.wstate := by
  unfold State.sequenced
  cases h : s.act <;> simp [Activity.Fits, and_assoc]

theorem slotOk_iff {s : State} : s.slotOk = true ↔ (s.pending = true → s.armed = true) := by
  simp only [State.slotOk, Bool.or_eq_true, Bool.not_eq_true', Bool.eq_false_iff, imp_iff_not_or, ne_eq]

theorem act_idle_of_free {s : State} (h : s.sequenced = true) (hb : s.status.busy = false) :
    s.act = .idle := by
  obtain ⟨-, hrun, -⟩ := sequenced_iff.mp h
  by_contra hne
  obtain ⟨hb1, -⟩ := hrun hne
  cases hb.symm.trans hb1

/-- With BUSY = 0, XSTATE is Idle or AckRead and WSTATE is W_IDLE (R130). -/
theorem fits_of_free {s : State} (h : s.sequenced = true) (hb : s.status.busy = false) :
    (s.xstate = .idle ∨ s.xstate = .ackRead) ∧ s.wstate = .idle := by
  obtain ⟨-, -, hfit⟩ := sequenced_iff.mp h
  rwa [act_idle_of_free h hb] at hfit

theorem waitReady_fits {x : XState} :
    WaitFor.waitReady.fits x = true ↔ x = .idle ∨ x = .ackRead := by
  simp only [WaitFor.fits, Bool.or_eq_true, beq_iff_eq]

/-- WAIT_READY waits in Idle or AckRead (R116). -/
theorem xstate_of_waitReady {s : State} {tmo : Word} {w : Wait} (h : s.sequenced = true)
    (ha : s.act = .waiting .waitReady tmo w) : s.xstate = .idle ∨ s.xstate = .ackRead := by
  obtain ⟨-, -, hfit⟩ := sequenced_iff.mp h
  rw [ha] at hfit
  obtain ⟨hx, -⟩ := hfit
  exact waitReady_fits.mp hx

/-! ### BUSY, DONE, XSTATE and WSTATE -/

theorem sequenced_congr {s t : State} (h : s.sequenced = true) (ha : t.act = s.act)
    (hs : t.status = s.status) (hx : t.xstate = s.xstate) (hw : t.wstate = s.wstate) :
    t.sequenced = true := by
  rw [sequenced_iff] at h ⊢
  rwa [ha, hs, hx, hw]

theorem sequenced_of_completed {t : State} {r : Option Err} (h : Completed t r)
    (hx : t.xstate = .idle ∨ t.xstate = .ackRead) : t.sequenced = true := by
  obtain ⟨hb, -, -, hw, ha⟩ := h
  rw [sequenced_iff, ha]
  exact ⟨fun _ => hb, fun h => absurd rfl h, hx, hw⟩

theorem sequenced_of_running {t : State} {a : Activity} (ha : t.act = a) (hne : a ≠ .idle)
    (hb : t.status.busy = true) (hd : t.status.done = false) (hf : a.Fits t.xstate t.wstate) :
    t.sequenced = true := by
  subst ha
  exact sequenced_iff.mpr ⟨fun h => absurd h hne, fun _ => ⟨hb, hd⟩, hf⟩

/-- An operation that runs on, with STATUS's BUSY and DONE as before. -/
theorem sequenced_of_goesOn {s t : State} {a b : Activity} (h : s.sequenced = true) (ha : s.act = a)
    (hb : t.act = b) (hne : a ≠ .idle) (hne' : b ≠ .idle) (hbusy : t.status.busy = s.status.busy)
    (hdone : t.status.done = s.status.done)
    (hf : a.Fits s.xstate s.wstate → b.Fits t.xstate t.wstate) : t.sequenced = true := by
  subst ha
  obtain ⟨-, hrun, hfit⟩ := sequenced_iff.mp h
  obtain ⟨hb1, hd0⟩ := hrun hne
  exact sequenced_of_running hb hne' (hbusy.trans hb1) (hdone.trans hd0) (hf hfit)

/-- A running operation's step keeps the sequencer's registers in agreement. -/
theorem OpStep.keeps_sequenced {s t : State} (m : OpStep s t) (h : s.sequenced = true) :
    t.sequenced = true := by
  cases m with
  | stays ha hs hx hw => exact sequenced_congr h ha hs hx hw
  | waits why tmo w w' ha ha' hs hx hw =>
    exact sequenced_of_goesOn h ha ha' nofun nofun (by rw [hs]) (by rw [hs])
      fun ⟨hf, hw0⟩ => ⟨hx ▸ hf, hw hw0⟩
  | ready why tmo w ha hr hx hs =>
    obtain ⟨hw, hr⟩ := hr
    cases why with
    | waitReady => exact sequenced_of_completed hr (by rw [hx]; exact xstate_of_waitReady h ha)
    | send =>
      have hs := hs nofun
      exact sequenced_of_goesOn h ha hr nofun nofun (by rw [hs]) (by rw [hs])
        fun ⟨hf, _⟩ => ⟨hx.trans (beq_iff_eq.mp hf), hw⟩
    | read tr =>
      have hs := hs nofun
      exact sequenced_of_goesOn h ha hr nofun nofun (by rw [hs]) (by rw [hs])
        fun ⟨hf, _⟩ => ⟨hx.trans (beq_iff_eq.mp hf), hw⟩
  | expires why tmo w ha _ he hx =>
    refine sequenced_of_completed he ?_
    cases why with
    | waitReady => exact hx ▸ xstate_of_waitReady h ha
    | send | read => exact .inl hx
  | sent f tmo k ha ha' hs hx hw =>
    exact sequenced_of_goesOn h ha ha' nofun nofun (by rw [hs]) (by rw [hs])
      fun ⟨_, hw0⟩ => ⟨hx, hw.trans hw0⟩
  | begins tmo k w ha ha' hs hx hw =>
    exact sequenced_of_goesOn h ha ha' nofun nofun (by rw [hs]) (by rw [hs])
      fun _ => ⟨beq_iff_eq.mpr hx, hw⟩
  | acked _ _ hc hx => exact sequenced_of_completed hc (.inr hx)
  | header tmo tr len b ha ha' hs hx hw =>
    exact sequenced_of_goesOn h ha ha' nofun nofun (by rw [hs]) (by rw [hs])
      fun ⟨hx0, hw0⟩ => ⟨hx.trans hx0, hw.trans hw0⟩
  | decoded len tmo tr ha ha' hb hd hx hw =>
    exact sequenced_of_goesOn h ha ha' nofun nofun hb hd fun ⟨_, hw0⟩ => ⟨hx, hw.trans hw0⟩
  | checked _ hc hx => exact sequenced_of_completed hc (.inl hx)
  | fails _ hc hx => exact sequenced_of_completed hc (.inl hx)

/-- A command accepted with BUSY = 0 leaves them in agreement. -/
theorem CommandDoes.keeps_sequenced {i : Instr} {s t : State} (m : CommandDoes i s t)
    (h : s.sequenced = true) (hb : s.status.busy = false) : t.sequenced = true := by
  obtain ⟨hx0, hw0⟩ := fits_of_free h hb
  cases m.ends with
  | ended r hc hx =>
    refine sequenced_of_completed hc ?_
    obtain hx | ⟨hx, -⟩ := hx
    · rwa [hx]
    · exact .inl hx
  | runs hb' hd' hruns =>
    obtain ⟨-, hx, tmo, w, ha, hw⟩ | ⟨-, hx, hw, f, tmo, k, ha⟩ | ⟨-, -, hx, tr, tmo, w, ha, hw⟩ := hruns
    · exact sequenced_of_running ha nofun hb' hd' ⟨waitReady_fits.mpr (hx ▸ hx0), hw⟩
    · exact sequenced_of_running ha nofun hb' hd' ⟨hx, hw.trans hw0⟩
    · exact sequenced_of_running ha nofun hb' hd' ⟨beq_iff_eq.mpr hx, hw⟩

theorem irqChange_sequencer (v : Bool) (s : State) :
    (s.irqChange v).act = s.act ∧ (s.irqChange v).status = s.status
      ∧ (s.irqChange v).xstate = s.xstate ∧ (s.irqChange v).wstate = s.wstate := by
  unfold State.irqChange
  split <;> exact ⟨rfl, rfl, rfl, rfl⟩

theorem StepDoes.keeps_sequenced {s t : State} (m : StepDoes s t) (h : s.sequenced = true) :
    t.sequenced = true := by
  cases m with
  | op m => exact m.step.keeps_sequenced h
  | edge ts v _ ht =>
    subst ht
    obtain ⟨ha, hs, hx, hw⟩ := irqChange_sequencer v { s with turns := ts }
    exact sequenced_congr h ha hs hx hw
  | idle m => exact sequenced_congr h m.act m.status m.xstate m.wstate
  | port _ _ hs _ _ _ hx hw _ ha => exact sequenced_congr h ha hs hx hw
  | command hb _ _ _ _ m => exact m.keeps_sequenced h hb
  | illegal hb _ _ _ _ _ hx hc =>
    obtain ⟨hx0, -⟩ := fits_of_free h hb
    exact sequenced_of_completed hc (hx ▸ hx0)

/-! ### The header XACT_READ has checked -/

theorem headerHeld_of_not_readRest {s : State} (h : ∀ len tmo tr, s.act ≠ .readRest len tmo tr) :
    s.headerHeld = true := by
  unfold State.headerHeld
  cases ha : s.act with
  | readRest len tmo tr => exact absurd ha (h len tmo tr)
  | idle | waiting | sendTx | sendSent | sendRx | readHead | readDir => rfl

theorem headerHeld_of_header {s : State} {len : Byte} {tmo : Word} {tr : Transport} {b : List Byte}
    (ha : s.act = .readRest len tmo tr) (hm : s.mem.readBytes? rxBase 6 = some b)
    (hp : b.take 3 = Config.preamble) (hl : b.getD 3 0 = len) (hc : lcsOk len (b.getD 4 0) = true)
    (h0 : len ≠ 0) (hs : s.status.sent = .other) : s.headerHeld = true := by
  simp only [State.headerHeld, ha, hm, hp, hl, hc, hs, bne_iff_ne.mpr h0, beq_self_eq_true,
    Bool.and_self]

theorem headerHeld_congr {s t : State} (h : s.headerHeld = true) (ha : t.act = s.act)
    (hs : t.status = s.status) (hm : t.mem = s.mem) : t.headerHeld = true := by
  unfold State.headerHeld at h ⊢
  rwa [ha, hs, hm]

theorem headerHeld_of_completed {t : State} {r : Option Err} (h : Completed t r) :
    t.headerHeld = true := by
  obtain ⟨-, -, -, -, ha⟩ := h
  exact headerHeld_of_not_readRest (by rw [ha]; nofun)

/-- Only XACT_READ's header check begins the read the header is held for. -/
theorem OpStep.keeps_headerHeld {s t : State} (m : OpStep s t) (h : s.headerHeld = true) :
    t.headerHeld = true := by
  cases m with
  | stays ha hs _ _ hm => exact headerHeld_congr h ha hs hm
  | header tmo tr len b _ ha hs _ _ hm hp hl hc h0 =>
    exact headerHeld_of_header ha hm hp hl hc h0 (by rw [hs])
  | ready why tmo w _ hr =>
    cases why with
    | waitReady => exact headerHeld_of_completed hr.2
    | send | read => exact headerHeld_of_not_readRest (by rw [hr.2]; nofun)
  | waits _ _ _ _ _ ha | sent _ _ _ _ ha | begins _ _ _ _ ha | decoded _ _ _ _ ha =>
    exact headerHeld_of_not_readRest (by rw [ha]; nofun)
  | expires _ _ _ _ _ hc | acked _ _ hc | checked _ hc | fails _ hc =>
    exact headerHeld_of_completed hc

theorem CommandDoes.headerHeld {i : Instr} {s t : State} (m : CommandDoes i s t) :
    t.headerHeld = true := by
  cases m.ends with
  | ended _ hc => exact headerHeld_of_completed hc
  | runs _ _ hruns =>
    obtain ⟨-, -, _, _, ha, -⟩ | ⟨-, -, -, _, _, _, ha⟩ | ⟨-, -, -, _, _, _, ha, -⟩ := hruns <;>
    exact headerHeld_of_not_readRest (by rw [ha]; nofun)

theorem StepDoes.keeps_headerHeld {s t : State} (m : StepDoes s t) (hq : s.sequenced = true)
    (h : s.headerHeld = true) : t.headerHeld = true := by
  cases m with
  | op m => exact m.step.keeps_headerHeld h
  | edge ts v _ ht =>
    subst ht
    obtain ⟨ha, hs, -⟩ := irqChange_sequencer v { s with turns := ts }
    obtain ⟨-, hm, -⟩ := irqChange_keeps v { s with turns := ts }
    exact headerHeld_congr h ha hs hm
  | idle m => exact headerHeld_congr h m.act m.status m.mem
  | port hb _ _ _ _ _ _ _ _ ha =>
    exact headerHeld_of_not_readRest (by rw [ha, act_idle_of_free hq hb]; nofun)
  | command _ _ _ _ _ m => exact m.headerHeld
  | illegal _ _ _ _ _ _ _ hc => exact headerHeld_of_completed hc

/-! ### The memory and the event slot -/

theorem StepDoes.keeps_wf {s t : State} (m : StepDoes s t) (h : s.mem.wf = true) :
    t.mem.wf = true := by
  cases m with
  | op m => exact m.kept.wf h
  | edge ts v _ ht =>
    subst ht
    obtain ⟨-, hm, -⟩ := irqChange_keeps v { s with turns := ts }
    rwa [hm]
  | idle m => exact m.kept.wf h
  | port _ _ _ _ _ _ _ _ hm => exact hm h
  | command _ _ _ _ _ m => exact m.kept.wf h
  | illegal _ _ _ hk => exact hk.wf h

/-- ARMED is never cleared, and PENDING rises only under it. -/
theorem StepDoes.keeps_slotOk {s t : State} (m : StepDoes s t) (h : s.slotOk = true) :
    t.slotOk = true := by
  rw [slotOk_iff] at h ⊢
  intro hp
  have stays : s.armed = true → t.armed = true := fun ha => m.armed.elim (·.trans ha) And.left
  obtain hp' | ⟨ts, v, -, rfl⟩ | ⟨hp', -⟩ := m.pending
  · exact stays (h (hp' ▸ hp))
  · by_cases hs : s.pending = true
    · exact stays (h hs)
    · obtain ⟨ha, -⟩ :=
        irqChange_pending_rises (s := { s with turns := ts }) (Bool.eq_false_iff.mpr hs) hp
      exact stays ha
  · rw [hp'] at hp
    cases hp

/-! ### Every step -/

theorem StepDoes.keeps_inv {s t : State} (m : StepDoes s t) (h : s.inv = true) : t.inv = true := by
  obtain ⟨hw, hq, hh, hs⟩ := inv_iff.mp h
  exact inv_iff.mpr ⟨m.keeps_wf hw, m.keeps_sequenced hq, m.keeps_headerHeld hq hh, m.keeps_slotOk hs⟩

/-- The invariant is about the block's own elements, and reset gives each its value of R37. -/
theorem inv_blockReset (s : State) : s.blockReset.inv = true := resetMeetsInvariant

/-- Settles O56: a step ends in a reset block, or is of a kind that keeps each part of the invariant. -/
theorem stepKeepsInvariant : Obligations.StepKeepsInvariant := by
  intro s t hinv h
  obtain ⟨-, e⟩ | ⟨x, ts, -, ⟨hr, -⟩ | ⟨-, e⟩⟩ := step_cases s
  · cases e.symm.trans h
    exact hinv
  · obtain m | ⟨ts, -, rfl⟩ := step_does_or_resets h hr
    · exact m.keeps_inv hinv
    · exact inv_blockReset _
  · obtain ⟨u, hu, -⟩ := moveInReset_eq x { s with turns := ts }
    cases (e.trans hu).symm.trans h
    exact inv_blockReset u

end Sys2Proof.Machine


/-! PROOFS. XACT_SEND (44_transaction.md, R117 to R122): its beginning, the answers of the transport, and
a whole transaction over GPIO. -/

namespace Sys2Proof.Machine

/-! ### The beginning of XACT_SEND -/

/-- The strategy of a wait is the one of CONFIG that passed (R100). -/
theorem checkWaitConfig_kind {st : Strategy} {tr : Transport} {armed : Bool} {kind : WaitKind}
    (h : checkWaitConfig st tr armed = .ok kind) :
    (kind = .gpio ↔ st = .gpio) ∧ (kind = .irq ↔ st = .irq) ∧ (kind = .status ↔ st = .status) := by
  obtain ⟨rfl, rfl⟩ | ⟨rfl, -, rfl⟩ | ⟨rfl, -, rfl⟩ := checkWaitConfig_ok.mp h <;> simp

/-- The frame of a payload that fits, with FRAMELEN and FRAMEINFO, where `putFrame` places it (R71). -/
theorem putFrame_placed {n : Byte} {pd : List Byte} (hl : pd.length = n.toNat) (hn : n.toNat ≤ 63)
    (u : State) :
    (u.putFrame pd).mem.readBytes? frameBase (n.toNat + 8) = some (hostFrame pd)
      ∧ SameCellsBut frameBase (n.toNat + 8) u (u.putFrame pd)
      ∧ (u.putFrame pd).frameLen.toNat = n.toNat + 8
      ∧ (u.putFrame pd).frameInfo
        = frameInfoWord (n + 1) (lcs (n + 1)) Config.tfiH2c (dcsOf Config.tfiH2c pd) := by
  have hframe : (hostFrame pd).length = n.toNat + 8 := by rw [hostFrame_length, hl]
  refine ⟨hl ▸ readBytes?_putFrame pd u, hframe ▸ sameCellsBut_of_store rfl, ?_, ?_⟩
  · rw [State.putFrame_frameLen, BitVec.toNat_ofNat, hl]
    omega
  · rw [State.putFrame_frameInfo, ofNat_length_succ hl]

/-- Settles O33: the checks pass, and the frame that is placed is the one handed to `TxWrite`. -/
theorem xactSendTransmits : Obligations.XactSendTransmits := by
  intro s pd kind hn hp hk
  have hl : pd.length = s.txLen.toNat := Memory.length_of_readBytes? hp
  obtain ⟨hgpio, hirq, hstatus⟩ := checkWaitConfig_kind hk
  obtain ⟨hbytes, hcells, hlen, hinfo⟩ :=
    putFrame_placed hl hn { s.accept.setSent .none with xstate := .idle }
  exact ⟨_, _, execXactSend_ok hn hp hk, hostFrame_eq hl, rfl, rfl, hgpio, hirq, hstatus, hbytes, hcells,
    hlen, hinfo, rfl, rfl, rfl, rfl, rfl, rfl, ⟨rfl, rfl, rfl, rfl, rfl⟩, ⟨rfl, rfl, rfl⟩,
    ⟨rfl, rfl, rfl, rfl, rfl, rfl, rfl, rfl, rfl, rfl, rfl⟩, rfl, rfl, rfl⟩

theorem execXactSend_long {s : State} (hn : 63 < s.txLen.toNat) :
    execXactSend s = .next (State.raise .xactSend .payloadTooLong
      { s.accept.setSent .none with xstate := .idle, frameLen := 0, frameInfo := 0 }) :=
  if_pos hn

theorem execXactSend_refused {s : State} {e : Err} (hn : s.txLen.toNat ≤ 63)
    (hk : checkWaitConfig s.strategy s.transport s.armed = .error e) :
    execXactSend s =
      .next (State.raise .xactSend e { s.accept.setSent .none with xstate := .idle }) := by
  refine (if_neg (show ¬Config.maxPayload < s.txLen.toNat from Nat.not_lt.mpr hn)).trans ?_
  have hk' : checkWaitConfig (State.setSent .none s.accept).strategy
    (State.setSent .none s.accept).transport (State.setSent .none s.accept).armed = .error e := hk
  rw [hk']

/-- Settles O34: either error is raised before a cell is read or a call made. -/
theorem xactSendChecksInOrder : Obligations.XactSendChecksInOrder := fun _ =>
  ⟨fun hn => ⟨_, execXactSend_long hn, completed_raise _ _ _, rfl, rfl, rfl, rfl, rfl, rfl, rfl, rfl,
      ⟨rfl, rfl, rfl, rfl, rfl, rfl, rfl, rfl, rfl, rfl, rfl⟩, ⟨rfl, rfl, rfl, rfl, rfl⟩,
      ⟨rfl, rfl, rfl⟩⟩,
    fun hn _ hk => ⟨_, execXactSend_refused hn hk, completed_raise _ _ _, rfl, rfl, rfl,
      ⟨rfl, rfl, rfl⟩, rfl, rfl, ⟨rfl, rfl, rfl, rfl, rfl, rfl, rfl, rfl, rfl, rfl, rfl⟩,
      ⟨rfl, rfl, rfl, rfl, rfl⟩, ⟨rfl, rfl, rfl⟩⟩⟩

/-! ### The answer of `TxWrite` -/

section
variable {s : State} {ts : List Turn} {frame : List Byte} {tmo : Word} {kind : WaitKind}

theorem txAnswer_ok (ha : s.act = .sendTx frame tmo kind) :
    s.txAnswer .ok = { s with
      xstate := .commandSent
      wireOut := s.wireOut ++ frame
      act := .sendSent tmo kind } := by
  simp only [State.txAnswer, ha]

theorem txAnswer_ioerr (ha : s.act = .sendTx frame tmo kind) :
    s.txAnswer .ioerr = s.raise .xactSend .writeFailed := by
  simp only [State.txAnswer, ha]

theorem txAnswer_tmo (ha : s.act = .sendTx frame tmo kind) :
    s.txAnswer .tmo = s.raise .xactSend .transportWrite := by
  simp only [State.txAnswer, ha]

theorem step_tx {r : TxResult} (ht : s.turns = .env (.tx r) :: ts) (hr : s.rst = false) :
    step s = .next (State.txAnswer r { s with turns := ts }) :=
  step_eq_move ht hr

/-- The transport takes the whole frame (R120). -/
theorem step_txOk (ht : s.turns = .env (.tx .ok) :: ts) (hr : s.rst = false)
    (ha : s.act = .sendTx frame tmo kind) :
    step s = .next { s with
      turns := ts
      xstate := .commandSent
      wireOut := s.wireOut ++ frame
      act := .sendSent tmo kind } :=
  (step_tx ht hr).trans (congrArg Host.Outcome.next (txAnswer_ok (s := { s with turns := ts }) ha))

/-- The block's turn after a write that succeeded begins the wait (R121). -/
theorem step_sendSent (ht : s.turns = .block :: ts) (hr : s.rst = false)
    (ha : s.act = .sendSent tmo kind) :
    step s = .next (State.beginWait .send tmo kind
      { s with turns := ts, xstate := .awaitingReadyAck }) := by
  rw [step_eq_move ht hr]
  simp only [State.move, State.blockMove, ha]

end

/-- Settles O35, by the transport's answer; the wait's beginning changes nothing else. -/
theorem txWriteAnswers : Obligations.TxWriteAnswers := by
  refine ⟨fun s ts r frame tmo kind ht hr ha => ⟨_, step_tx ht hr, ?_⟩, fun s ts tmo kind ht hr ha => ?_⟩
  · have ha : ({ s with turns := ts } : State).act = .sendTx frame tmo kind := ha
    cases r with
    | ok =>
      rw [txAnswer_ok ha]
      exact ⟨rfl, ⟨rfl, rfl, rfl⟩, rfl, ⟨rfl, rfl, rfl, rfl, rfl⟩, ⟨rfl, rfl, rfl⟩, rfl, rfl,
        fun _ => ⟨rfl, rfl, rfl, rfl, rfl⟩, nofun, nofun⟩
    | ioerr =>
      rw [txAnswer_ioerr ha]
      exact ⟨rfl, ⟨rfl, rfl, rfl⟩, rfl, ⟨rfl, rfl, rfl, rfl, rfl⟩, ⟨rfl, rfl, rfl⟩, rfl, rfl, nofun,
        fun _ => ⟨completed_raise _ _ _, rfl, rfl⟩, nofun⟩
    | tmo =>
      rw [txAnswer_tmo ha]
      exact ⟨rfl, ⟨rfl, rfl, rfl⟩, rfl, ⟨rfl, rfl, rfl, rfl, rfl⟩, ⟨rfl, rfl, rfl⟩, rfl, rfl, nofun,
        nofun, fun _ => ⟨completed_raise _ _ _, rfl, rfl⟩⟩
  · obtain ⟨hst, hm, hargs, hirq, hag, hres, hrx, hx⟩ :=
      beginsOnly_beginWait .send tmo kind { s with turns := ts, xstate := .awaitingReadyAck }
    obtain ⟨-, -, -, hin, hout, -, -, -, hts, -, -⟩ := hag
    exact ⟨_, step_sendSent ht hr ha, hts, hx, waitBegun_beginWait _ _ _ _, hst, hm, hrx, hargs, hirq,
      hres, hin, hout⟩

/-! ### The answer of `RxRead` -/

theorem takeAck_wireOut (b : List Byte) (s : State) : (s.takeAck b).wireOut = s.wireOut := by
  cases h : sentinelClass b with
  | none => exact absurd h (sentinelClass_ne_none b)
  | ack => rw [s.takeAck_of_ack h]; rfl
  | nack => rw [s.takeAck_of_nack h]; rfl
  | other => rw [s.takeAck_of_other h]; rfl

section
variable {s : State} {ts : List Turn}

/-- The six bytes XACT_SEND asked for arrive (R121). -/
theorem step_sendRx {b : List Byte} {tmo : Word} (ht : s.turns = .env (.rx (.ok b)) :: ts)
    (hr : s.rst = false) (ha : s.act = .sendRx tmo) (hb : b.length = 6) :
    step s = .next (State.takeAck b { s with turns := ts }) := by
  rw [step_rxOk ht hr (by rw [ha]; rfl) hb]
  simp only [State.rxBytes, ha]

/-- A read that fails ends the operation it belongs to with the error of R137. -/
theorem step_rxFailed {r : RxResult} {k : OpKind} {n : Nat} (ht : s.turns = .env (.rx r) :: ts)
    (hr : s.rst = false) (hd : s.act.rxDemand = some (k, n)) (hf : r = .ioerr ∨ r = .tmo) :
    step s = .next (State.raise k (if r = .ioerr then .readFailed else .transportRead)
      { s with turns := ts }) := by
  rw [step_eq_move ht hr]
  obtain rfl | rfl := hf <;>
    simp only [State.move, State.envMove, State.rxAnswer, hd, reduceCtorEq, if_true, if_false]

end

/-- Settles O36, by the class of the six bytes. -/
theorem ackRequirement : Obligations.AckRequirement := by
  intro s ts b tmo ht hr ha hb
  obtain ⟨hbytes, hcells, hrx, hsent, hargs, hirq, -, -⟩ := sixTaken_takeAck hb { s with turns := ts }
  obtain ⟨hres, htrunc⟩ := takeAck_sameResults b { s with turns := ts }
  refine ⟨_, step_sendRx ht hr ha hb, hbytes, hcells, hrx, htrunc, hres, hargs, hirq,
    takeAck_wireOut b { s with turns := ts }, ?_⟩
  have hc := sentinelClass_six hb
  rw [hsent]
  split_ifs at hc ⊢
  · rw [State.takeAck_of_ack _ hc]
    exact ⟨completed_finish _, hc, rfl⟩
  · rw [State.takeAck_of_nack _ hc]
    exact ⟨completed_raise _ _ _, hc, rfl⟩
  · rw [State.takeAck_of_other _ hc]
    exact ⟨completed_raise _ _ _, hc, rfl⟩

/-- Settles O37, by the operation whose read has failed. -/
theorem failedReadRaises : Obligations.FailedReadRaises := by
  intro s ts r k n ht hr hd hf
  refine ⟨_, step_rxFailed ht hr hd hf, completed_raise _ _ _, ?_⟩
  obtain ⟨-, -, hk⟩ := rxDemand_some hd
  cases k with
  | other => exact absurd rfl hk
  | xactSend =>
    exact ⟨rfl, rfl, rfl, rfl, rfl, ⟨rfl, rfl, rfl, rfl, rfl⟩, ⟨rfl, rfl, rfl⟩, nofun,
      fun _ => ⟨⟨rfl, rfl, rfl⟩, rfl⟩⟩
  | xactRead =>
    exact ⟨rfl, rfl, rfl, rfl, rfl, ⟨rfl, rfl, rfl, rfl, rfl⟩, ⟨rfl, rfl, rfl⟩,
      fun _ => ⟨rfl, rfl, rfl⟩, nofun⟩

/-! ### A whole XACT_SEND -/

/-- The controller's write of XACT_SEND's word hands the frame to `TxWrite`. -/
theorem step_xactSend {s : State} {ts : List Turn} {as : List Access} {pd : List Byte} {kind : WaitKind}
    (ht : s.turns = .controller :: ts) (hr : s.rst = false) (hh : s.held = none)
    (hy : s.status.busy = false) (hb : s.bus = .write 0x000 0x20 :: as) (hn : s.txLen.toNat ≤ 63)
    (hp : s.mem.readBytes? 0x100 s.txLen.toNat = some pd)
    (hk : checkWaitConfig s.strategy s.transport s.armed = .ok kind) :
    step s = .next { State.putFrame pd { State.setSent .none (State.accept
          { s with turns := ts, bus := as, resp := some .written }) with xstate := .idle } with
        act := .sendTx (hostFrame pd) s.timeout kind } :=
  (step_command ht hr hh hy hb rfl).trans
    (execXactSend_ok (s := { s with turns := ts, bus := as, resp := some .written }) hn hp hk)

/-- From the outstanding `TxWrite` on: the frame is taken, the pin is low at the first sample, and the
ACK arrives. -/
theorem run_sendTx_to_ackRead {s : State} {frame : List Byte} {tmo d : Word} {ts : List Turn}
    (hr : s.rst = false) (ha : s.act = .sendTx frame tmo .gpio)
    (ht : s.turns
      = [.env (.tx .ok), .block, .env (.tick d), .block, .env (.rx (.ok Config.ack))] ++ ts)
    (hpin : s.pin = false) (hd : Config.settleMs ≤ d) :
    ∃ t, core.run 5 s = .next t ∧ Completed t none ∧ t.status.sent = .ack ∧ t.xstate = .ackRead
      ∧ t.rxLen = 6 ∧ t.mem.readBytes? rxBase 6 = some Config.ack
      ∧ t.wireOut = s.wireOut ++ frame := by
  have hpass : Config.settleMs ≤ s.tick + d - s.tick := by rwa [add_sub_cancel_left]
  have written := run_succ (n := 4) (step_txOk ht hr ha)
  have begun := written.trans (run_succ (step_sendSent rfl hr rfl))
  have passed := begun.trans (run_succ (step_tick rfl hr))
  have ready := passed.trans (run_succ (step_settle_ready rfl hr rfl hpin hpass))
  have acked := ready.trans (run_succ (n := 0) (step_sendRx rfl hr rfl rfl))
  rw [State.takeAck_of_ack _ rfl] at acked
  exact ⟨_, acked, completed_finish _, rfl, rfl, rfl,
    Memory.readBytes?_writeBytes _ rxBase Config.ack, rfl⟩

/-- Settles O44: the command hands the frame to `TxWrite`, and the rest of the run follows. -/
theorem xactSendRunsToAckRead : Obligations.XactSendRunsToAckRead := by
  intro s pd d ts as hr hh hy hb ht hs hpin hd hn hp
  have hl : pd.length = s.txLen.toNat := Memory.length_of_readBytes? hp
  have sends := step_xactSend ht hr hh hy hb hn hp (checkWaitConfig_ok.mpr (.inl ⟨hs, rfl⟩))
  rw [← hostFrame_eq hl, run_succ sends]
  exact run_sendTx_to_ackRead hr rfl rfl hpin hd

end Sys2Proof.Machine


/-! PROOFS. XACT_READ (44_transaction.md, R124 to R132): its beginning, the header check, the decode of
the response, and a whole transaction over GPIO. -/

namespace Sys2Proof.Machine

/-! ### The beginning of XACT_READ -/

theorem execXactRead_sequence {s : State} (hx : s.xstate ≠ .ackRead) :
    execXactRead s = .next (s.accept.clearDecode.raise .xactRead .sequence) :=
  if_pos hx

theorem execXactRead_refused {s : State} {e : Err} (hx : s.xstate = .ackRead)
    (h : checkWaitConfig s.strategy s.transport s.armed = .error e) :
    execXactRead s = .next (s.accept.clearDecode.raise .xactRead e) := by
  refine (if_neg (not_not.mpr hx)).trans ?_
  have h' : checkWaitConfig s.accept.clearDecode.strategy s.accept.clearDecode.transport
    s.accept.clearDecode.armed = .error e := h
  rw [h']

/-- What R100 refuses is an argument error. -/
theorem checkWaitConfig_error_cls {st : Strategy} {tr : Transport} {armed : Bool} {e : Err}
    (h : checkWaitConfig st tr armed = .error e) : e.cls = .argument := by
  obtain ⟨-, rfl⟩ | ⟨-, -, rfl⟩ := checkWaitConfig_error.mp h <;> rfl

/-- Settles O38: either error is raised from the state with its outputs zeroed. -/
theorem xactReadChecksInOrder : Obligations.XactReadChecksInOrder := by
  intro s e h
  have hraise : execXactRead s = .next (s.accept.clearDecode.raise .xactRead e) ∧ e.cls = .argument := by
    obtain ⟨hx, rfl⟩ | ⟨hx, hk⟩ := h
    · exact ⟨execXactRead_sequence hx, rfl⟩
    · exact ⟨execXactRead_refused hx hk, checkWaitConfig_error_cls hk⟩
  obtain ⟨hraise, hcls⟩ := hraise
  exact ⟨_, hraise, completed_raise _ _ _, hcls, rfl, rfl, rfl, rfl, rfl, rfl, rfl, rfl, rfl,
    ⟨rfl, rfl, rfl, rfl, rfl⟩, ⟨rfl, rfl, rfl⟩,
    ⟨rfl, rfl, rfl, rfl, rfl, rfl, rfl, rfl, rfl, rfl, rfl⟩⟩

/-- The configurations that pass, by name (R100). -/
theorem checkWaitConfig_ok_of_listed {st : Strategy} {tr : Transport} {armed : Bool}
    (h : st = .gpio ∨ st = .irq ∧ armed = true ∨ st = .status ∧ tr = .i2c) :
    ∃ kind, checkWaitConfig st tr armed = .ok kind := by
  obtain rfl | ⟨rfl, rfl⟩ | ⟨rfl, rfl⟩ := h
  · exact ⟨.gpio, rfl⟩
  · exact ⟨.irq, rfl⟩
  · exact ⟨.status, rfl⟩

/-- Settles O39: the wait that begins is of the kind R100 answers, and the beginning changes nothing
else. -/
theorem xactReadBegins : Obligations.XactReadBegins := by
  intro s hx h
  obtain ⟨kind, hk⟩ := checkWaitConfig_ok_of_listed h
  obtain ⟨hgpio, hirq, hstatus⟩ := checkWaitConfig_kind hk
  have begun := waitBegun_beginWait (.read s.transport) s.timeout kind
    { s.accept.clearDecode with xstate := .awaitingReadyResponse }
  obtain ⟨hst, hm, hargs, hirqs, hag, ⟨hlen, hinfo, hplen⟩, hrx, hx'⟩ :=
    beginsOnly_beginWait (.read s.transport) s.timeout kind
      { s.accept.clearDecode with xstate := .awaitingReadyResponse }
  refine ⟨_, execXactRead_ok hx hk, fun hs => ?_, fun hs => ?_, fun hs => ?_, hx', by rw [hst]; rfl,
    by rw [hst]; rfl, by rw [hst]; rfl, by rw [hst]; rfl, by rw [hst]; rfl, hplen, hinfo, hm, hrx, hlen,
    hargs, hirqs, hag⟩
  · obtain rfl := hgpio.mpr hs
    exact begun
  · obtain rfl := hirq.mpr hs
    exact begun
  · obtain rfl := hstatus.mpr hs
    exact begun

/-! ### The header (R126) -/

/-- What an error of XACT_READ leaves (R130). -/
theorem xactReadFailed_raise {u : State} {c : Sent} (e : Err) (h : u.status.sent = c) :
    XactReadFailed e c (u.raise .xactRead e) :=
  ⟨completed_raise _ _ _, rfl, h, rfl, rfl, rfl⟩

section
variable {b : List Byte} (tmo : Word) (tr : Transport) (s : State)

theorem State.takeHeader_of_badPreamble (hc : sentinelClass b = .other)
    (hp : b.take 3 ≠ Config.preamble) :
    s.takeHeader tmo tr b = (s.withSix b).raise .xactRead .badPreamble :=
  (if_neg (by rw [hc]; nofun)).trans <| (if_neg (by rw [hc]; nofun)).trans <| if_pos hp

theorem State.takeHeader_of_lcsMismatch (hc : sentinelClass b = .other)
    (hp : b.take 3 = Config.preamble) (hs : b.getD 3 0 + b.getD 4 0 ≠ 0) :
    s.takeHeader tmo tr b = (s.withSix b).raise .xactRead .lcsMismatch :=
  (if_neg (by rw [hc]; nofun)).trans <| (if_neg (by rw [hc]; nofun)).trans <|
    (if_neg (not_not.mpr hp)).trans <| if_pos (by rw [lcsOk_eq_false.mpr hs]; rfl)

theorem State.takeHeader_of_badLength (hc : sentinelClass b = .other)
    (hp : b.take 3 = Config.preamble) (hs : b.getD 3 0 + b.getD 4 0 = 0) (h0 : b.getD 3 0 = 0) :
    s.takeHeader tmo tr b = (s.withSix b).raise .xactRead .badLength :=
  (if_neg (by rw [hc]; nofun)).trans <| (if_neg (by rw [hc]; nofun)).trans <|
    (if_neg (not_not.mpr hp)).trans <| (if_neg (by rw [lcsOk, hs]; decide)).trans <| if_pos h0

theorem takeHeader_wireOut (b : List Byte) : (s.takeHeader tmo tr b).wireOut = s.wireOut := by
  unfold State.takeHeader
  dsimp only
  split_ifs <;> rfl

end

/-- The six bytes XACT_READ asks for first arrive (R126). -/
theorem step_readHead {s : State} {ts : List Turn} {b : List Byte} {tmo : Word} {tr : Transport}
    (ht : s.turns = .env (.rx (.ok b)) :: ts) (hr : s.rst = false) (ha : s.act = .readHead tmo tr)
    (hb : b.length = 6) : step s = .next (State.takeHeader tmo tr b { s with turns := ts }) := by
  rw [step_rxOk ht hr (by rw [ha]; rfl) hb]
  simp only [State.rxBytes, ha]

/-- Settles O40, by the first check that fails. -/
theorem responseHeaderChecked : Obligations.ResponseHeaderChecked := by
  intro s ts b tmo tr ht hr ha hb
  obtain ⟨hbytes, hcells, hrx, -, hargs, hirq, hlen, -⟩ :=
    sixTaken_takeHeader hb tmo tr { s with turns := ts }
  refine ⟨_, step_readHead ht hr ha hb, hbytes, hcells, hrx, hargs, hirq, hlen,
    takeHeader_wireOut tmo tr { s with turns := ts } b, ?_⟩
  have hc := sentinelClass_six hb
  split_ifs at hc ⊢ with hack hnack hp hs h0
  · rw [State.takeHeader_of_ack _ tmo tr hc]
    exact xactReadFailed_raise _ hc
  · rw [State.takeHeader_of_nack _ tmo tr hc]
    exact xactReadFailed_raise _ hc
  · rw [State.takeHeader_of_badPreamble tmo tr _ hc hp]
    exact xactReadFailed_raise _ hc
  · rw [State.takeHeader_of_lcsMismatch tmo tr _ hc (not_not.mp hp) hs]
    exact xactReadFailed_raise _ hc
  · rw [State.takeHeader_of_badLength tmo tr _ hc (not_not.mp hp) (not_not.mp hs) h0]
    exact xactReadFailed_raise _ hc
  · rw [State.takeHeader_of_valid _ tmo tr (not_not.mp hp) (not_not.mp hs) h0]
    refine ⟨rfl, rfl, ?_, ⟨rfl, rfl, rfl⟩, rfl, rfl⟩
    rw [← hc]
    rfl

/-! ### The rest of the response (R127, R128) -/

/-- The rest of the frame stored behind the header, with RXLEN the whole frame's length (R127). -/
def State.withRest (len : Byte) (rest : List Byte) (s : State) : State :=
  { s.store (rxBase + 6) rest with rxLen := BitVec.ofNat 9 (len.toNat + 7) }

theorem withRest_rxLen (len : Byte) (rest : List Byte) (s : State) :
    (s.withRest len rest).rxLen.toNat = len.toNat + 7 :=
  (BitVec.toNat_ofNat _ _).trans (Nat.mod_eq_of_lt (by have := len.isLt; omega))

/-- The length R128 cuts the decode at: MAXLEN on UART and under TRUNCATE, none under REJECT. -/
def responseCut (tr : Transport) (max : Byte) : Option Byte :=
  if tr = .uart ∨ Config.i2cOverflow = .truncate then some max else none

theorem responseCut_of_truncating {tr : Transport} (max : Byte)
    (h : tr = .uart ∨ Config.i2cOverflow = .truncate) : responseCut tr max = some max :=
  if_pos h

/-- Under REJECT a payload longer than MAXLEN is refused undecoded. -/
theorem takeRest_tooLong {s : State} {len : Byte} {tr : Transport} {rest : List Byte}
    (h : responseCut tr s.maxLen = none) (hm : s.maxLen.toNat < len.toNat - 1) :
    s.takeRest len tr rest = .next ((s.withRest len rest).raise .xactRead .responseTooLong) := by
  have htr : ¬(tr = .uart ∨ Config.i2cOverflow = .truncate) := fun htr => by
    rw [responseCut_of_truncating s.maxLen htr] at h
    cases h
  exact (if_neg htr).trans (if_pos hm)

/-- Any other response is decoded. -/
theorem takeRest_decodes {s : State} {len : Byte} {tr : Transport} {rest : List Byte}
    (h : ¬(responseCut tr s.maxLen = none ∧ s.maxLen.toNat < len.toNat - 1)) :
    s.takeRest len tr rest
      = (s.withRest len rest).decodeBody (responseCut tr s.maxLen) State.endDecode := by
  by_cases htr : tr = .uart ∨ Config.i2cOverflow = .truncate
  · rw [responseCut_of_truncating s.maxLen htr]
    exact if_pos htr
  · have hcut : responseCut tr s.maxLen = none := if_neg htr
    rw [hcut]
    exact (if_neg htr).trans (if_neg fun hm => h ⟨hcut, hm⟩)

/-- The bytes XACT_READ asks for behind a valid header arrive (R127). -/
theorem step_readRest {s : State} {ts : List Turn} {rest : List Byte} {len : Byte} {tmo : Word}
    {tr : Transport} (ht : s.turns = .env (.rx (.ok rest)) :: ts) (hr : s.rst = false)
    (ha : s.act = .readRest len tmo tr) (hb : rest.length = len.toNat + 1) :
    step s = State.takeRest len tr rest { s with turns := ts } := by
  rw [step_rxOk ht hr (by rw [ha]; rfl) hb]
  simp only [State.rxBytes, ha]

/-- A decode whose frame fits RXBUF leaves RXBUF. -/
theorem readBytes?_afterDecode_rx (u : State) (d : Decoded) {a n : Nat} (h : a + n ≤ payBase) :
    (u.afterDecode d).mem.readBytes? a n = u.mem.readBytes? a n :=
  Memory.readBytes?_congr fun i hi => Memory.read?_writeBytes_outside u.mem (by omega)

theorem readBytes?_afterDecode_pay (u : State) (d : Decoded) :
    (u.afterDecode d).mem.readBytes? payBase d.payload.length = some d.payload :=
  Memory.readBytes?_writeBytes u.mem payBase d.payload

section
variable {s : State} {len : Byte} {hd rest : List Byte}
  (hread : s.mem.readBytes? rxBase 6 = some hd) (hrest : rest.length = len.toNat + 1)
include hread hrest

/-- RXBUF then holds the whole frame. -/
theorem readBytes?_withRest :
    (s.withRest len rest).mem.readBytes? rxBase (len.toNat + 7) = some (hd ++ rest) := by
  rw [show len.toNat + 7 = 6 + rest.length by omega]
  exact readBytes?_header_rest hread

theorem decodeBody_withRest (cut : Option Byte) (k : State → Option Err → Out) :
    (s.withRest len rest).decodeBody cut k
      = k ((s.withRest len rest).afterDecode (decoded cut (hd ++ rest)))
          (decoded cut (hd ++ rest)).err := by
  have hlen := withRest_rxLen len rest s
  have hlt := len.isLt
  exact State.decodeBody_eq cut (by omega) (hlen ▸ readBytes?_withRest hread hrest) k

end

/-- The decode of a whole frame behind a valid header succeeds, or fails its data checksum only. -/
theorem decoded_whole_cases {cut : Option Byte} {b : List Byte} {len : Byte}
    (hl : b.length = len.toNat + 7) (h3 : b.take 3 = Config.preamble) (hlen : b.getD 3 0 = len)
    (hs : len + b.getD 4 0 = 0) (h0 : len ≠ 0) :
    (decoded cut b).err = none ∧ (decoded cut b).sent = .other
      ∨ decoded cut b = .empty .other (some .dcsMismatch) := by
  rw [decoded_whole hl h3 hlen hs h0]
  cases cut with
  | none =>
    dsimp only
    split_ifs
    · exact .inl ⟨rfl, rfl⟩
    · exact .inr rfl
  | some m =>
    dsimp only
    split_ifs
    · exact .inl ⟨rfl, rfl⟩
    · exact .inl ⟨rfl, rfl⟩
    · exact .inr rfl

/-- The same, of a header of six bytes and the bytes behind it. -/
theorem decoded_header_rest {cut : Option Byte} {hd rest : List Byte} {len : Byte}
    (h6 : hd.length = 6) (hrest : rest.length = len.toNat + 1) (h3 : hd.take 3 = Config.preamble)
    (hlen : hd.getD 3 0 = len) (hs : len + hd.getD 4 0 = 0) (h0 : len ≠ 0) :
    (decoded cut (hd ++ rest)).err = none ∧ (decoded cut (hd ++ rest)).sent = .other
      ∨ decoded cut (hd ++ rest) = .empty .other (some .dcsMismatch) :=
  decoded_whole_cases (by rw [List.length_append]; omega)
    (by rwa [List.take_append_of_le_length (by omega)])
    (by rwa [List.getD_append _ _ _ _ (by omega)]) (by rwa [List.getD_append _ _ _ _ (by omega)]) h0

/-- Settles O41, by whether the response is refused undecoded and how its decode ends. -/
theorem responseDecoded : Obligations.ResponseDecoded := by
  intro s ts tmo tr len hd rest ht hr ha hsent hread h3 hlen hs h0 hrest cut d
  have hcut : responseCut tr s.maxLen = cut := rfl
  have hdec : decoded cut (hd ++ rest) = d := rfl
  have hwhole := decoded_header_rest (cut := cut) (Memory.length_of_readBytes? hread) hrest h3 hlen hs h0
  rw [hdec] at hwhole
  clear_value d cut
  have hstep := step_readRest ht hr ha hrest
  have hbytes := readBytes?_withRest (s := { s with turns := ts }) hread hrest
  have hcells : SameCellsBut 0x306 rest.length s (State.withRest len rest { s with turns := ts }) :=
    sameCellsBut_of_store rfl
  have hrxLen := withRest_rxLen len rest { s with turns := ts }
  have hother : d.sent = .other := by
    obtain ⟨-, hc⟩ | rfl := hwhole
    · exact hc
    · rfl
  have herr : d.err = none ∨ d.err = some .dcsMismatch := hwhole.imp And.left (congrArg Decoded.err)
  by_cases hm : cut = none ∧ s.maxLen.toNat < len.toNat - 1
  · rw [takeRest_tooLong (s := { s with turns := ts }) (hcut.trans hm.1) hm.2] at hstep
    refine ⟨_, hstep, hrxLen, hbytes, ⟨rfl, rfl, rfl, rfl, rfl⟩, ⟨rfl, rfl, rfl⟩, rfl, rfl, herr,
      hother, ?_⟩
    rw [if_pos hm]
    exact ⟨xactReadFailed_raise _ hsent, hcells⟩
  · rw [takeRest_decodes (s := { s with turns := ts }) (hcut ▸ hm), hcut,
      decodeBody_withRest (s := { s with turns := ts }) hread hrest, hdec] at hstep
    obtain ⟨he, -⟩ | rfl := hwhole
    · have hlt := len.isLt
      have hframe := readBytes?_afterDecode_rx (State.withRest len rest { s with turns := ts }) d
        (a := rxBase) (n := len.toNat + 7) (by simp only [rxBase, payBase]; omega)
      rw [he] at hstep
      refine ⟨_, hstep, hrxLen, hframe.trans hbytes, ⟨rfl, rfl, rfl, rfl, rfl⟩, ⟨rfl, rfl, rfl⟩, rfl,
        rfl, herr, hother, ?_⟩
      rw [if_neg hm, if_pos he]
      exact ⟨rfl, rfl, rfl, hother ▸ rfl, rfl, rfl, readBytes?_afterDecode_pay _ d,
        fun a hrx hpay => (Memory.read?_writeBytes_outside _ hpay).trans (hcells a hrx)⟩
    · refine ⟨_, hstep, hrxLen, hbytes, ⟨rfl, rfl, rfl, rfl, rfl⟩, ⟨rfl, rfl, rfl⟩, rfl, rfl, herr,
        hother, ?_⟩
      rw [if_neg hm]
      exact ⟨xactReadFailed_raise _ rfl, hcells⟩

/-! ### The direction check (R129) -/

theorem checkDir_of_c2h {s : State} (h : frameInfoDir s.frameInfo = Config.tfiC2h) :
    s.checkDir = State.finish { s with xstate := .idle } :=
  if_neg (not_not.mpr h)

theorem checkDir_of_other {s : State} (h : frameInfoDir s.frameInfo ≠ Config.tfiC2h) :
    s.checkDir = s.raise .xactRead .badDirection :=
  if_pos h

theorem step_readDir {s : State} {ts : List Turn} (ht : s.turns = .block :: ts) (hr : s.rst = false)
    (ha : s.act = .readDir) : step s = .next (State.checkDir { s with turns := ts }) := by
  rw [step_eq_move ht hr]
  simp only [State.move, State.blockMove, ha]

/-- Settles O43, by the direction byte. -/
theorem directionChecked : Obligations.DirectionChecked := by
  intro s ts ht hr ha
  have hstep := step_readDir ht hr ha
  by_cases hdir : s.frameInfo.extractLsb' 16 8 = 0xD5
  · rw [checkDir_of_c2h (s := { s with turns := ts }) hdir] at hstep
    exact ⟨_, hstep, rfl, rfl, rfl, rfl, rfl, ⟨rfl, rfl, rfl, rfl, rfl⟩, ⟨rfl, rfl, rfl⟩,
      fun _ => ⟨completed_finish _, rfl, rfl, rfl⟩, fun h => absurd hdir h⟩
  · rw [checkDir_of_other (s := { s with turns := ts }) hdir] at hstep
    exact ⟨_, hstep, rfl, rfl, rfl, rfl, rfl, ⟨rfl, rfl, rfl, rfl, rfl⟩, ⟨rfl, rfl, rfl⟩,
      fun h => absurd h hdir, fun _ => ⟨completed_raise _ _ _, rfl, rfl, rfl, rfl⟩⟩

/-! ### A response that is decoded, and its direction -/

/-- XACT_READ's state where it has completed with the decode `d` of a response (R129, R134). -/
def State.completeRead (len : Byte) (rest : List Byte) (d : Decoded) (s : State) : State :=
  State.finish { (s.withRest len rest).afterDecode d with xstate := .idle }

/-- The rest of a response from the chip, and the block's turn after it: the decode succeeds, and
XACT_READ completes with it. -/
theorem run_response {s : State} {ts : List Turn} {tmo : Word} {tr : Transport} {len lcs dcs : Byte}
    {hd rest : List Byte} {d : Decoded} (ht : s.turns = .env (.rx (.ok rest)) :: .block :: ts)
    (hr : s.rst = false) (ha : s.act = .readRest len tmo tr)
    (hread : s.mem.readBytes? rxBase 6 = some hd) (hrest : rest.length = len.toNat + 1)
    (hm : ¬(responseCut tr s.maxLen = none ∧ s.maxLen.toNat < len.toNat - 1))
    (hdec : decoded (responseCut tr s.maxLen) (hd ++ rest) = d) (he : d.err = none)
    (hinfo : d.frameInfo = frameInfoWord len lcs Config.tfiC2h dcs) :
    core.run 2 s = .next (State.completeRead len rest d { s with turns := ts }) := by
  have takes := step_readRest ht hr ha hrest
  rw [takeRest_decodes (s := { s with turns := .block :: ts }) hm,
    decodeBody_withRest (s := { s with turns := .block :: ts }) hread hrest, hdec, he] at takes
  have hdir : frameInfoDir d.frameInfo = Config.tfiC2h := by
    rw [hinfo]
    exact frameInfoWord_dir _ _ _ _
  refine (run_two takes (step_readDir rfl hr rfl)).trans (congrArg Host.Outcome.next ?_)
  exact checkDir_of_c2h hdir

theorem completeRead_rxLen (len : Byte) (rest : List Byte) (d : Decoded) (s : State) :
    (s.completeRead len rest d).rxLen.toNat = len.toNat + 7 :=
  withRest_rxLen len rest s

theorem readBytes?_completeRead_pay (len : Byte) (rest : List Byte) (d : Decoded) (s : State) :
    (s.completeRead len rest d).mem.readBytes? payBase d.payload.length = some d.payload :=
  readBytes?_afterDecode_pay (s.withRest len rest) d

/-- RXBUF behind the header is the rest as it was read. -/
theorem readBytes?_completeRead_rest {len : Byte} {rest : List Byte} (d : Decoded) (s : State) {n : Nat}
    (hrest : rest.length = len.toNat + 1) (hn : n ≤ rest.length) :
    (s.completeRead len rest d).mem.readBytes? (rxBase + 6) n = some (rest.take n) := by
  have hlt := len.isLt
  refine (readBytes?_afterDecode_rx (s.withRest len rest) d
    (by simp only [rxBase, payBase]; omega)).trans ?_
  exact Memory.readBytes?_sub (Memory.readBytes?_writeBytes s.mem (rxBase + 6) rest) 0 n (by omega)

/-- Settles O42: the header and the payload as far as MAXLEN decide the decode (R86), and the direction
byte is the chip's. -/
theorem truncatedResponseTrusted : Obligations.TruncatedResponseTrusted := by
  intro s ts tmo tr len rest ht hr ha htr hread hrest hm
  have h0 : len ≠ 0 := by
    rintro rfl
    exact absurd hm (Nat.not_lt_zero _)
  have hcut := responseCut_of_truncating s.maxLen htr
  obtain ⟨-, hlcs, -⟩ := lengthChecksum len
  have hdec := decoded_truncated (b := [0x00, 0x00, 0xFF, len, 0 - len, 0xD5] ++ rest)
    (by rw [List.length_append]; show _ ≤ 6 + rest.length; omega) hm rfl rfl hlcs h0
  have hpay : (rest.take s.maxLen.toNat).length = s.maxLen.toNat := List.length_take_of_le (by omega)
  rw [← hcut] at hdec
  refine ⟨_, run_response ht hr ha hread hrest (by rw [hcut]; nofun) hdec rfl rfl, completed_finish _,
    rfl, rfl, rfl, rfl, ?_, readBytes?_completeRead_rest _ _ hrest (by omega), rfl⟩
  have hbytes := readBytes?_completeRead_pay len rest
    { sent := .other, err := none, trunc := true, pLen := s.maxLen
      frameInfo := frameInfoWord len (0 - len) 0xD5 0, payload := rest.take s.maxLen.toNat }
    { s with turns := ts }
  rwa [hpay] at hbytes

/-! ### A whole XACT_READ -/

/-- A cut at or behind the payload's end is none. -/
theorem decoded_of_fits {cut : Option Byte} {b : List Byte}
    (h : ∀ m, cut = some m → (b.getD 3 0).toNat - 1 ≤ m.toNat) : decoded cut b = decoded none b := by
  cases cut with
  | none => rfl
  | some m => simp only [decoded, if_pos (h m rfl)]

theorem responseCut_eq_some {tr : Transport} {max m : Byte} (h : responseCut tr max = some m) :
    m = max := by
  unfold responseCut at h
  split at h
  · exact (Option.some.inj h).symm
  · cases h

/-- The controller's write of XACT_READ's word begins the wait. -/
theorem step_xactRead {s : State} {ts : List Turn} {as : List Access} {kind : WaitKind}
    (ht : s.turns = .controller :: ts) (hr : s.rst = false) (hh : s.held = none)
    (hy : s.status.busy = false) (hb : s.bus = .write 0x000 0x21 :: as) (hx : s.xstate = .ackRead)
    (hk : checkWaitConfig s.strategy s.transport s.armed = .ok kind) :
    step s = .next (State.beginWait (.read s.transport) s.timeout kind
      { State.clearDecode (State.accept { s with turns := ts, bus := as, resp := some .written }) with
        xstate := .awaitingReadyResponse }) :=
  (step_command ht hr hh hy hb rfl).trans
    (execXactRead_ok (s := { s with turns := ts, bus := as, resp := some .written }) hx hk)

/-- From the first read of a well-formed response on, which arrives in two parts: XACT_READ completes
with its decode. -/
theorem run_readHead_to_idle {s : State} {len l dcs post : Byte} {pd : List Byte} {tmo : Word}
    {tr : Transport} {ts : List Turn}
    (hw : (Instr.infoFrame len l (Config.tfiC2h :: pd) dcs post).wellFormed = true)
    (hm : pd.length ≤ s.maxLen.toNat) (hr : s.rst = false) (ha : s.act = .readHead tmo tr)
    (ht : s.turns = .env (.rx (.ok [0x00, 0x00, 0xFF, len, l, 0xD5]))
      :: .env (.rx (.ok (pd ++ [dcs, post]))) :: .block :: ts) :
    ∃ t, core.run 3 s = .next t ∧ Completed t none ∧ t.status.sent = .other
      ∧ t.status.trunc = false ∧ t.xstate = .idle ∧ t.pLen.toNat = pd.length
      ∧ t.mem.readBytes? payBase pd.length = some pd
      ∧ t.frameInfo = frameInfoWord len l Config.tfiC2h dcs ∧ t.rxLen.toNat = len.toNat + 7 := by
  obtain ⟨h0, hlen, hsum⟩ := infoFrame_wellFormed hw
  rw [List.length_cons] at hlen
  have hrest : (pd ++ [dcs, post]).length = len.toNat + 1 := by rw [List.length_append, ← hlen]; rfl
  have hdec := (decoded_of_fits (cut := responseCut tr s.maxLen) fun m h => by
    rw [responseCut_eq_some h]
    show len.toNat - 1 ≤ s.maxLen.toNat
    omega).trans (decoded_infoFrame hw)
  have heads := step_readHead ht hr ha rfl
  rw [State.takeHeader_of_valid (b := [0x00, 0x00, 0xFF, len, l, 0xD5]) _ tmo tr rfl hsum h0] at heads
  have hread := (sixTaken_withSix (b := [0x00, 0x00, 0xFF, len, l, 0xD5]) rfl { s with
    turns := .env (.rx (.ok (pd ++ [dcs, post]))) :: .block :: ts }).bytes
  have hfits : ¬(responseCut tr s.maxLen = none ∧ s.maxLen.toNat < len.toNat - 1) := by
    rintro ⟨-, h⟩
    omega
  refine ⟨_, (run_succ heads).trans (run_response (lcs := l) (dcs := dcs) rfl hr rfl hread hrest hfits
    hdec rfl rfl), completed_finish _, rfl, rfl, rfl, ?_, readBytes?_completeRead_pay _ _ _ _, rfl,
    completeRead_rxLen _ _ _ _⟩
  show (len - 1).toNat = pd.length
  bv_omega

/-- Settles O45: the command begins the wait, the first sample ends it, and the two reads follow. -/
theorem xactReadRunsToIdle : Obligations.XactReadRunsToIdle := by
  intro s len l dcs post pd d ts as hw hm hr hh hy hb ht hx hs hpin hd
  have hpass : Config.settleMs ≤ s.tick + d - s.tick := by rwa [add_sub_cancel_left]
  have begins := step_xactRead ht hr hh hy hb hx (checkWaitConfig_ok.mpr (.inl ⟨hs, rfl⟩))
  have passed := (run_succ (n := 5) begins).trans (run_succ (step_tick rfl hr))
  rw [passed.trans (run_succ (step_settle_ready rfl hr rfl hpin hpass))]
  exact run_readHead_to_idle hw hm hr rfl rfl

end Sys2Proof.Machine


/-! PROOFS. The table of XSTATE's transitions (44_transaction.md, R116). -/

namespace Sys2Proof.Machine

/-! ### Ends that exclude each other -/

theorem not_completed_of_act {t : State} {r : Option Err} (h : t.act ≠ .idle) : ¬Completed t r := by
  rintro ⟨-, -, -, -, ha⟩
  exact h ha

theorem Completed.err_eq {t : State} {r r' : Option Err} (h : Completed t r) (h' : Completed t r') :
    r = r' := by
  obtain ⟨-, -, he, -⟩ := h
  obtain ⟨-, -, he', -⟩ := h'
  exact he.symm.trans he'

theorem Wait.wstate_ne_idle (w : Wait) : w.wstate ≠ .idle := by
  cases w <;> nofun

/-! ### The rows of the table -/

/-- The rows of R116's table but reset's, each with its event. -/
inductive XstateRow (s t : State) : Prop
  | sendCommand (hs : s.xstate = .ackRead) (ht : t.xstate = .idle) (hc : CommandAt s 0x20)
  | written (hs : s.xstate = .idle) (ht : t.xstate = .commandSent)
      (htx : ∃ ts, s.turns = .env (.tx .ok) :: ts)
  | waitBegins (hs : s.xstate = .commandSent) (ht : t.xstate = .awaitingReadyAck)
      (hw : t.wstate ≠ .idle) (hb : ∃ ts, s.turns = .block :: ts)
  | acknowledged (hs : s.xstate = .awaitingReadyAck) (ht : t.xstate = .ackRead)
      (hc : Completed t none) (ha : ∃ tmo, s.act = .sendRx tmo) (hb : BringsBytes s)
      (hm : t.mem.readBytes? 0x300 6 = some Config.ack)
  | readCommand (hs : s.xstate = .ackRead) (ht : t.xstate = .awaitingReadyResponse)
      (hw : t.wstate ≠ .idle) (hc : CommandAt s 0x21)
  | decoded (hs : s.xstate = .awaitingReadyResponse) (ht : t.xstate = .responseRead)
      (ha' : t.act = .readDir) (ha : ∃ len tmo tr, s.act = .readRest len tmo tr) (hb : BringsBytes s)
  | checked (hs : s.xstate = .responseRead) (ht : t.xstate = .idle) (hc : Completed t none)
      (hd : s.frameInfo.extractLsb' 16 8 = 0xD5) (hb : ∃ ts, s.turns = .block :: ts)
  | error (ht : t.xstate = .idle) (hc : ∃ e, Completed t (some e))
      (hr : s.xstate = .ackRead → CommandAt s 0x21)

section
variable {s t : State}

/-- A step that moves an operation whose `RxRead` is outstanding, and ends in no error, is a turn that
can bring the bytes. -/
theorem bringsBytes_of_moved (h : step s = .next t) (hr : s.rst = false)
    (hn : ∀ ts, s.turns ≠ .env (.rst true) :: ts) (hb : s.status.busy = true)
    (hd : s.act.rxDemand ≠ none) (hmoved : t.act ≠ s.act) (he : ∀ e, ¬Completed t (some e)) :
    BringsBytes s := by
  have hw : ∀ why tmo w, s.act ≠ .waiting why tmo w := fun _ _ _ ha => hd (by rw [ha]; rfl)
  have hs : ∀ f tmo kind, s.act ≠ .sendTx f tmo kind := fun _ _ _ ha => hd (by rw [ha]; rfl)
  obtain ⟨ha, -⟩ | ⟨_, _, hnone, _⟩ | ⟨-, hbr | ⟨e, hc⟩⟩ := step_of_exchange h hr hn hb hw hs
  · exact absurd ha hmoved
  · exact absurd hnone hd
  · exact hbr
  · exact absurd hc (he e)

/-- A step that moves an operation between two calls is the block's turn. -/
theorem blockMove_of_moved (h : step s = .next t) (hr : s.rst = false)
    (hn : ∀ ts, s.turns ≠ .env (.rst true) :: ts) (hb : s.status.busy = true)
    (hact : s.act = .readDir ∨ ∃ tmo kind, s.act = .sendSent tmo kind) (hmoved : t.act ≠ s.act) :
    ∃ ts, s.turns = .block :: ts ∧ State.blockMove { s with turns := ts } = .next t := by
  have hd : s.act.rxDemand = none := by obtain ha | ⟨_, _, ha⟩ := hact <;> rw [ha] <;> rfl
  have hw : ∀ why tmo w, s.act ≠ .waiting why tmo w := by
    obtain ha | ⟨_, _, ha⟩ := hact <;> rw [ha] <;> nofun
  have hs : ∀ f tmo kind, s.act ≠ .sendTx f tmo kind := by
    obtain ha | ⟨_, _, ha⟩ := hact <;> rw [ha] <;> nofun
  obtain ⟨ha, -⟩ | ⟨ts, hts, -, hmove⟩ | ⟨hsome, -⟩ := step_of_exchange h hr hn hb hw hs
  · exact absurd ha hmoved
  · exact ⟨ts, hts, hmove⟩
  · exact absurd hd hsome

/-- The direction check that succeeds found 0xD5 (R129). -/
theorem checkDir_completed {u : State} (h : Completed u.checkDir none) :
    u.frameInfo.extractLsb' 16 8 = 0xD5 := by
  by_contra hdir
  rw [checkDir_of_other hdir] at h
  cases h.err_eq (completed_raise _ _ _)

/-- A running operation's step changes XSTATE as a row of the table says. -/
theorem OpStep.xstateRow (m : OpStep s t) (hq : s.sequenced = true) (h : step s = .next t)
    (hr : s.rst = false) (hn : ∀ ts, s.turns ≠ .env (.rst true) :: ts) (hx : t.xstate ≠ s.xstate)
    (htx : t.xstate = .commandSent → s.xstate ≠ .commandSent → ∃ ts, s.turns = .env (.tx .ok) :: ts) :
    XstateRow s t := by
  obtain ⟨-, hrun, hfit⟩ := sequenced_iff.mp hq
  have running : s.act ≠ .idle → s.status.busy = true := And.left ∘ hrun
  -- an error's row, from a state that is not AckRead
  have fails : ∀ {e}, Completed t (some e) → t.xstate = .idle → s.xstate ≠ .ackRead → XstateRow s t :=
    fun hc hx hne => .error hx ⟨_, hc⟩ fun ha => absurd ha hne
  cases m with
  | stays _ _ h' | waits _ _ _ _ _ _ _ h' | ready _ _ _ _ _ h' | header _ _ _ _ _ _ _ h' =>
    exact absurd h' hx
  | expires why tmo w ha _ he hx' =>
    rw [ha] at hfit
    cases why with
    | waitReady => exact absurd hx' hx
    | send | read => exact fails he hx' (by rw [beq_iff_eq.mp hfit.1]; nofun)
  | sent f tmo k ha _ _ hx' =>
    rw [ha] at hfit
    exact .written hfit.1 hx' (htx hx' (by rw [hfit.1]; nofun))
  | begins tmo k w ha ha' _ hx' hw =>
    obtain ⟨ts, hts, -⟩ := blockMove_of_moved h hr hn (running (by rw [ha]; nofun)) (.inr ⟨_, _, ha⟩)
      (by rw [ha, ha']; nofun)
    rw [ha] at hfit
    exact .waitBegins hfit.1 hx' (hw ▸ w.wstate_ne_idle) ⟨ts, hts⟩
  | acked tmo ha hc hx' hm =>
    obtain ⟨-, -, -, -, hidle⟩ := id hc
    have brings := bringsBytes_of_moved h hr hn (running (by rw [ha]; nofun)) (by rw [ha]; nofun)
      (by rw [ha, hidle]; nofun) fun e he => nomatch hc.err_eq he
    rw [ha] at hfit
    exact .acknowledged hfit.1 hx' hc ⟨tmo, ha⟩ brings hm
  | decoded len tmo tr ha ha' _ _ hx' =>
    have brings := bringsBytes_of_moved h hr hn (running (by rw [ha]; nofun)) (by rw [ha]; nofun)
      (by rw [ha, ha']; nofun) fun e => not_completed_of_act (by rw [ha']; nofun)
    rw [ha] at hfit
    exact .decoded hfit.1 hx' ha' ⟨len, tmo, tr, ha⟩ brings
  | checked ha hc hx' =>
    obtain ⟨-, -, -, -, hidle⟩ := id hc
    obtain ⟨ts, hts, -⟩ := blockMove_of_moved h hr hn (running (by rw [ha]; nofun)) (.inl ha)
      (by rw [ha, hidle]; nofun)
    cases (step_readDir hts hr ha).symm.trans h
    have hdir := checkDir_completed hc
    rw [ha] at hfit
    exact .checked hfit.1 hx' hc hdir ⟨ts, hts⟩
  | fails e hc hx' hi hw =>
    refine fails hc hx' fun hack => ?_
    cases ha : s.act with
    | idle => exact hi ha
    | waiting why tmo w => exact hw why tmo w ha
    | sendTx | sendSent | sendRx | readHead | readRest | readDir =>
      rw [ha] at hfit
      cases hack.symm.trans hfit.1

/-- An accepted command's step too: XACT_SEND's and XACT_READ's are the only ones. -/
theorem CommandDoes.xstateRow {i : Instr} {w : Word} (m : CommandDoes i s t) (hq : s.sequenced = true)
    (hb : s.status.busy = false) (hc : CommandAt s w) (hd : Sys2Proof.decode (.cmd w) = .ok i)
    (hx : t.xstate ≠ s.xstate) : XstateRow s t := by
  have hw := encode_of_decode_cmd hd
  obtain ⟨hfree, -⟩ := fits_of_free hq hb
  -- XACT_SEND's first line, which ends AckRead
  have resets : i = .xactSend → t.xstate = .idle → XstateRow s t := by
    rintro rfl hx'
    cases hw
    obtain hs | hs := hfree
    · exact absurd (hx'.trans hs.symm) hx
    · exact .sendCommand hs hx' hc
  cases m.ends with
  | ended r hcomp hx' =>
    obtain hx' | ⟨hx', rfl | rfl, hne⟩ := hx'
    · exact absurd hx' hx
    · exact resets rfl hx'
    · cases hw
      obtain ⟨e, rfl⟩ := Option.ne_none_iff_exists'.mp hne
      exact .error hx' ⟨e, hcomp⟩ fun _ => hc
  | runs _ _ hruns =>
    obtain ⟨-, hx', -⟩ | ⟨rfl, hx', -⟩ | ⟨rfl, hs, hx', _, _, wt, -, hwt⟩ := hruns
    · exact absurd hx' hx
    · exact resets rfl hx'
    · cases hw
      exact .readCommand hs hx' (hwt ▸ wt.wstate_ne_idle) hc

theorem StepDoes.xstateRow (m : StepDoes s t) (hq : s.sequenced = true) (h : step s = .next t)
    (hr : s.rst = false) (hn : ∀ ts, s.turns ≠ .env (.rst true) :: ts) (hx : t.xstate ≠ s.xstate) :
    XstateRow s t := by
  cases m with
  | op m _ _ htx => exact m.step.xstateRow hq h hr hn hx htx
  | edge ts v _ ht =>
    subst ht
    obtain ⟨-, -, hx', -⟩ := irqChange_sequencer v { s with turns := ts }
    exact absurd hx' hx
  | idle m => exact absurd m.xstate hx
  | port _ _ _ _ _ _ hx' => exact absurd hx' hx
  | command hb i w hc hd m => exact m.xstateRow hq hb hc hd hx
  | illegal _ _ _ _ _ _ hx' => exact absurd hx' hx

theorem step_assertRst {ts : List Turn} (ht : s.turns = .env (.rst true) :: ts) (hr : s.rst = false) :
    step s = .next (State.blockReset { s with turns := ts, rst := true }) := by
  rw [step_eq_move ht hr]
  simp only [State.move, State.envMove, hr, Bool.true_eq_false, if_false]

end

/-- Every step that changes XSTATE is a row of the table, or `rst` is or becomes asserted. -/
theorem xstateRow_or_reset {s t : State} (hq : s.sequenced = true) (h : step s = .next t)
    (hx : t.xstate ≠ s.xstate) :
    XstateRow s t ∨ t.xstate = .idle ∧ (s.rst = true ∨ t.rst = true) := by
  obtain ⟨-, e⟩ | ⟨x, ts, hts, ⟨hr, -⟩ | ⟨hr, e⟩⟩ := step_cases s
  · cases e.symm.trans h
    exact absurd rfl hx
  · by_cases hn : ∀ ts, s.turns ≠ .env (.rst true) :: ts
    · obtain m | ⟨ts, hts, -⟩ := step_does_or_resets h hr
      · exact .inl (m.xstateRow hq h hr hn hx)
      · exact absurd hts (hn ts)
    · obtain ⟨ts, hts⟩ := not_forall_not.mp hn
      cases (step_assertRst hts hr).symm.trans h
      exact .inr ⟨rfl, .inr rfl⟩
  · obtain ⟨u, hu, -⟩ := moveInReset_eq x { s with turns := ts }
    cases (e.trans hu).symm.trans h
    exact .inr ⟨rfl, .inl hr⟩

/-- Settles O59: each row, and reset's, in its place in the table. -/
theorem xstateTransitions : Obligations.XstateTransitions := by
  intro s t hinv h hx
  obtain ⟨-, hq, -, -⟩ := inv_iff.mp hinv
  obtain row | hreset := xstateRow_or_reset hq h hx
  · cases row with
    | sendCommand hs ht hc => exact .inl ⟨hs, ht, hc⟩
    | written hs ht htx => exact .inr (.inl ⟨hs, ht, htx⟩)
    | waitBegins hs ht hw hb => exact .inr (.inr (.inl ⟨hs, ht, hw, hb⟩))
    | acknowledged hs ht hc ha hb hm => exact .inr (.inr (.inr (.inl ⟨hs, ht, hc, ha, hb, hm⟩)))
    | readCommand hs ht hw hc => exact .inr (.inr (.inr (.inr (.inl ⟨hs, ht, hw, hc⟩))))
    | decoded hs ht ha' ha hb => exact .inr (.inr (.inr (.inr (.inr (.inl ⟨hs, ht, ha', ha, hb⟩)))))
    | checked hs ht hc hd hb =>
      exact .inr (.inr (.inr (.inr (.inr (.inr (.inl ⟨hs, ht, hc, hd, hb⟩))))))
    | error ht hc hr => exact .inr (.inr (.inr (.inr (.inr (.inr (.inr (.inl ⟨ht, hc, hr⟩)))))))
  · exact .inr (.inr (.inr (.inr (.inr (.inr (.inr (.inr hreset)))))))

end Sys2Proof.Machine


/-! PROOFS. The error codes (60_exceptions.md, R133, R135), and the codes of the fields of STATUS, CONFIG
and SEQSTATE (10_state.md). -/

namespace Sys2Proof.Machine

/-- The errors in the order of R135's table. A fact about every error, or about every two, is then computed
over this list. -/
def Err.table : List Err :=
  [.writeFailed, .readFailed, .readyWait, .transportWrite, .transportRead, .badPreamble, .lcsMismatch,
    .badLength, .incomplete, .dcsMismatch, .notAck, .nack, .ackShort, .unexpectedAck, .badDirection,
    .illegalOp, .payloadTooLong, .lengthRange, .badStrategy, .irqNotArmed, .sequence, .responseTooLong]

theorem Err.mem_table (e : Err) : e ∈ Err.table := by cases e <;> decide

/-- No pair (class, sub-code) stands in R135's table twice. -/
theorem Err.nodup_table_codes : (Err.table.map fun e => (e.cls, e.sub)).Nodup := by decide

theorem Err.eq_of_cls_eq_of_sub_eq {e f : Err} (hc : e.cls = f.cls) (hs : e.sub = f.sub) : e = f :=
  List.inj_on_of_nodup_map Err.nodup_table_codes e.mem_table f.mem_table (Prod.ext hc hs)

theorem Err.cls_ne_none (e : Err) : e.cls ≠ .none :=
  (by decide : ∀ e ∈ Err.table, e.cls ≠ .none) e e.mem_table

theorem Err.sub_ne_zero (e : Err) : e.sub ≠ 0 :=
  (by decide : ∀ e ∈ Err.table, e.sub ≠ 0) e e.mem_table

theorem Status.errClass_of_some {st : Status} {e : Err} (h : st.err = some e) : st.errClass = e.cls := by
  unfold Status.errClass
  rw [h]

theorem Status.errSub_of_some {st : Status} {e : Err} (h : st.err = some e) : st.errSub = e.sub := by
  unfold Status.errSub
  rw [h]

theorem Status.errClass_eq_none_iff (st : Status) : st.errClass = .none ↔ st.err = none := by
  cases h : st.err with
  | none => simp [Status.errClass, h]
  | some e => simp [Status.errClass_of_some h, e.cls_ne_none]

theorem Status.errSub_eq_zero_iff (st : Status) : st.errSub = 0 ↔ st.err = none := by
  cases h : st.err with
  | none => simp [Status.errSub, h]
  | some e => simpa [Status.errSub_of_some h] using e.sub_ne_zero

/-- Settles O60: R135's table has no pair twice, no class NONE and no sub-code 0; the codes are computed. -/
theorem errorCodesDistinct : Obligations.ErrorCodesDistinct :=
  ⟨fun _ _ => Err.eq_of_cls_eq_of_sub_eq, fun e => ⟨e.cls_ne_none, e.sub_ne_zero⟩,
    fun st => ⟨st.errClass_eq_none_iff, st.errSub_eq_zero_iff⟩,
    fun _ _ h => ⟨Status.errClass_of_some h, Status.errSub_of_some h⟩, by decide⟩

end Sys2Proof.Machine


/-! PROOFS. The reset input (70_reset_and_hazards.md, R149 to R151). -/

namespace Sys2Proof.Machine

/-- A step that asserts `rst`, or is taken while it is asserted, ends in a reset block. Only a move of
`rst` changes its level, and asserting it leaves what the agents outside the block hold (R151). -/
theorem step_eq_blockReset {s : State} {ts : List Turn} {x : Turn} (ht : s.turns = x :: ts)
    (hx : s.rst = false ∧ x = .env (.rst true) ∨ s.rst = true) :
    ∃ u : State, step s = .next u.blockReset
      ∧ (s.rst = false → u.wireIn = s.wireIn ∧ u.wireOut = s.wireOut ∧ u.peer = s.peer
          ∧ u.tick = s.tick ∧ u.pin = s.pin)
      ∧ (∀ v, x = .env (.rst v) → u.rst = v) ∧ ((∀ v, x ≠ .env (.rst v)) → u.rst = s.rst) := by
  obtain ⟨hr, rfl⟩ | hr := hx
  · exact ⟨{ s with turns := ts, rst := true }, step_assertRst ht hr,
      fun _ => ⟨rfl, rfl, rfl, rfl, rfl⟩, fun v hv => by cases hv; rfl, fun hn => absurd rfl (hn true)⟩
  · obtain ⟨u, hu, hkeep, hmove⟩ := moveInReset_eq x { s with turns := ts }
    have hstep : step s = .next u.blockReset := (step_eq_moveInReset ht hr).trans hu
    exact ⟨u, hstep, fun hr' => absurd (hr.symm.trans hr') nofun, hmove, hkeep⟩

/-- Settles O53: the block is reset in either case, so each of its elements is the reset state's. -/
theorem resetTakesEveryElement : Obligations.ResetTakesEveryElement := by
  intro s ts x ht hx
  obtain ⟨u, hstep, hagents, hmove, hkeep⟩ := step_eq_blockReset ht hx
  exact ⟨u.blockReset, hstep, rfl, rfl, rfl, rfl, rfl, rfl, rfl, rfl, rfl, rfl, rfl, rfl, rfl, rfl, rfl,
    fun _ => rfl, rfl, rfl, hagents, hmove true, hmove false, hkeep⟩

end Sys2Proof.Machine
